-- ==== Sys2Proof/Word.lean ====
section
/-!
DEFINITION. The word widths of DMUX (10_state.md R10, R12; 30_encoding.md R60). Every multi-bit quantity
the spec numbers bit by bit is a bit vector; a single line, flag or field is a `Bool`.
-/

namespace Sys2Proof

/-- A pattern byte, a serial byte or a shift-register stage (00_scope.md R6, `PAT_WIDTH` = 8). -/
abbrev Byte := BitVec 8

/-- A slot index or digit position, 0..3 (10_state.md R10, R12); addition wraps modulo 4. -/
abbrev Slot := BitVec 2

/-- The 24 bits of a command word `CW` that 30_encoding.md R61 numbers. -/
abbrev CommandWord := BitVec 24

/-- An event word `EW` (30_encoding.md R60). -/
abbrev EventWord := BitVec 8

/-- A response word `RW` (30_encoding.md R60, R66). -/
abbrev ResponseWord := BitVec 16

/-- A word of the input trace: the decoder knows the length from the kind of port (30_encoding.md R60). -/
inductive PortWord where
  /-- a word on the command port: its 24 numbered bits, and the number its further bits of `d` make, those above
  bit 15, which only a model with `SCALED_WIDTH` above 16 has (30_encoding.md R63; log entry 16) -/
  | command (w : CommandWord) (high : Nat := 0)
  /-- one hardware or environment event of the trace -/
  | event (w : EventWord)
  deriving DecidableEq, Repr

end Sys2Proof
end

