-- ==== Sys2Proof/Config.lean ====
section
/-!
DEFINITION. The parameters a DMUX is built with (00_scope.md R7), and the free values (log entries 3, 5, 6).
"every parameter of R7 is fixed when the model is instantiated, never changed by an operation": a
configuration is a constant field of the state, and every statement holds for every configuration.
-/

namespace Sys2Proof

/-- Which multiplexer variant is built (00_scope.md R7, `VARIANT`). -/
inductive Variant where
  | sync
  | async
  deriving DecidableEq, Repr

/-- A serial bit order (10_state.md R19 `ORDER`, 00_scope.md R7 `DISP_ORDER`). -/
inductive BitOrder where
  | msb
  | lsb
  deriving DecidableEq, Repr

/-- What `DISP_VALUE` does with `decimals > 4` (00_scope.md R7, `DECIMALS_POLICY`). -/
inductive DecimalsPolicy where
  | reject
  | clamp
  deriving DecidableEq, Repr

/-- Where a model takes its ticks from: "either free `TMR_TICK` events or `CLK` events, not both"
(60_exceptions.md R156, 30_encoding.md R68; log entry 12). -/
inductive TickSource where
  /-- `TMR_TICK`, a free event of the environment: a model at the event level (R155) -/
  | event
  /-- `CLK`, one system clock: a model at the cycle level (R156) -/
  | clock
  deriving DecidableEq, Repr

/-- The build parameters of 00_scope.md R7, and the model's choice of R156. `SCALE_FN` is an argument of the front
end (log entry 17). -/
structure Config where
  /-- `VARIANT` -/
  variant : Variant
  /-- `SEG_TABLE`, bits 7..1 of each of the ten entries; bit 0 of every entry is clear by construction -/
  segments : Vector (BitVec 7) 10
  /-- `DISP_ORDER` -/
  dispOrder : BitOrder
  /-- `SCALED_WIDTH`: the width of `scaled` in bits (log entry 16) -/
  scaledWidth : Nat
  /-- `ATOMIC_UPDATE` -/
  atomicUpdate : Bool
  /-- `BW_LIMIT`: `none`, or the number of unsuccessful polls allowed -/
  bwLimit : Option Nat
  /-- `TIMER_PERIOD` - 1, the largest value of `TCNT`; so `TIMER_PERIOD` is at least 1 by construction -/
  timerLast : Nat
  /-- `F_SYS`, in clocks per second; no state transition depends on it (60_exceptions.md R164) -/
  fSys : Nat
  /-- `SER_MAY_STALL`: read by the fairness premise of Safety.lean only (log entry 15) -/
  serMayStall : Bool
  /-- `DECIMALS_POLICY` -/
  decimalsPolicy : DecimalsPolicy
  /-- whether ticks are `TMR_TICK` events or come from `CLK` (log entry 12) -/
  tickSource : TickSource
  deriving DecidableEq, Repr

/-- The OPEN parameter `SEG_TABLE`, bits 7..1 of entry `d` (00_scope.md R7, 92_eei_decisions.md D15): a value of
which nothing is known (log entry 3). -/
opaque Config.openSegments : Nat → BitVec 7

/-- The OPEN parameter `TIMER_PERIOD`, less 1 (00_scope.md R7, D25; log entry 3). -/
opaque Config.openTimerLast : Nat

/-- The OPEN parameter `F_SYS` (00_scope.md R7, D25; log entry 3). -/
opaque Config.openFSys : Nat

/-- The free values of a byte register that the spec leaves unspecified after `RESET`
(93_implementation_defined.md U5, U6; log entry 5): draw number `n`. -/
opaque Config.freeByte : Nat → Byte

/-- The free value of the bit the external register takes in clock mode (0,1)
(42_serial.md R124, 93_implementation_defined.md U8; log entry 6): draw number `n`. -/
opaque Config.freeBit : Nat → Bool

/-- The configuration of the reset state: the defaults of 00_scope.md R7, the OPEN parameters left open (log
entry 3), and ticks as free events (log entry 12). -/
def Config.initial : Config where
  variant := .async
  segments := Vector.ofFn fun d => Config.openSegments d.val
  dispOrder := .msb
  scaledWidth := 16
  atomicUpdate := false
  bwLimit := none
  timerLast := Config.openTimerLast
  fSys := Config.openFSys
  serMayStall := false
  decimalsPolicy := .reject
  tickSource := .event

/-- `TIMER_PERIOD`: timer counts per tick, at least 1 (00_scope.md R7). -/
def Config.timerPeriod (c : Config) : Nat := c.timerLast + 1

end Sys2Proof
end

