-- ==== Sys2Proof/Syntax.lean ====
section
/-!
DEFINITION. The operations of DMUX: one constructor per row of spec/opcode_table.json, nine host commands
(30_encoding.md R62 to R64) and eight hardware or environment events (R68), with their operands
as 30_encoding.md R63 assembles them.
-/

namespace Sys2Proof

/-- `ROLE` of the serial unit (10_state.md R19). -/
inductive Role where
  /-- 1: generates the clock -/
  | controller
  /-- 0: follows the clock -/
  | peripheral
  deriving DecidableEq, Repr

/-- An operation of DMUX. -/
inductive Instr where
  /-- `DISP_INIT` (43_system.md R140) -/
  | dispInit
  /-- `PAT_WRITE i, b` (40_encoder.md R80) -/
  | patWrite (i : Slot) (b : Byte)
  /-- `DISP_VALUE decimals, scaled` (40_encoder.md R82); `decimals` 5..7 is well formed, and `scaled` is a number of
  `SCALED_WIDTH` bits (30_encoding.md R63) -/
  | dispValue (decimals : BitVec 3) (scaled : Nat)
  /-- `SER_CONFIG role, order, cpol, cpha` (42_serial.md R110) -/
  | serConfig (role : Role) (order : BitOrder) (cpol cpha : Bool)
  /-- `SER_XMIT_BW b` (42_serial.md R113) -/
  | serXmitBw (b : Byte)
  /-- `SER_XMIT_IRQ b` (42_serial.md R118) -/
  | serXmitIrq (b : Byte)
  /-- `SER_SET_HANDLER h` (42_serial.md R116); the field value 3 is reserved (30_encoding.md R65) -/
  | serSetHandler (h : BitVec 2)
  /-- `INT_ENABLE` (43_system.md R142) -/
  | intEnable
  /-- `INT_DISABLE` (43_system.md R143) -/
  | intDisable
  /-- event `RESET` (70_reset_and_hazards.md R180) -/
  | reset
  /-- event `TMR_TICK` (60_exceptions.md R155) -/
  | tmrTick
  /-- event `IRQ_TICK` (60_exceptions.md R157) -/
  | irqTick
  /-- event `SER_STEP s`, `s` the level sampled on `SDI` (42_serial.md R117) -/
  | serStep (s : Bool)
  /-- event `IRQ_SER` (60_exceptions.md R158) -/
  | irqSer
  /-- event `SER_GLITCH` (42_serial.md R120) -/
  | serGlitch
  /-- event `CLK` (60_exceptions.md R156) -/
  | clk
  /-- event `FG_STEP` (43_system.md R144) -/
  | fgStep
  deriving DecidableEq, Repr

/-- Whether the operation is a host command, not an event (30_encoding.md R60). -/
def Instr.isCommand : Instr → Bool
  | .dispInit | .patWrite .. | .dispValue .. | .serConfig .. | .serXmitBw _ | .serXmitIrq _
  | .serSetHandler _ | .intEnable | .intDisable => true
  | .reset | .tmrTick | .irqTick | .serStep _ | .irqSer | .serGlitch | .clk | .fgStep => false

/-- The row of spec/opcode_table.json the operation stands on. -/
def Instr.mnemonic : Instr → String
  | .dispInit => "DISP_INIT"
  | .patWrite .. => "PAT_WRITE"
  | .dispValue .. => "DISP_VALUE"
  | .serConfig .. => "SER_CONFIG"
  | .serXmitBw _ => "SER_XMIT_BW"
  | .serXmitIrq _ => "SER_XMIT_IRQ"
  | .serSetHandler _ => "SER_SET_HANDLER"
  | .intEnable => "INT_ENABLE"
  | .intDisable => "INT_DISABLE"
  | .reset => "RESET"
  | .tmrTick => "TMR_TICK"
  | .irqTick => "IRQ_TICK"
  | .serStep _ => "SER_STEP"
  | .irqSer => "IRQ_SER"
  | .serGlitch => "SER_GLITCH"
  | .clk => "CLK"
  | .fgStep => "FG_STEP"

end Sys2Proof
end

