-- ==== Sys2Proof/Machine/State.lean ====
section
/-!
DEFINITION. The state of DMUX: every element of 10_state.md sections 1 to 8 under its own name, the four
fields of the model itself (configuration, input trace, outputs, count of free values), the outputs
a step can give, the reasons a step is refused, and the reset state (10_state.md R26).
-/

namespace Sys2Proof.Machine

/-- An output line of the line trace (10_state.md R15). -/
inductive OutLine where
  | sck
  | sdo
  | latch
  /-- `EN[i]` -/
  | en (i : Slot)
  deriving DecidableEq, Repr

/-- The status of a response word (30_encoding.md R66). -/
inductive Status where
  | ok
  | invalidArgument
  | hardwareTimeout
  | illegalCommand
  | serialBusy
  | notConfigured
  | halted
  deriving DecidableEq, Repr

/-- The two interrupt sources (60_exceptions.md R159). -/
inductive IrqSource where
  | tick
  | ser
  deriving DecidableEq, Repr

/-- What a step gives out (00_scope.md R8; 42_serial.md R122 for `inSck`). -/
inductive Output where
  /-- `Out(LINE, v)` -/
  | out (line : OutLine) (v : Bool)
  /-- `In(SCK, v)`: the external controller drives the clock (42_serial.md R122) -/
  | inSck (v : Bool)
  /-- `respond(code, data)`: the response word `RW` (30_encoding.md R66) -/
  | response (rw : ResponseWord)
  /-- `notify(HOST)` -/
  | notifyHost
  deriving DecidableEq, Repr

/-- `SERCFG` when configured (10_state.md R19): `ROLE`, `ORDER`, `CPOL`, `CPHA`. -/
structure SerCfg where
  role : Role
  order : BitOrder
  /-- `CPOL`, the idle clock level -/
  cpol : Bool
  /-- `CPHA`: the sample edge, false the leading and true the trailing edge -/
  cpha : Bool
  deriving DecidableEq, Repr

/-- `XMODE`: how the transfer in flight or the last one was started (10_state.md R20). -/
inductive XferMode where
  | bw
  | irq
  deriving DecidableEq, Repr

/-- The completion-notification target (10_state.md R21). -/
inductive Handler where
  | none
  | mux
  | host
  deriving DecidableEq, Repr

/-- `FG`, the state of the foreground task (10_state.md R22). -/
inductive Fg where
  | idle
  /-- `WRITING((i, b) :: rest, saved)`: the list of stores still to make is never empty (log entry 20) -/
  | writing (i : Slot) (b : Byte) (rest : List (Slot × Byte)) (saved : Bool)
  /-- `SPIN(saved, n)` -/
  | spin (saved : Bool) (n : Nat)
  deriving DecidableEq, Repr

/-- The state of DMUX and of its environment's shift register. -/
structure State where
  /-- the build parameters, constant in every run (00_scope.md R7; log entry 3) -/
  cfg : Config
  /-- inputs of the coming steps, the next one first (log entry 1) -/
  trace : List PortWord
  /-- outputs of the steps made so far, the oldest first (log entry 2) -/
  out : List Output
  /-- how many free values have been drawn (log entry 5) -/
  draws : Nat
  /-- `PAT[0..3]`: the valid slots in rising order (10_state.md R10; log entry 19) -/
  mem : List Host.Cell
  /-- `CUR` (R12) -/
  cur : Slot
  /-- `PREV` (R13) -/
  prev : Option Slot
  /-- `MUXPEND` (R14) -/
  muxpend : Bool
  /-- `EN[3:0]` (R15) -/
  en : BitVec 4
  /-- the level of `SCK` (R15; log entry 7) -/
  sck : Bool
  /-- `SDO` (R15) -/
  sdo : Bool
  /-- `LATCH` (R15) -/
  latch : Bool
  /-- `IE` (R16) -/
  ie : Bool
  /-- `TICKF` (R17) -/
  tickf : Bool
  /-- `SERF` (R17) -/
  serf : Bool
  /-- `TICK_EN` (R18) -/
  tickEn : Bool
  /-- `PRE` (R18) -/
  pre : BitVec 6
  /-- `TCNT` (R18) -/
  tcnt : Nat
  /-- `SERCFG` (R19); `none` is the spec's `NONE`, never configured -/
  sercfg : Option SerCfg
  /-- `TXSR` (R20) -/
  txsr : Byte
  /-- `RXSR` (R20) -/
  rxsr : Byte
  /-- `RXB` (R20) -/
  rxb : Byte
  /-- `BITCNT` (R20) -/
  bitcnt : BitVec 3
  /-- `BUSY` (R20) -/
  busy : Bool
  /-- `DONE` (R20) -/
  done : Bool
  /-- `XMODE` (R20) -/
  xmode : XferMode
  /-- `HANDLER` (R21) -/
  handler : Handler
  /-- `FG` (R22) -/
  fg : Fg
  /-- `FLT_TICKLOST` (R23) -/
  fltTickLost : Bool
  /-- `FLT_MUXOVR` (R23) -/
  fltMuxOvr : Bool
  /-- `FLT_TIMEOUT` (R23) -/
  fltTimeout : Bool
  /-- `HALT` (R23) -/
  halt : Bool
  /-- `SRS`, the external register's shift stage (R24) -/
  srs : Byte
  /-- `SEG`, the external register's output stage (R24) -/
  seg : Byte
  deriving DecidableEq, Repr

/-- The reasons DMUX stops with a fault: none. "DMUX has no terminal state" (70_reset_and_hazards.md R193); the
spec's own faults are sticky flags of the state and the machine goes on (60_exceptions.md R151 to
R154; log entry 18). -/
inductive Fault where
  deriving DecidableEq, Repr

/-- Why a word of the trace is not a step of the block. -/
inductive Refusal where
  /-- raised by `exec`'s arm of an instruction that has no meaning yet; safe -/
  | notModelled (mnemonic : String)
  /-- raised by `step` when the input trace is empty: nothing has arrived, so there is no step
  (00_scope.md R8; log entry 1); safe -/
  | noWord
  /-- raised by every command while `FG` is not `IDLE`: "a model gives that situation no step"
  (30_encoding.md R67; log entry 10); safe -/
  | foregroundBusy
  /-- raised by every event whose enabling condition does not hold: "not a step of the block (a model refuses the
  trace)" (30_encoding.md R68; log entry 9), and by the one of `TMR_TICK` and `CLK` that the model does not take its
  ticks from: "never both" (R68; log entry 12); safe -/
  | eventNotEnabled
  /-- raised by `step` on an event word that is reserved: "not events" (30_encoding.md R68; log entry 9); safe -/
  | notAnEvent
  /-- raised by `SER_STEP` in the unreachable state `BUSY = 1`, `SERCFG = NONE` (42_serial.md R111 "Callers guarantee";
  log entry 11); safe -/
  | serialUnconfigured
  deriving DecidableEq, Repr

/-- The state right after reset (10_state.md R26). `TXSR`, `RXSR`, `RXB`, `SRS` and `SEG`, which the spec leaves
unspecified, hold 0 here (DESIGN CHOICE, log entry 4). -/
def State.reset : State where
  cfg := Config.initial
  trace := []
  out := []
  draws := 0
  mem := []
  cur := 0
  prev := none
  muxpend := false
  en := 0b0000
  sck := false
  sdo := false
  latch := false
  ie := false
  tickf := false
  serf := false
  tickEn := false
  pre := 0
  tcnt := 0
  sercfg := none
  txsr := 0
  rxsr := 0
  rxb := 0
  bitcnt := 0
  busy := false
  done := false
  xmode := .bw
  handler := .none
  fg := .idle
  fltTickLost := false
  fltMuxOvr := false
  fltTimeout := false
  halt := false
  srs := 0
  seg := 0

end Sys2Proof.Machine
end

