-- ==== Sys2Proof/Machine/Ops.lean ====
section
/-!
DEFINITION. The shared operations over the pattern slots, the outputs, the lines with the external shift
register behind them, and the interrupt entry and return.
-/

namespace Sys2Proof.Machine

/-- What an operation answers. -/
abbrev Result := Host.Outcome State Fault Refusal

/-! ### Pattern slots: the only addressable storage (20_memory.md R40; log entry 19) -/

/-- `MemRead(a, 1)`: an unlisted address reads `NONE`. -/
def Memory.read : List Host.Cell → Nat → Option Byte
  | [], _ => none
  | (k, v) :: m, a => if k = a then some v else Memory.read m a

/-- `MemWrite(a, 1, b)`, which keeps the addresses strictly rising. -/
def Memory.write : List Host.Cell → Nat → Byte → List Host.Cell
  | [], a, b => [(a, b)]
  | (k, v) :: m, a, b =>
    if a < k then (a, b) :: (k, v) :: m
    else if a = k then (a, b) :: m
    else (k, v) :: Memory.write m a b

/-- The addresses of `m` are at least `lo` and strictly rising. -/
def Memory.risingFrom (lo : Nat) : List Host.Cell → Bool
  | [] => true
  | (k, _) :: m => decide (lo ≤ k) && Memory.risingFrom (k + 1) m

/-- The canonical form: addresses strictly rising and within the four slots. An entry is a byte and an
unlisted slot reads `NONE`, so no entry repeats what an unlisted slot reads as. -/
def Memory.wf (m : List Host.Cell) : Bool :=
  Memory.risingFrom 0 m && m.all fun c => decide (c.1 < 4)

/-- `PAT[i]` (10_state.md R10). -/
def State.pat (s : State) (i : Slot) : Option Byte := Memory.read s.mem i.toNat

/-- `PAT[i] <- b`: the slot becomes valid (20_memory.md R40). -/
def State.writeSlot (s : State) (i : Slot) (b : Byte) : State :=
  { s with mem := Memory.write s.mem i.toNat b }

/-! ### Outputs of a step (00_scope.md R8) -/

/-- Append one output. -/
def State.emit (s : State) (o : Output) : State := { s with out := s.out ++ [o] }

/-- The status codes (30_encoding.md R66). -/
def Status.code : Status → Byte
  | .ok => 0x00
  | .invalidArgument => 0x01
  | .hardwareTimeout => 0x02
  | .illegalCommand => 0x03
  | .serialBusy => 0x04
  | .notConfigured => 0x05
  | .halted => 0x06

/-- `{code[7:0], data[7:0]}` (30_encoding.md R66). -/
def responseWord (st : Status) (data : Byte) : ResponseWord := st.code ++ data

/-- `respond(code, data)`. -/
def State.respond (s : State) (st : Status) (data : Byte) : State :=
  s.emit (.response (responseWord st data))

/-- `raise <Name>` of a host command: respond with the status code and change no state (00_scope.md R8). -/
def raiseError (st : Status) (s : State) : Result := .next (s.respond st 0)

/-! ### The external shift register (42_serial.md R124, R125) -/

/-- `((r << 1) | bit) & 0xFF`. -/
def shiftUp (r : Byte) (bit : Bool) : Byte := (r <<< 1) ||| (BitVec.ofBool bit).setWidth 8

/-- `(r >> 1) | (bit << 7)`. -/
def shiftDown (r : Byte) (bit : Bool) : Byte := (r >>> 1) ||| ((BitVec.ofBool bit).setWidth 8 <<< 7)

/-- Bit k of the result is bit 7-k of `b` (42_serial.md R125). -/
def bitReverse (b : Byte) : Byte := b.reverse

/-- A change of `SCK` to level `v` is a rising edge (42_serial.md R124). -/
def State.risingTo (s : State) (v : Bool) : Bool := !s.sck && v

/-- The bit the external register takes at a rising edge: `SDO`, or a draw where `SDO` changes on that edge
(42_serial.md R124; log entry 6). -/
def State.sampledBit (s : State) (race : Bool) : Bool :=
  if race then Config.freeBit s.draws else s.sdo

/-- `SCK` takes level `v`, recorded as `o`; a change from 0 to 1 shifts the external register, whoever drives
the line (42_serial.md R124; log entry 7). -/
def State.setSck (s : State) (v : Bool) (o : Output) (race : Bool) : State :=
  { s with
    sck := v
    srs := if s.risingTo v then shiftUp s.srs (s.sampledBit race) else s.srs
    draws := if s.risingTo v && race then s.draws + 1 else s.draws
    out := s.out ++ [o] }

/-! ### Output lines: `LINE <- v` is `Out(LINE, v)` and the state update together (00_scope.md R8; log entry 21) -/

/-- `SCK <- v`, with `SDO` stable. -/
def State.driveSck (s : State) (v : Bool) : State := s.setSck v (.out .sck v) false

/-- `SDO <- v`. -/
def State.driveSdo (s : State) (v : Bool) : State :=
  { s with sdo := v, out := s.out ++ [.out .sdo v] }

/-- What `SEG` takes at a rising latch edge (42_serial.md R125). -/
def latched (order : BitOrder) (srs : Byte) : Byte :=
  match order with
  | .msb => srs
  | .lsb => bitReverse srs

/-- `LATCH <- v`; a change from 0 to 1 copies the shift stage to the outputs (42_serial.md R125). -/
def State.driveLatch (s : State) (v : Bool) : State :=
  { s with
    latch := v
    seg := if !s.latch && v then latched s.cfg.dispOrder s.srs else s.seg
    out := s.out ++ [.out .latch v] }

/-- The mask of digit position `i` in `EN[3:0]`. -/
def enMask (i : Slot) : BitVec 4 := 1#4 <<< i.toNat

/-- `EnAssert(i)` (41_multiplexer.md R93). -/
def State.enAssert (s : State) (i : Slot) : State :=
  { s with en := s.en ||| enMask i, out := s.out ++ [.out (.en i) true] }

/-- `EnDeassert(i)` (41_multiplexer.md R93). -/
def State.enDeassert (s : State) (i : Slot) : State :=
  { s with en := s.en &&& ~~~ enMask i, out := s.out ++ [.out (.en i) false] }

/-- `LatchPulse` (41_multiplexer.md R92). -/
def State.latchPulse (s : State) : State := (s.driveLatch true).driveLatch false

/-- What the viewer sees at digit position `i` (10_state.md R25). -/
def State.shown (s : State) (i : Slot) : Byte := if s.en.getLsbD i.toNat then s.seg else 0x00

/-! ### Interrupt entry and return (60_exceptions.md R160) -/

/-- The pending flag of a source (60_exceptions.md R159). -/
def State.pending (s : State) : IrqSource → Bool
  | .tick => s.tickf
  | .ser => s.serf

/-- "Taking an interrupt clears its pending flag and clears `IE`"; nothing else is saved. -/
def State.enterInterrupt (s : State) : IrqSource → State
  | .tick => { s with tickf := false, ie := false }
  | .ser => { s with serf := false, ie := false }

/-- "return sets `IE` to 1"; nothing else is restored. -/
def State.returnFromInterrupt (s : State) : State := { s with ie := true }

/-- An event that is a step only when its enabling condition holds (30_encoding.md R68). -/
def whenEnabled (enabled : Bool) (s : State) (body : State → Result) : Result :=
  if enabled then body s else .refused .eventNotEnabled

/-- The whole of an interrupt as one atomic step: entry, handler body, return, when `IE = 1`, the source is
pending and `HALT = 0` (60_exceptions.md R157, R158). -/
def takeInterrupt (src : IrqSource) (handlerBody : State → State) (s : State) : Result :=
  whenEnabled (s.ie && s.pending src && !s.halt) s fun s =>
    .next (handlerBody (s.enterInterrupt src)).returnFromInterrupt

/-! ### Command acceptance (43_system.md R145, 30_encoding.md R67) -/

/-- A command is accepted only when `FG = IDLE`; then `HALT` is checked, then the operation's own rule is
applied. -/
def acceptCommand (s : State) (body : State → Result) : Result :=
  match s.fg with
  | .idle => if s.halt then raiseError .halted s else body s
  | .writing .. => .refused .foregroundBusy
  | .spin .. => .refused .foregroundBusy

/-- An illegal command word: the response is status 0x03 and no state changes (30_encoding.md R65); the check
comes before that of `HALT` (R67). -/
def illegalCommand (s : State) : Result :=
  match s.fg with
  | .idle => raiseError .illegalCommand s
  | .writing .. => .refused .foregroundBusy
  | .spin .. => .refused .foregroundBusy

end Sys2Proof.Machine
end

