-- ==== Sys2Proof/Machine/Operands.lean ====
section
/-!
DEFINITION. What the meanings make of their operands: the decimals check, the handler id, the Digit Encoder's
arithmetic (40_encoder.md R81, R84) and the bit a transfer sends next (30_encoding.md R70).
-/

namespace Sys2Proof.Machine

/-- `decimals` after the argument check of `DISP_VALUE` (40_encoder.md R82): `none` is `InvalidArgument`. -/
def decimalsOperand (policy : DecimalsPolicy) (decimals : Nat) : Option Nat :=
  if decimals ≤ 4 then some decimals
  else match policy with
    | .reject => none
    | .clamp => some 4

/-- The handler a field value names (30_encoding.md R63); 3 is reserved (R65). -/
def handlerOperand (h : BitVec 2) : Option Handler :=
  match h.toNat with
  | 0 => some .none
  | 1 => some .mux
  | 2 => some .host
  | _ => none

/-- `POW10[i]`, the powers of ten up to 10000 (00_scope.md R6). -/
def pow10 (i : Nat) : Nat := 10 ^ i

/-- `(scaled / POW10[i]) mod 10` (40_encoder.md R81). -/
def digit (scaled i : Nat) : Fin 10 := ⟨scaled / pow10 i % 10, Nat.mod_lt _ (by decide)⟩

/-- `SEG_TABLE[d]`: the configured segments in bits 7..1, bit 0 clear (00_scope.md R7). -/
def segTable (cfg : Config) (d : Fin 10) : Byte := cfg.segments[d] ++ 0#1

/-- `e[i]` of `Encode(scaled, decimals)` (40_encoder.md R81): the table's pattern of the digit, with the
decimal-point bit on slot `decimals` unless `decimals` is 0. -/
def encodeSlot (cfg : Config) (scaled decimals i : Nat) : Byte :=
  if i = decimals ∧ decimals ≠ 0 then segTable cfg (digit scaled i) ||| 0x01
  else segTable cfg (digit scaled i)

/-- `Encode(scaled, decimals)`: the four pattern bytes (40_encoder.md R81). -/
def encodeDigits (cfg : Config) (scaled decimals : Nat) : Vector Byte 4 :=
  #v[encodeSlot cfg scaled decimals 0, encodeSlot cfg scaled decimals 1,
     encodeSlot cfg scaled decimals 2, encodeSlot cfg scaled decimals 3]

/-- Bit `k` in sending order of a byte (30_encoding.md R70): b[7-k] MSB-first, b[k] LSB-first. -/
def sendBit (order : BitOrder) (b : Byte) (k : Nat) : Bool :=
  match order with
  | .msb => b.getLsbD (7 - k)
  | .lsb => b.getLsbD k

/-- The bit the serial unit sends next, `TXSR[7]` or `TXSR[0]` (42_serial.md R117). -/
def nextBit (order : BitOrder) (txsr : Byte) : Bool :=
  match order with
  | .msb => txsr.getLsbD 7
  | .lsb => txsr.getLsbD 0

/-- `TXSR` after one bit (42_serial.md R117). -/
def txAfter (order : BitOrder) (txsr : Byte) : Byte :=
  match order with
  | .msb => txsr <<< 1
  | .lsb => txsr >>> 1

/-- `RXSR` after sampling `s` (42_serial.md R117). -/
def rxAfter (order : BitOrder) (rxsr : Byte) (s : Bool) : Byte :=
  match order with
  | .msb => shiftUp rxsr s
  | .lsb => shiftDown rxsr s

end Sys2Proof.Machine
end

