-- ==== Sys2Proof/Machine/Flags.lean ====
section
/-!
DEFINITION. The flags: the two event faults (60_exceptions.md R151 to R153), the tick's pending flag (R155)
and the flags a serial bit step sets (42_serial.md R117).
-/

namespace Sys2Proof.Machine

/-- `raise TickLost` (60_exceptions.md R153): `FLT_TICKLOST <- 1`; `TICKF` stays 1 and `HALT` is not set. -/
def State.raiseTickLost (s : State) : State := { s with fltTickLost := true }

/-- `raise MuxOverrun` (60_exceptions.md R152): `FLT_MUXOVR <- 1; HALT <- 1` and nothing else. -/
def State.raiseMuxOverrun (s : State) : State := { s with fltMuxOvr := true, halt := true }

/-- `raise HardwareTimeout`'s flags (42_serial.md R114): `FLT_TIMEOUT <- 1; HALT <- 1`. -/
def State.raiseTimeout (s : State) : State := { s with fltTimeout := true, halt := true }

/-- The timer fires (60_exceptions.md R155): a tick still pending is `TickLost`; then `TICKF <- 1`. -/
def State.timerFires (s : State) : State :=
  let s' := if s.tickf then s.raiseTickLost else s
  { s' with tickf := true }

/-- The bit just shifted is the eighth (42_serial.md R117). -/
def State.lastBit (s : State) : Bool := s.bitcnt == 7

/-- `BITCNT`, `BUSY`, `DONE`, `RXB` and `SERF` after a bit step whose receive register is now `rx`
(42_serial.md R117). -/
def State.countBit (s : State) (rx : Byte) : State :=
  { s with
    bitcnt := if s.lastBit then 0 else s.bitcnt + 1
    busy := if s.lastBit then false else s.busy
    done := if s.lastBit then true else s.done
    rxb := if s.lastBit then rx else s.rxb
    serf := if s.lastBit && s.xmode == .irq then true else s.serf }

end Sys2Proof.Machine
end

