-- ==== Sys2Proof/Machine/Encoder.lean ====
section
/-!
DEFINITION. The Digit Encoder and the pattern stores: `PAT_WRITE`, `DISP_VALUE` and the pseudo-operation
`display_value` (40_encoder.md R80 to R83).
-/

namespace Sys2Proof.Machine

/-- `PAT_WRITE i, b` (40_encoder.md R80): `PAT[i] <- b; respond(OK, 0x00)`. -/
def execPatWrite (i : Slot) (b : Byte) (s : State) : Result :=
  acceptCommand s fun s => .next ((s.writeSlot i b).respond .ok 0x00)

/-- `FG <- WRITING([(0, e[0]), .. (3, e[3])], IE)`, and `IE <- 0` when `ATOMIC_UPDATE` (40_encoder.md R82). -/
def State.beginWriting (s : State) (e : Vector Byte 4) : State :=
  { s with
    ie := if s.cfg.atomicUpdate then false else s.ie
    fg := .writing 0 e[0] [(1, e[1]), (2, e[2]), (3, e[3])] s.ie }

/-- `DISP_VALUE decimals, scaled`, step 1 (40_encoder.md R82); steps 2 to 5 are `FG_STEP`s. -/
def execDispValue (decimals : BitVec 3) (scaled : Nat) (s : State) : Result :=
  acceptCommand s fun s =>
    match decimalsOperand s.cfg.decimalsPolicy decimals.toNat with
    | none => raiseError .invalidArgument s
    | some n => .next (s.beginWriting (encodeDigits s.cfg scaled n))

/-- The end of a `DISP_VALUE` (40_encoder.md R82): `IE` restored when `ATOMIC_UPDATE`, `FG <- IDLE`, and the response. -/
def State.endWriting (s : State) (saved : Bool) : State :=
  State.respond
    { s with ie := if s.cfg.atomicUpdate then saved else s.ie, fg := .idle } .ok 0x00

/-- One slot store of a `DISP_VALUE` in progress (40_encoder.md R82, steps 2 to 5). -/
def State.storeStep (s : State) (i : Slot) (b : Byte) (rest : List (Slot × Byte)) (saved : Bool) :
    State :=
  match rest with
  | (j, c) :: rest => { s.writeSlot i b with fg := .writing j c rest saved }
  | [] => (s.writeSlot i b).endWriting saved

/-! ### `display_value`, the front end (40_encoder.md R83; log entry 17) -/

/-- The `value` argument: an exact rational `num / den`, or one of the inputs without a result. -/
inductive DisplayArgument where
  | rational (num : Int) (den : Nat)
  | infinite
  | notANumber
  deriving DecidableEq, Repr

/-- What a call of `display_value` amounts to. -/
inductive DisplayCall where
  /-- the command the host issues -/
  | command (i : Instr)
  /-- `decimals` out of range, rejected before the scaling -/
  | invalidArgument
  /-- the source defines no result: "a model refuses such a call" -/
  | refusedCall
  deriving DecidableEq, Repr

/-- The default `SCALE_FN`: `floor(num / den × 10^decimals)`, computed exactly (40_encoder.md R83). -/
def scaleExact (num den decimals : Nat) : Nat := num * pow10 decimals / den

/-- `display_value(value, decimals)` with a given `SCALE_FN`: the check of `decimals` comes first, then the scaling;
a negative or non-finite value, a zero denominator, or a result of `2^SCALED_WIDTH` or more is refused
(40_encoder.md R83, 93_implementation_defined.md U3).
DESIGN CHOICE (log entry 17): `decimals` above 7, which no command word can hold, goes by `DECIMALS_POLICY` as 5 to 7
do, so under `CLAMP` it is taken as 4; 93_implementation_defined.md U1 says only that `display_value` "rejects them
the same way". -/
def displayValueWith (scaleFn : Nat → Nat → Nat → Nat) (c : Config)
    (value : DisplayArgument) (decimals : Nat) : DisplayCall :=
  match decimalsOperand c.decimalsPolicy decimals with
  | none => .invalidArgument
  | some n =>
    match value with
    | .infinite => .refusedCall
    | .notANumber => .refusedCall
    | .rational num den =>
      if num < 0 ∨ den = 0 then .refusedCall
      else if 2 ^ c.scaledWidth ≤ scaleFn num.toNat den n then .refusedCall
      else .command (.dispValue (BitVec.ofNat 3 n) (scaleFn num.toNat den n))

/-- `display_value` with the exact `SCALE_FN`. -/
def displayValue (c : Config) (value : DisplayArgument) (decimals : Nat) : DisplayCall :=
  displayValueWith scaleExact c value decimals

end Sys2Proof.Machine
end

