-- ==== Sys2Proof/Machine/Serial.lean ====
section
/-!
DEFINITION. The Serial Transmit primitive: `SER_CONFIG`, `SER_XMIT_BW` and its spin, `SER_XMIT_IRQ`,
`SER_SET_HANDLER`, `SER_STEP`, `SER_GLITCH` and the bit-banged transmitter (42_serial.md R110 to R122).
-/

namespace Sys2Proof.Machine

/-- `SER_CONFIG role, order, cpol, cpha` (42_serial.md R110): a controller drives the clock to its idle level. -/
def execSerConfig (role : Role) (order : BitOrder) (cpol cpha : Bool) (s : State) : Result :=
  acceptCommand s fun s =>
    if s.busy then raiseError .serialBusy s
    else
      let s := { s with sercfg := some ⟨role, order, cpol, cpha⟩ }
      match role with
      | .controller => .next ((s.driveSck cpol).respond .ok 0x00)
      | .peripheral => .next (s.respond .ok 0x00)

/-- `SerStart(b, mode)` (42_serial.md R111). -/
def State.serStart (s : State) (b : Byte) (mode : XferMode) : State :=
  { s with txsr := b, rxsr := 0x00, bitcnt := 0, busy := true, done := false, xmode := mode }

/-- The checks of a transmit command, in their order: `NotConfigured`, then `SerialBusy` (42_serial.md R113, R118). -/
def whenSerialReady (s : State) (body : State → Result) : Result :=
  if s.sercfg.isNone then raiseError .notConfigured s
  else if s.busy then raiseError .serialBusy s
  else body s

/-- `SER_XMIT_BW b`, the issue step (42_serial.md R113): the critical section is entered and no response is given yet. -/
def execSerXmitBw (b : Byte) (s : State) : Result :=
  acceptCommand s fun s => whenSerialReady s fun s =>
    .next { ({ s with ie := false } : State).serStart b .bw with fg := .spin s.ie 0 }

/-- `SER_XMIT_IRQ b` (42_serial.md R118): returns at once; `IE` is not touched. -/
def execSerXmitIrq (b : Byte) (s : State) : Result :=
  acceptCommand s fun s => whenSerialReady s fun s =>
    .next ((s.serStart b .irq).respond .ok 0x00)

/-- The bound of the busy-wait is reached at the poll after `n` unsuccessful ones (42_serial.md R114). -/
def limitReached (limit : Option Nat) (n : Nat) : Bool :=
  match limit with
  | none => false
  | some l => decide (l ≤ n)

/-- One unsuccessful poll: `FG_STEP` while `FG = SPIN(saved, n)` and `DONE = 0` (42_serial.md R114). -/
def State.spinPoll (s : State) (saved : Bool) (n : Nat) : State :=
  if limitReached s.cfg.bwLimit n then
    ({ s.raiseTimeout with ie := saved, fg := .idle } : State).respond .hardwareTimeout 0x00
  else { s with fg := .spin saved (n + 1) }

/-- The end of the busy-wait: `FG_STEP` while `FG = SPIN(saved, n)` and `DONE = 1` (42_serial.md R115). -/
def State.spinEnd (s : State) (saved : Bool) : State :=
  ({ s with done := false, ie := saved, fg := .idle } : State).respond .ok s.rxb

/-- `SER_SET_HANDLER h` (42_serial.md R116); `h = 3` is an illegal encoding (30_encoding.md R65; log entry 22). -/
def execSerSetHandler (h : BitVec 2) (s : State) : Result :=
  match handlerOperand h with
  | none => illegalCommand s
  | some target => acceptCommand s fun s => .next (({ s with handler := target } : State).respond .ok 0x00)

/-- A change of the clock during a bit (42_serial.md R112, R122): the controller drives it, in peripheral role it
comes from outside. In mode (0,1) its rising edge is a race with `SDO` (R124; log entry 6). -/
def State.clockTo (s : State) (c : SerCfg) (v : Bool) : State :=
  match c.role with
  | .controller => s.setSck v (.out .sck v) (!c.cpol && c.cpha)
  | .peripheral => s.setSck v (.inSck v) (!c.cpol && c.cpha)

/-- `BitTrace(cfg, bit)` (42_serial.md R112), and its counterpart with an external clock (R122). -/
def State.bitTrace (s : State) (c : SerCfg) (bit : Bool) : State :=
  if c.cpha then ((s.clockTo c (!c.cpol)).driveSdo bit).clockTo c c.cpol
  else ((s.driveSdo bit).clockTo c (!c.cpol)).clockTo c c.cpol

/-- `SER_STEP s` of a configured unit (42_serial.md R117). -/
def State.shiftBit (s : State) (c : SerCfg) (sdi : Bool) : State :=
  let t := s.bitTrace c (nextBit c.order s.txsr)
  let rx := rxAfter c.order s.rxsr sdi
  ({ t with txsr := txAfter c.order s.txsr, rxsr := rx } : State).countBit rx

/-- `SER_STEP s`, enabled when `BUSY = 1` (42_serial.md R117). -/
def execSerStep (sdi : Bool) (s : State) : Result :=
  whenEnabled s.busy s fun s =>
    match s.sercfg with
    | some c => .next (s.shiftBit c sdi)
    | none => .refused .serialUnconfigured

/-- `SER_GLITCH`, enabled when `BUSY = 0` (42_serial.md R120; log entry 13): `SERF <- 1`. -/
def execSerGlitch (s : State) : Result :=
  whenEnabled (!s.busy) s fun s => .next { s with serf := true }

/-- Bits `k` to 7 of `BB_XMIT(b)`, `todo` of them: data, clock up, clock down (42_serial.md R121). -/
def State.bbBits (s : State) (order : BitOrder) (b : Byte) (k : Nat) : Nat → State
  | 0 => s
  | todo + 1 =>
    (((s.driveSdo (sendBit order b k)).driveSck true).driveSck false).bbBits order b (k + 1) todo

/-- `if SCK != 0: SCK <- 0` (42_serial.md R121, 43_system.md R140). -/
def State.sckToIdle (s : State) : State := if s.sck then s.driveSck false else s

/-- `BB_XMIT(b)` (42_serial.md R121). -/
def State.bbXmit (s : State) (b : Byte) : State := s.sckToIdle.bbBits s.cfg.dispOrder b 0 8

end Sys2Proof.Machine
end

