-- ==== Sys2Proof/Machine/Multiplexer.lean ====
section
/-!
DEFINITION. The Display Multiplexer: the tick handler's body in its two variants, the completion continuation,
the dispatch through `HANDLER`, and the two interrupt events (41_multiplexer.md R90 to R95, 60_exceptions.md
R157, R158, 42_serial.md R119).
-/

namespace Sys2Proof.Machine

/-- Step 4 of the transition: deassert the previous digit's line unless `PREV = NONE` (41_multiplexer.md R90). -/
def State.deassertPrev (s : State) : State :=
  match s.prev with
  | none => s
  | some p => s.enDeassert p

/-- Step 5 of the transition: `PREV <- CUR; CUR <- (CUR + 1) mod 4` (41_multiplexer.md R90). -/
def State.advance (s : State) : State := { s with prev := some s.cur, cur := s.cur + 1 }

/-- The end of step 3, then steps 4 and 5: latch the sent byte, assert the new digit's line, deassert the
previous one, advance (41_multiplexer.md R91, R95). -/
def State.presentDigit (s : State) : State := (s.latchPulse.enAssert s.cur).deassertPrev.advance

/-- `TickBody_SYNC` (41_multiplexer.md R91). -/
def State.tickBodySync (s : State) : State :=
  if s.busy then s.raiseMuxOverrun
  else match s.pat s.cur with
    | none => s.deassertPrev.advance
    | some p => (s.bbXmit p).presentDigit

/-- `TickBody_ASYNC` (41_multiplexer.md R94): for a valid slot all that follows the transfer is left to `MuxDone`. -/
def State.tickBodyAsync (s : State) : State :=
  if s.busy || s.muxpend then s.raiseMuxOverrun
  else match s.pat s.cur with
    | none => s.deassertPrev.advance
    | some p => ({ s with handler := .mux, muxpend := true } : State).serStart p .irq

/-- The body of the tick handler (60_exceptions.md R157). -/
def State.tickBody (s : State) : State :=
  match s.cfg.variant with
  | .sync => s.tickBodySync
  | .async => s.tickBodyAsync

/-- `MuxDone` (41_multiplexer.md R95): acts only when `MUXPEND = 1`. -/
def State.muxDone (s : State) : State :=
  if s.muxpend then ({ s with muxpend := false } : State).presentDigit else s

/-- `Dispatch`: the target is read at delivery time and is not cleared (42_serial.md R119). -/
def State.dispatch (s : State) : State :=
  match s.handler with
  | .none => s
  | .mux => s.muxDone
  | .host => s.emit .notifyHost

/-- `IRQ_TICK` (60_exceptions.md R157). -/
def execIrqTick (s : State) : Result := takeInterrupt .tick State.tickBody s

/-- `IRQ_SER` (60_exceptions.md R158). -/
def execIrqSer (s : State) : Result := takeInterrupt .ser State.dispatch s

end Sys2Proof.Machine
end

