-- ==== Sys2Proof/Machine/System.lean ====
section
/-!
DEFINITION. Initialisation, the interrupt enable, the foreground's micro-steps, the timer's events and reset
(43_system.md R140 to R144, 60_exceptions.md R155, R156, 70_reset_and_hazards.md R180).
-/

namespace Sys2Proof.Machine

/-- The first `DISP_INIT` starts the timer with cleared counters (43_system.md R140). -/
def State.startTimer (s : State) : State := { s with tickEn := true, pre := 0, tcnt := 0 }

/-- In the `ASYNC` variant `DISP_INIT` configures the serial unit for the display (43_system.md R140). -/
def State.configureDisplay (s : State) : State :=
  match s.cfg.variant with
  | .sync => s
  | .async => ({ s with sercfg := some ⟨.controller, s.cfg.dispOrder, false, false⟩ } : State).sckToIdle

/-- `DISP_INIT` (43_system.md R140); a repeat changes no state (R141). -/
def execDispInit (s : State) : Result :=
  acceptCommand s fun s =>
    if s.tickEn then .next (s.respond .ok 0x00)
    else if s.cfg.variant == .async && s.busy then raiseError .serialBusy s
    else .next (s.startTimer.configureDisplay.respond .ok 0x00)

/-- `INT_ENABLE` (43_system.md R142). -/
def execIntEnable (s : State) : Result :=
  acceptCommand s fun s => .next (({ s with ie := true } : State).respond .ok 0x00)

/-- `INT_DISABLE` (43_system.md R143). -/
def execIntDisable (s : State) : Result :=
  acceptCommand s fun s => .next (({ s with ie := false } : State).respond .ok 0x00)

/-- `FG_STEP`, enabled when `FG != IDLE`, also when `HALT = 1` (43_system.md R144). -/
def execFgStep (s : State) : Result :=
  match s.fg with
  | .idle => .refused .eventNotEnabled
  | .writing i b rest saved => .next (s.storeStep i b rest saved)
  | .spin saved n => if s.done then .next (s.spinEnd saved) else .next (s.spinPoll saved n)

/-- An event of the tick source `src` is a step when `TICK_EN = 1` and the model takes its ticks from `src`: "A model uses
either `TMR_TICK` as a free event or `CLK` events that produce ticks, never both" (30_encoding.md R68; log entry 12). -/
def State.ticksFrom (s : State) (src : TickSource) : Bool := s.tickEn && s.cfg.tickSource == src

/-- `TMR_TICK`, enabled when `TICK_EN = 1`, in a model with free ticks (60_exceptions.md R155). -/
def execTmrTick (s : State) : Result := whenEnabled (s.ticksFrom .event) s fun s => .next s.timerFires

/-- One system clock of the timer (60_exceptions.md R156): the prescaler divides by 64, and `TMR_TICK` is performed
when the second counter wraps. -/
def State.clockTimer (s : State) : State :=
  let s1 : State := { s with pre := s.pre + 1 }
  if s1.pre = 0 then
    let s2 : State := { s1 with tcnt := (s.tcnt + 1) % s.cfg.timerPeriod }
    if s2.tcnt = 0 then s2.timerFires else s2
  else s1

/-- `CLK`, enabled when `TICK_EN = 1`, in a model with clocks (60_exceptions.md R156). -/
def execClk (s : State) : Result := whenEnabled (s.ticksFrom .clock) s fun s => .next s.clockTimer

/-- The state after a `RESET` event (10_state.md R26): the registers the spec leaves unspecified take free values
(log entry 5); the configuration, the inputs to come and the outputs already given are not state of
the block and stay (log entry 8). -/
def State.afterReset (s : State) : State :=
  { State.reset with
    cfg := s.cfg
    trace := s.trace
    out := s.out
    draws := s.draws + 5
    txsr := Config.freeByte s.draws
    rxsr := Config.freeByte (s.draws + 1)
    rxb := Config.freeByte (s.draws + 2)
    srs := Config.freeByte (s.draws + 3)
    seg := Config.freeByte (s.draws + 4) }

/-- `RESET`, enabled in every state (70_reset_and_hazards.md R180). -/
def execReset (s : State) : Result := .next s.afterReset

end Sys2Proof.Machine
end

