-- ==== Sys2Proof/Machine/Dispatch.lean ====
section
/-! DEFINITION. The meaning of every operation: one arm per constructor of `Instr`. -/

namespace Sys2Proof.Machine

def exec (i : Instr) (s : State) : Host.Outcome State Fault Refusal :=
  match i with
  -- host commands (30_encoding.md R64)
  | .dispInit => Sys2Proof.Machine.execDispInit s
  | .patWrite slot b => Sys2Proof.Machine.execPatWrite slot b s
  | .dispValue decimals scaled => Sys2Proof.Machine.execDispValue decimals scaled s
  | .serConfig role order cpol cpha => Sys2Proof.Machine.execSerConfig role order cpol cpha s
  | .serXmitBw b => Sys2Proof.Machine.execSerXmitBw b s
  | .serXmitIrq b => Sys2Proof.Machine.execSerXmitIrq b s
  | .serSetHandler h => Sys2Proof.Machine.execSerSetHandler h s
  | .intEnable => Sys2Proof.Machine.execIntEnable s
  | .intDisable => Sys2Proof.Machine.execIntDisable s
  -- events (30_encoding.md R68)
  | .reset => Sys2Proof.Machine.execReset s
  | .tmrTick => Sys2Proof.Machine.execTmrTick s
  | .irqTick => Sys2Proof.Machine.execIrqTick s
  | .serStep sdi => Sys2Proof.Machine.execSerStep sdi s
  | .irqSer => Sys2Proof.Machine.execIrqSer s
  | .serGlitch => Sys2Proof.Machine.execSerGlitch s
  | .clk => Sys2Proof.Machine.execClk s
  | .fgStep => Sys2Proof.Machine.execFgStep s

end Sys2Proof.Machine
end

