-- ==== Sys2Proof/WellFormed.lean ====
section
/-!
DEFINITION. Which operations have a legal encoding. The types bound every operand but two: the handler id 3
of `SER_SET_HANDLER` matches the format's mask and is reserved (30_encoding.md R63, R65; log entry 22), and the
scaled value of `DISP_VALUE` has `SCALED_WIDTH` bits (R63; log entry 16).
-/

namespace Sys2Proof

/-- The checks on an operation's operands, for a model with `SCALED_WIDTH = width` (30_encoding.md R63, R65). -/
def WellFormed (width : Nat) : Instr → Bool
  | .dispValue _ scaled => decide (scaled < 2 ^ width)
  | .serSetHandler h => h != 3
  | .dispInit | .patWrite .. | .serConfig .. | .serXmitBw _ | .serXmitIrq _
  | .intEnable | .intDisable => true
  | .reset | .tmrTick | .irqTick | .serStep _ | .irqSer | .serGlitch | .clk | .fgStep => true

end Sys2Proof
end

