-- ==== Sys2Proof/Decode.lean ====
section
/-!
DEFINITION. The decoder, total on every word and rejecting by name (30_encoding.md R61 to R65, R68), and the
encoder, written from the same formats. The opcode table's match and mask columns (R64) stand beside
them as `Row`.
-/

namespace Sys2Proof

/-- Why a word is no operation. -/
inductive DecodeError where
  /-- `op` is 0x0 or 0xA..0xF (30_encoding.md R65) -/
  | reservedOpcode
  /-- a bit the command's format shows as `0` is 1 (R65) -/
  | nonzeroReservedBits
  /-- `SER_SET_HANDLER` with `h = 3` (R65) -/
  | reservedHandler
  /-- the event code is 0x0 or 0x9..0xF (R68) -/
  | reservedEventCode
  /-- an argument bit of the event word that must be 0 is 1 (R68) -/
  | nonzeroEventArgument
  deriving DecidableEq, Repr

/-- What the decoder answers. -/
abbrev Decoded := Except DecodeError Instr

/-! ### Fields of a command word (30_encoding.md R61, R63) -/

/-- `op = CW[23:20]`. -/
def opField (w : CommandWord) : BitVec 4 := w.extractLsb' 20 4
/-- `a = CW[19:16]`. -/
def aField (w : CommandWord) : BitVec 4 := w.extractLsb' 16 4
/-- `d = CW[15:0]`. -/
def dField (w : CommandWord) : BitVec 16 := w.extractLsb' 0 16

/-- `i = CW[17:16]`. -/
def slotField (a : BitVec 4) : Slot := a.extractLsb' 0 2
/-- `decimals = CW[18:16]`. -/
def decimalsField (a : BitVec 4) : BitVec 3 := a.extractLsb' 0 3
/-- `b = CW[7:0]`. -/
def byteField (d : BitVec 16) : Byte := d.extractLsb' 0 8
/-- `scaled`: the 16 bits of `d` that are numbered, with the further ones above them (30_encoding.md R63). -/
def scaledField (d : BitVec 16) (high : Nat) : Nat := high * 2 ^ 16 + d.toNat
/-- `h = CW[1:0]`. -/
def handlerField (d : BitVec 16) : BitVec 2 := d.extractLsb' 0 2
/-- `ROLE = CW[3]`, 1 controller (10_state.md R19). -/
def roleField (d : BitVec 16) : Role := if d.getLsbD 3 then .controller else .peripheral
/-- `ORDER = CW[2]`, 1 LSB-first (10_state.md R19). -/
def orderField (d : BitVec 16) : BitOrder := if d.getLsbD 2 then .lsb else .msb

/-- The bits a format shows as `0` are 0 (30_encoding.md R62); then `i`. -/
def whenZero (reservedAreZero : Bool) (i : Instr) : Decoded :=
  if reservedAreZero then .ok i else .error .nonzeroReservedBits

/-- Format H with the handler id 3 is reserved (30_encoding.md R65). -/
def handlerCommand (h : BitVec 2) : Decoded :=
  if h = 3 then .error .reservedHandler else .ok (.serSetHandler h)

/-- The operation of a command word's fields in a model with `SCALED_WIDTH = width`: by `op`, with the format's zero
bits checked (30_encoding.md R62, R64, R65). Bits of `d` above bit 15 are zero bits of every format but V, and in V
the bits from `SCALED_WIDTH` on are (R63; log entry 16). -/
def decodeFields (width : Nat) (op a : BitVec 4) (d : BitVec 16) (high : Nat) : Decoded :=
  match op.toNat with
  | 1 => whenZero (a == 0 && d == 0 && high == 0) .dispInit
  | 2 => whenZero (a.extractLsb' 2 2 == 0 && d.extractLsb' 8 8 == 0 && high == 0)
      (.patWrite (slotField a) (byteField d))
  | 3 => whenZero (a.extractLsb' 3 1 == 0 && decide (scaledField d high < 2 ^ width))
      (.dispValue (decimalsField a) (scaledField d high))
  | 4 => whenZero (a == 0 && d.extractLsb' 4 12 == 0 && high == 0)
      (.serConfig (roleField d) (orderField d) (d.getLsbD 1) (d.getLsbD 0))
  | 5 => whenZero (a == 0 && d.extractLsb' 8 8 == 0 && high == 0) (.serXmitBw (byteField d))
  | 6 => whenZero (a == 0 && d.extractLsb' 8 8 == 0 && high == 0) (.serXmitIrq (byteField d))
  | 7 => if a == 0 && d.extractLsb' 2 14 == 0 && high == 0 then handlerCommand (handlerField d)
         else .error .nonzeroReservedBits
  | 8 => whenZero (a == 0 && d == 0 && high == 0) .intEnable
  | 9 => whenZero (a == 0 && d == 0 && high == 0) .intDisable
  | _ => .error .reservedOpcode

/-- A command word is one of the nine operations or illegal (30_encoding.md R64, R65). -/
def decodeCommand (width : Nat) (w : CommandWord) (high : Nat) : Decoded :=
  decodeFields width (opField w) (aField w) (dField w) high

/-- An event without an argument: `EW[3:0]` is 0 (30_encoding.md R68). -/
def whenNoArgument (w : EventWord) (i : Instr) : Decoded :=
  if w.extractLsb' 0 4 = 0 then .ok i else .error .nonzeroEventArgument

/-- An event word names one of the eight events or is not an event (30_encoding.md R68). -/
def decodeEvent (w : EventWord) : Decoded :=
  match (w.extractLsb' 4 4).toNat with
  | 1 => whenNoArgument w .reset
  | 2 => whenNoArgument w .tmrTick
  | 3 => whenNoArgument w .irqTick
  | 4 => if w.extractLsb' 1 3 = 0 then .ok (.serStep (w.getLsbD 0)) else .error .nonzeroEventArgument
  | 5 => whenNoArgument w .irqSer
  | 6 => whenNoArgument w .serGlitch
  | 7 => whenNoArgument w .clk
  | 8 => whenNoArgument w .fgStep
  | _ => .error .reservedEventCode

/-- Decoding a word of the input trace in a model with `SCALED_WIDTH = width` (30_encoding.md R60). -/
def decode (width : Nat) : PortWord → Decoded
  | .command w high => decodeCommand width w high
  | .event w => decodeEvent w

/-! ### The encoder (30_encoding.md R62, R64, R68) -/

/-- `{op, a, d}` (30_encoding.md R61). -/
def commandWord (op a : BitVec 4) (d : BitVec 16) : CommandWord := op ++ (a ++ d)

/-- `{code, arg}` (30_encoding.md R68). -/
def eventWord (code arg : BitVec 4) : EventWord := code ++ arg

/-- `ROLE` as a bit (10_state.md R19). -/
def roleBit : Role → Bool
  | .controller => true
  | .peripheral => false

/-- `ORDER` as a bit (10_state.md R19). -/
def orderBit : BitOrder → Bool
  | .msb => false
  | .lsb => true

/-- The `d` operand of format C: `000000000000rqlp` (30_encoding.md R62). -/
def serConfigBits (role : Role) (order : BitOrder) (cpol cpha : Bool) : BitVec 16 :=
  0#12 ++ (BitVec.ofBool (roleBit role) ++ (BitVec.ofBool (orderBit order) ++
    (BitVec.ofBool cpol ++ BitVec.ofBool cpha)))

/-- The word of an operation. -/
def encode : Instr → PortWord
  | .dispInit => .command (commandWord 1 0 0)
  | .patWrite i b => .command (commandWord 2 (0#2 ++ i) (0#8 ++ b))
  | .dispValue n s => .command (commandWord 3 (0#1 ++ n) (BitVec.ofNat 16 s)) (s / 2 ^ 16)
  | .serConfig r q l p => .command (commandWord 4 0 (serConfigBits r q l p))
  | .serXmitBw b => .command (commandWord 5 0 (0#8 ++ b))
  | .serXmitIrq b => .command (commandWord 6 0 (0#8 ++ b))
  | .serSetHandler h => .command (commandWord 7 0 (0#14 ++ h))
  | .intEnable => .command (commandWord 8 0 0)
  | .intDisable => .command (commandWord 9 0 0)
  | .reset => .event (eventWord 1 0)
  | .tmrTick => .event (eventWord 2 0)
  | .irqTick => .event (eventWord 3 0)
  | .serStep s => .event (eventWord 4 (0#3 ++ BitVec.ofBool s))
  | .irqSer => .event (eventWord 5 0)
  | .serGlitch => .event (eventWord 6 0)
  | .clk => .event (eventWord 7 0)
  | .fgStep => .event (eventWord 8 0)

/-! ### The opcode table's rows (30_encoding.md R64, R68) -/

/-- Whether word `w` fits the table row of `i`'s mnemonic: `w & mask = match`, where the mask of every row but that
of `DISP_VALUE` holds the bits above the 24 numbered ones, and `scaled` has `SCALED_WIDTH = width` bits. -/
def fitsRow (width : Nat) : Instr → PortWord → Prop
  | .dispInit, .command w high => w &&& 0xFFFFFF = 0x100000 ∧ high = 0
  | .patWrite .., .command w high => w &&& 0xFCFF00 = 0x200000 ∧ high = 0
  | .dispValue .., .command w high => w &&& 0xF80000 = 0x300000 ∧ high * 2 ^ 16 + (w &&& 0xFFFF).toNat < 2 ^ width
  | .serConfig .., .command w high => w &&& 0xFFFFF0 = 0x400000 ∧ high = 0
  | .serXmitBw _, .command w high => w &&& 0xFFFF00 = 0x500000 ∧ high = 0
  | .serXmitIrq _, .command w high => w &&& 0xFFFF00 = 0x600000 ∧ high = 0
  | .serSetHandler _, .command w high => w &&& 0xFFFFFC = 0x700000 ∧ high = 0
  | .intEnable, .command w high => w &&& 0xFFFFFF = 0x800000 ∧ high = 0
  | .intDisable, .command w high => w &&& 0xFFFFFF = 0x900000 ∧ high = 0
  | .reset, .event w => w &&& 0xFF = 0x10
  | .tmrTick, .event w => w &&& 0xFF = 0x20
  | .irqTick, .event w => w &&& 0xFF = 0x30
  | .serStep _, .event w => w &&& 0xFE = 0x40
  | .irqSer, .event w => w &&& 0xFF = 0x50
  | .serGlitch, .event w => w &&& 0xFF = 0x60
  | .clk, .event w => w &&& 0xFF = 0x70
  | .fgStep, .event w => w &&& 0xFF = 0x80
  | _, _ => False

/-! ### The table's numbering of a word -/

/-- The port word whose bits are `w`, as spec/opcode_table.json numbers them (log entry 23): a row of at most
8 bits is an event word, a longer one a command word. -/
def tableWord (nbits w : Nat) : PortWord :=
  if nbits ≤ 8 then .event (BitVec.ofNat 8 w) else .command (BitVec.ofNat 24 w)

/-- The instruction the decoder reads from a table word, in the model of the opcode table, whose `SCALED_WIDTH` is
16. -/
def decodeTableWord (nbits w : Nat) : Option Instr :=
  match decode 16 (tableWord nbits w) with
  | .ok i => some i
  | .error _ => none

end Sys2Proof
end

