-- ==== Sys2Proof/Machine/Fetch.lean ====
section
/-!
DEFINITION. How a word of the input trace becomes the next step: taking it from the trace, placing one there,
and what a word that decodes to no operation does (log entries 1, 9, 10).
-/

namespace Sys2Proof.Machine

/-- The next word of the trace, and the state with that word taken. -/
def State.takeWord (s : State) : Option (PortWord × State) :=
  match s.trace with
  | [] => none
  | w :: rest => some (w, { s with trace := rest })

/-- The state with `w` as the next word of the trace. -/
def State.pushWord (s : State) (w : PortWord) : State := { s with trace := w :: s.trace }

/-- A word that is no operation: an illegal command word is answered (30_encoding.md R65), a reserved event word
is not a step (R68). -/
def rejectWord (w : PortWord) (s : State) : Result :=
  match w with
  | .command .. => illegalCommand s
  | .event _ => .refused .notAnEvent

end Sys2Proof.Machine
end

