-- ==== Sys2Proof/Machine/Step.lean ====
section
/-! DEFINITION. One step of DMUX: the next command or event word of the input trace is taken, decoded and run. -/

namespace Sys2Proof.Machine

/-- One step (00_scope.md R8): "one host command accepted, or one event". -/
def step (s : State) : Host.Outcome State Fault Refusal :=
  match s.takeWord with
  | none => .refused .noWord
  | some (w, s') =>
    match decode s.cfg.scaledWidth w with
    | .ok i => exec i s'
    | .error _ => rejectWord w s'

/-- `s` with the table word `w` presented as the very next input (log entry 1). -/
def State.withFetchWord (s : State) (nbits w : Nat) : State := s.pushWord (tableWord nbits w)

end Sys2Proof.Machine
end

