-- ==== Sys2Proof/Safety.lean ====
section
/-!
DEFINITION. The terms claims about DMUX use: when an operation is enabled (30_encoding.md R68, R67), the
invariant of the states that occur (10_state.md R27 and what follows from the rules), safe states
(60_exceptions.md R172), runs, and the premises of 70_reset_and_hazards.md R183, R184 and of fairness.
-/

namespace Sys2Proof.Machine

/-- The enabling conditions: the table of 30_encoding.md R68 for events, where `TMR_TICK` and `CLK` are also bound by R68's
"never both" (`State.ticksFrom`; log entry 12), and `FG = IDLE` for a command (R67). -/
def State.enabled (s : State) : Instr → Bool
  | .dispInit | .patWrite .. | .dispValue .. | .serConfig .. | .serXmitBw _ | .serXmitIrq _
  | .serSetHandler _ | .intEnable | .intDisable => s.fg == .idle
  | .reset => true
  | .tmrTick => s.ticksFrom .event
  | .irqTick => s.ie && s.tickf && !s.halt
  | .serStep _ => s.busy
  | .irqSer => s.ie && s.serf && !s.halt
  | .serGlitch => !s.busy
  | .clk => s.ticksFrom .clock
  | .fgStep => s.fg != .idle

/-- "no fault flag set" (60_exceptions.md R172). -/
def State.faultFree (s : State) : Bool :=
  !s.fltTickLost && !s.fltMuxOvr && !s.fltTimeout && !s.halt

/-- The slots whose stores a `DISP_VALUE` still has to make run up to slot 3 in ascending order
(40_encoder.md R82). -/
def Fg.ascending : Fg → Bool
  | .idle => true
  | .writing i _ rest _ => i :: rest.map Prod.fst == [0#2, 1#2, 2#2, 3#2].drop i.toNat
  | .spin .. => true

/-- What holds in every state that a run reaches. -/
structure Inv (s : State) : Prop where
  /-- the pattern memory keeps its canonical form -/
  memWf : Memory.wf s.mem = true
  /-- 10_state.md R27 (a) -/
  prevBehind : s.prev = none ∨ s.prev = some (s.cur + 3)
  /-- 10_state.md R27 (b): at most one digit-enable line is high, and it is `EN[PREV]` -/
  oneDigit : s.en = 0 ∨ ∃ p, s.prev = some p ∧ s.en = enMask p
  /-- 10_state.md R27 (c) -/
  muxAsync : s.muxpend = true → s.cfg.variant = .async
  /-- 10_state.md R27 (d) -/
  idleCount : s.busy = false → s.bitcnt = 0
  /-- a transfer in flight has a configuration (42_serial.md R111) -/
  busyConfigured : s.busy = true → s.sercfg.isSome = true
  /-- the display's serial unit is configured (41_multiplexer.md R94) -/
  displayConfigured : s.tickEn = true → s.cfg.variant = .async → s.sercfg.isSome = true
  /-- no tick is pending before `DISP_INIT` -/
  tickStarted : s.tickf = true → s.tickEn = true
  /-- the busy-wait holds interrupts off (20_memory.md R48) and its transfer is in flight or done -/
  spinSection : ∀ saved n, s.fg = .spin saved n →
    s.ie = false ∧ s.xmode = .bw ∧ (s.busy = true ∨ s.done = true)
  /-- an atomic update holds interrupts off (20_memory.md R48) -/
  atomicSection : ∀ i b rest saved, s.fg = .writing i b rest saved → s.cfg.atomicUpdate = true →
    s.ie = false
  /-- the stores still to make -/
  writesAscend : s.fg.ascending = true
  /-- the latch line is low between steps (41_multiplexer.md R92) -/
  latchLow : s.latch = false
  /-- 10_state.md R18 -/
  tcntBound : s.tcnt < s.cfg.timerPeriod
  /-- `HALT` is set by `MuxOverrun` and `HardwareTimeout` (60_exceptions.md R154) and by nothing else -/
  haltReason : s.halt = (s.fltMuxOvr || s.fltTimeout)

/-! ### Expected outputs -/

/-- The eight bits of a byte in sending order (30_encoding.md R70). -/
def bitsOut (order : BitOrder) (b : Byte) : List Bool := (List.range 8).map (sendBit order b)

/-- One bit of the bit-banged transmitter in the line trace (42_serial.md R121). -/
def bitBangPulse (bit : Bool) : List Output := [.out .sdo bit, .out .sck true, .out .sck false]

/-- The line trace of a bit-banged byte (42_serial.md R121), from an idle clock. -/
def bitBangOut (order : BitOrder) (b : Byte) : List Output := (bitsOut order b).flatMap bitBangPulse

/-- A clock change in the line trace: driven by a controller, coming in for a peripheral (42_serial.md R112, R122). -/
def clockOut (c : SerCfg) (v : Bool) : Output :=
  match c.role with
  | .controller => .out .sck v
  | .peripheral => .inSck v

/-- The line trace of one bit of the serial unit (42_serial.md R112, R122). -/
def bitTraceOut (c : SerCfg) (bit : Bool) : List Output :=
  if c.cpha then [clockOut c (!c.cpol), .out .sdo bit, clockOut c c.cpol]
  else [.out .sdo bit, clockOut c (!c.cpol), clockOut c c.cpol]

/-- The received byte made of samples in their order of arrival (42_serial.md R117): the first sample ends in bit 7
MSB-first and in bit 0 LSB-first. -/
def assembled (order : BitOrder) (samples : List Bool) : Byte := samples.foldl (rxAfter order) 0x00

/-- The line trace of steps 4 (41_multiplexer.md R91, R95). -/
def deassertOut : Option Slot → List Output
  | none => []
  | some q => [.out (.en q) false]

/-- The latch pulse and the assertion of the new digit's line in the line trace (41_multiplexer.md R91, R95). -/
def presentOut (i : Slot) : List Output := [.out .latch true, .out .latch false, .out (.en i) true]

/-- `EN` after step 4 of the transition (41_multiplexer.md R90). -/
def enWithout (en : BitVec 4) : Option Slot → BitVec 4
  | none => en
  | some q => en &&& ~~~ enMask q

/-- The responses among outputs (30_encoding.md R66). -/
def responses (os : List Output) : List ResponseWord :=
  os.filterMap fun o => match o with
    | .response rw => some rw
    | .out .. => none
    | .inSck _ => none
    | .notifyHost => none

/-! ### Illegal command words and the values after reset, written out from the spec's tables -/

/-- The command words of 30_encoding.md R65, in a model with `SCALED_WIDTH = width`: a reserved `op`, a bit set that the
format of R62 shows as `0`, or `SER_SET_HANDLER` with `h = 3`. `high` is what the bits of `d` above bit 15 make
(R63; log entry 16). -/
def IllegalWord (width : Nat) (w : CommandWord) (high : Nat) : Prop :=
  opField w = 0x0 ∨ 0xA ≤ (opField w).toNat
  -- format Z
  ∨ ((opField w = 0x1 ∨ opField w = 0x8 ∨ opField w = 0x9) ∧ ¬ (aField w = 0 ∧ dField w = 0))
  -- format P
  ∨ (opField w = 0x2 ∧ ¬ ((aField w).extractLsb' 2 2 = 0 ∧ (dField w).extractLsb' 8 8 = 0))
  -- format V
  ∨ (opField w = 0x3 ∧ (aField w).extractLsb' 3 1 ≠ 0)
  -- format C
  ∨ (opField w = 0x4 ∧ ¬ (aField w = 0 ∧ (dField w).extractLsb' 4 12 = 0))
  -- format B
  ∨ ((opField w = 0x5 ∨ opField w = 0x6) ∧ ¬ (aField w = 0 ∧ (dField w).extractLsb' 8 8 = 0))
  -- format H
  ∨ (opField w = 0x7 ∧ ¬ (aField w = 0 ∧ (dField w).extractLsb' 2 14 = 0))
  -- `h = 3`
  ∨ (opField w = 0x7 ∧ (dField w).extractLsb' 0 2 = 3)
  -- the bits of `d` above bit 15, and those of `scaled` from `SCALED_WIDTH` on
  ∨ (opField w ≠ 0x3 ∧ high ≠ 0)
  ∨ (opField w = 0x3 ∧ 2 ^ width ≤ high * 2 ^ 16 + (dField w).toNat)

/-- The table of 10_state.md R26, for the elements it gives a value. -/
structure ResetValues (s : State) : Prop where
  pat : ∀ i, s.pat i = none
  cur : s.cur = 0
  prev : s.prev = none
  muxpend : s.muxpend = false
  en : s.en = 0b0000
  sck : s.sck = false
  sdo : s.sdo = false
  latch : s.latch = false
  ie : s.ie = false
  tickf : s.tickf = false
  serf : s.serf = false
  tickEn : s.tickEn = false
  pre : s.pre = 0
  tcnt : s.tcnt = 0
  sercfg : s.sercfg = none
  bitcnt : s.bitcnt = 0
  busy : s.busy = false
  done : s.done = false
  xmode : s.xmode = .bw
  handler : s.handler = .none
  fg : s.fg = .idle
  fltTickLost : s.fltTickLost = false
  fltMuxOvr : s.fltMuxOvr = false
  fltTimeout : s.fltTimeout = false
  halt : s.halt = false

/-! ### Finite runs: sequences of operations from a state (70_reset_and_hazards.md R193) -/

/-- The operations of the list, one after the other, each a step. -/
def runAll : List Instr → State → Result
  | [], s => .next s
  | i :: is, s =>
    match exec i s with
    | .next t => runAll is t
    | .fault r => .fault r
    | .refused r => .refused r

/-- "between two `TMR_TICK` events there is an `IRQ_TICK`" (70_reset_and_hazards.md R183); `waiting` says that a
tick has fired that is not yet serviced. -/
def ticksServed (waiting : Bool) : List Instr → Bool
  | [] => true
  | .tmrTick :: is => !waiting && ticksServed true is
  | .irqTick :: is => ticksServed false is
  | .reset :: is => ticksServed false is
  | _ :: is => ticksServed waiting is

/-- "A model uses either `TMR_TICK` as a free event or `CLK` events that produce ticks, never both" (30_encoding.md R68,
60_exceptions.md R156; log entry 12). -/
def oneTickSource (is : List Instr) : Bool := !is.contains .tmrTick || !is.contains .clk

/-- The `IRQ_TICK` taken in `s` starts a display transfer (41_multiplexer.md R94). -/
def State.startsTransfer (s : State) : Bool :=
  s.cfg.variant == .async && !s.busy && !s.muxpend && (s.pat s.cur).isSome

/-- "between an `IRQ_TICK` that starts a transfer and the next `IRQ_TICK` there are eight `SER_STEP`s and an
`IRQ_SER`" (70_reset_and_hazards.md R184): `owed` is the number of `SER_STEP`s still owed by the transfer whose
`IRQ_SER` has not come, and the run is followed from `s`. -/
def transfersFinish (owed : Option Nat) (s : State) : List Instr → Bool
  | [] => true
  | i :: is =>
    match exec i s with
    | .next t =>
      match i with
      | .irqTick => owed.isNone && transfersFinish (if s.startsTransfer then some 8 else none) t is
      | .serStep _ => transfersFinish (owed.map (· - 1)) t is
      | .irqSer => transfersFinish (if owed = some 0 then none else owed) t is
      | .reset => transfersFinish none t is
      | _ => transfersFinish owed t is
    | .fault _ => true
    | .refused _ => true

/-! ### Infinite runs and fairness (42_serial.md R117, 43_system.md R144; log entry 15) -/

/-- The states `r` and the operations `i` of an infinite run. -/
def IsRun (r : Nat → State) (i : Nat → Instr) : Prop := ∀ n, exec (i n) (r n) = .next (r (n + 1))

/-- The unit makes its steps by itself in state `s`: a transfer in controller role (42_serial.md R117). -/
def State.shiftsByItself (s : State) : Bool :=
  s.busy && match s.sercfg with
    | none => false
    | some c => c.role == .controller

/-- Weak fairness of the serial unit unless `SER_MAY_STALL` (42_serial.md R117). -/
def SerialFair (r : Nat → State) (i : Nat → Instr) : Prop :=
  (r 0).cfg.serMayStall = false →
    ∀ n, (∀ m, n ≤ m → (r m).shiftsByItself = true) → ∃ m, n ≤ m ∧ ∃ sdi, i m = .serStep sdi

/-- Weak fairness of the foreground inside a command (43_system.md R144). -/
def ForegroundFair (r : Nat → State) (i : Nat → Instr) : Prop :=
  ∀ n, (∀ m, n ≤ m → (r m).fg ≠ .idle) → ∃ m, n ≤ m ∧ i m = .fgStep

/-! ### The recommended refresh rate (60_exceptions.md R164) -/

/-- A tick fires every this many system clocks (60_exceptions.md R156). -/
def clocksPerTick (c : Config) : Nat := 64 * c.timerPeriod

/-- "a tick rate of at least 240 per second" (60_exceptions.md R164): a recommendation on the deployment. -/
def refreshRecommended (c : Config) : Bool := decide (240 * clocksPerTick c ≤ c.fSys)

end Sys2Proof.Machine
end

