-- ==== Sys2Proof/Certificates/Slice0/Obligations.lean ====
section
/-!
DEFINITION. The statements about DMUX, from the numbered rules of spec/. A next state is written as an
update of the state before, so that each such statement is also the operation's frame.
-/

open Sys2Proof Sys2Proof.Machine

/-! ### Encoding and the step -/

/-- 30_encoding.md sections 2 to 7: the word of every well-formed operation, with every operand at every value,
decodes to that operation, at every `SCALED_WIDTH` (that the bits of `d` above bit 15 are held apart is log entry 16). -/
def Obligations.DecodeEncodeRoundTrip : Prop :=
  ∀ (width : Nat) (i : Instr), WellFormed width i = true → decode width (encode i) = .ok i

/-- 30_encoding.md sections 2 to 7: a word that decodes is the word of the operation it decodes to, and that
operation is well formed, so each word has one meaning, at every `SCALED_WIDTH` (log entry 16). -/
def Obligations.EncodeDecodeRoundTrip : Prop :=
  ∀ (width : Nat) (w : PortWord) (i : Instr), decode width w = .ok i →
    encode i = w ∧ WellFormed width i = true

/-- 30_encoding.md R64: `w` is the operation of a row when `w & mask = match`, but for `SER_SET_HANDLER` with
`h = 3`, which matches and is reserved; the rows of the events (R68) likewise. The table's words are those with `SCALED_WIDTH`
16 and no bit above the 24 it numbers; `fitsRow` says the same of the other widths (log entry 16). -/
def Obligations.DecoderFollowsOpcodeTable : Prop :=
  (∀ (width : Nat) (w : PortWord) (i : Instr), decode width w = .ok i → fitsRow width i w) ∧
  (∀ (width : Nat) (w : PortWord) (i : Instr), fitsRow width i w → w ≠ .command 0x700003 →
    ∃ j, decode width w = .ok j ∧ j.mnemonic = i.mnemonic) ∧
  ∀ width, decode width (.command 0x700003) = .error .reservedHandler

/-- 30_encoding.md R65 and 60_exceptions.md R168: exactly the illegal words decode to no operation, and such a
word, when the foreground is ready, is answered 0x0300 with no state change; every other word is one of
the nine commands. The words of the spec's port are those with `width = 16` and `high = 0`; the other widths are log
entry 16. -/
def Obligations.IllegalCommandWordsAreAnswered : Prop :=
  ∀ (width : Nat) (w : CommandWord) (high : Nat),
    (IllegalWord width w high → (∃ e, decodeCommand width w high = .error e) ∧
      ∀ (s : State) (rest : List PortWord), s.cfg.scaledWidth = width → s.trace = .command w high :: rest →
        s.fg = .idle →
        step s = .next { s with trace := rest, out := s.out ++ [.response 0x0300] }) ∧
    (¬ IllegalWord width w high →
      ∃ i, decodeCommand width w high = .ok i ∧ i.isCommand = true ∧ WellFormed width i = true)

/-- Words written out from the formats of 30_encoding.md R62 and R68, with operands at unequal values. -/
def Obligations.FormatWordsDecode : Prop :=
  decode 16 (.command 0b001000100000000011011011) = .ok (.patWrite 2 0xDB) ∧
  decode 16 (.command 0b001100100000010011010010) = .ok (.dispValue 2 1234) ∧
  decode 16 (.command 0b010000000000000000001001) = .ok (.serConfig .controller .msb false true) ∧
  decode 16 (.command 0b010000000000000000000110) = .ok (.serConfig .peripheral .lsb true false) ∧
  decode 16 (.command 0b010100000000000010100101) = .ok (.serXmitBw 0xA5) ∧
  decode 16 (.command 0b011100000000000000000010) = .ok (.serSetHandler 2) ∧
  decode 16 (.event 0b01000001) = .ok (.serStep true) ∧
  decode 16 (.event 0b01010000) = .ok .irqSer

/-- 00_scope.md R8: a step takes the next word of the input trace, and when it decodes it is the meaning of that
operation at the state with the word taken; presenting a word makes it the very next step's (a word of the opcode table
needs a `SCALED_WIDTH` that holds its 16-bit operand; log entries 1 and 16). -/
def Obligations.StepRunsDecodedOperation : Prop :=
  (∀ (s : State) (w : PortWord) (rest : List PortWord) (i : Instr),
    s.trace = w :: rest → decode s.cfg.scaledWidth w = .ok i → step s = exec i { s with trace := rest }) ∧
  (∀ (s : State) (nbits w : Nat) (i : Instr),
    decodeTableWord nbits w = some i → 16 ≤ s.cfg.scaledWidth → step (s.withFetchWord nbits w) = exec i s)

/-- What is no step (log entries 1 and 9): no word at all, and an event word whose code is reserved or whose
argument is not one of its event (30_encoding.md section 7: "not events"). -/
def Obligations.WordsThatAreNoStep : Prop :=
  (∀ s : State, s.trace = [] → step s = .refused .noWord) ∧
  (∀ (s : State) (w : EventWord) (rest : List PortWord), s.trace = .event w :: rest →
    (w >>> 4 = 0 ∨ 9 ≤ w >>> 4 ∨ (w >>> 4 ≠ 4 ∧ w &&& 0x0F ≠ 0) ∨ w &&& 0x0E ≠ 0) →
    step s = .refused .notAnEvent)

/-- 30_encoding.md R67: with `FG = IDLE` decoding comes first, then `HALT`, then the operation's own checks in
the order its rule lists them; with `FG` not `IDLE` a command word is not accepted. -/
def Obligations.CommandCheckOrder : Prop :=
  ∀ (s : State) (w : CommandWord) (high : Nat) (rest : List PortWord), s.trace = .command w high :: rest →
    (s.fg = .idle →
      (IllegalWord s.cfg.scaledWidth w high →
        step s = .next { s with trace := rest, out := s.out ++ [.response 0x0300] }) ∧
      (¬ IllegalWord s.cfg.scaledWidth w high → s.halt = true →
        step s = .next { s with trace := rest, out := s.out ++ [.response 0x0600] }) ∧
      (s.halt = false → s.sercfg = none → s.busy = true →
          (∃ b, encode (.serXmitBw b) = .command w high ∨ encode (.serXmitIrq b) = .command w high) →
        step s = .next { s with trace := rest, out := s.out ++ [.response 0x0500] })) ∧
    (s.fg ≠ .idle → step s = .refused .foregroundBusy)

/-- 30_encoding.md R66: exactly one response is produced per accepted command, in the step that ends it, and
events other than the foreground's own micro-steps produce none. -/
def Obligations.OneResponsePerCommand : Prop :=
  ∀ (i : Instr) (s t : State), exec i s = .next t →
    ∃ new, t.out = s.out ++ new ∧
      (responses new).length =
        if (i.isCommand = true ∨ i = .fgStep) ∧ t.fg = .idle then 1 else 0

/-! ### The Digit Encoder and the pattern stores -/

/-- 40_encoder.md R80: `PAT_WRITE i, b` makes slot `i` hold `b`, whatever `b` is, leaves every other slot, answers
`OK` and changes nothing else. -/
def Obligations.PatWriteStoresOneSlot : Prop :=
  (∀ (s : State) (i : Slot) (b : Byte), s.fg = .idle → s.halt = false →
    ∃ t, exec (.patWrite i b) s = .next t ∧
      t = { s with mem := t.mem, out := s.out ++ [.response 0x0000] } ∧
      t.pat i = some b ∧ ∀ j, j ≠ i → t.pat j = s.pat j) ∧
  encode (.patWrite 2 0xDB) = .command 0x2200DB

/-- 40_encoder.md R81: each byte is the table's pattern of the decimal digit of its position, with the
decimal-point bit on slot `decimals` unless `decimals` is 0; so digits above the fourth do not matter, and
`decimals` 0 and 4 light no point. -/
def Obligations.EncodeShowsLowFourDigits : Prop :=
  ∀ (c : Config) (scaled decimals : Nat), decimals ≤ 4 →
    (∀ i : Fin 4, (encodeDigits c scaled decimals)[i] =
      segTable c (digit scaled i) ||| (if i.val = decimals ∧ decimals ≠ 0 then 0x01 else 0x00)) ∧
    encodeDigits c scaled decimals = encodeDigits c (scaled % 10000) decimals ∧
    encodeDigits c scaled 4 = encodeDigits c scaled 0 ∧
    encodeDigits c 1234 2 =
      #v[segTable c 4, segTable c 3, segTable c 2 ||| 0x01, segTable c 1]

/-- 40_encoder.md "Laws of the family" (R85, which the spec marks as derived): every byte is a table entry or
one with bit 0 set, and bit 0 is set on slot `decimals` when `decimals` is 1, 2 or 3 and nowhere else. -/
def Obligations.DecimalPointOnOneSlot : Prop :=
  ∀ (c : Config) (scaled decimals : Nat), decimals ≤ 4 → ∀ i : Fin 4,
    (∃ d : Fin 10, (encodeDigits c scaled decimals)[i] = segTable c d ∨
      (encodeDigits c scaled decimals)[i] = segTable c d ||| 0x01) ∧
    ((encodeDigits c scaled decimals)[i].getLsbD 0 = true ↔ (i.val = decimals ∧ decimals ≠ 0))

/-- 40_encoder.md R82: an accepted `DISP_VALUE` (under `CLAMP` with `decimals` taken as 4) changes only `FG` and,
when `ATOMIC_UPDATE`, `IE`; its four micro-steps leave the four encoded bytes in the slots, answer `OK` once
at the end, restore `IE`, and change nothing else; an argument above 4 under `REJECT` is answered 0x0100. -/
def Obligations.DispValueWritesFourSlots : Prop :=
  ∀ (s : State) (n : BitVec 3) (v : Nat), s.fg = .idle → s.halt = false →
    (∀ k : Nat, (k = n.toNat ∧ n.toNat ≤ 4 ∨ k = 4 ∧ 4 < n.toNat ∧ s.cfg.decimalsPolicy = .clamp) →
      exec (.dispValue n v) s = .next { s with
        ie := if s.cfg.atomicUpdate then false else s.ie
        fg := .writing 0 (encodeDigits s.cfg v k)[0]
          [(1, (encodeDigits s.cfg v k)[1]), (2, (encodeDigits s.cfg v k)[2]),
           (3, (encodeDigits s.cfg v k)[3])] s.ie } ∧
      ∃ t, runAll [.dispValue n v, .fgStep, .fgStep, .fgStep, .fgStep] s = .next t ∧
        t = { s with mem := t.mem, out := s.out ++ [.response 0x0000] } ∧
        ∀ i : Fin 4, t.pat (BitVec.ofFin i) = some (encodeDigits s.cfg v k)[i]) ∧
    (4 < n.toNat → s.cfg.decimalsPolicy = .reject →
      exec (.dispValue n v) s = .next { s with out := s.out ++ [.response 0x0100] })

/-- 20_memory.md section 4 (R47, which the spec marks as derived): after `k` of the four stores the slots below
`k` hold digits of the new value and the others what they held before. -/
def Obligations.TornFrameAfterSomeStores : Prop :=
  ∀ (s : State) (n : BitVec 3) (v k : Nat), s.fg = .idle → s.halt = false →
    n.toNat ≤ 4 → k < 4 →
    ∃ t, runAll (.dispValue n v :: List.replicate k .fgStep) s = .next t ∧
      t.fg ≠ .idle ∧ t.out = s.out ∧
      ∀ i : Fin 4, t.pat (BitVec.ofFin i) =
        if i.val < k then some (encodeDigits s.cfg v n.toNat)[i] else s.pat (BitVec.ofFin i)

/-- 40_encoder.md R83: `display_value` checks `decimals` before the scaling, takes the floor of the exact product,
and has no result for a negative, infinite or undefined value or a product of `2^SCALED_WIDTH` or more. -/
def Obligations.DisplayValueScalesExactly : Prop :=
  (∀ (c : Config) (num : Int) (den decimals : Nat), decimals ≤ 4 → 0 ≤ num → 0 < den →
    ∀ k : Nat, (k * den ≤ num.toNat * 10 ^ decimals ∧ num.toNat * 10 ^ decimals < (k + 1) * den) →
      displayValue c (.rational num den) decimals =
        if k < 2 ^ c.scaledWidth then .command (.dispValue (BitVec.ofNat 3 decimals) k)
        else .refusedCall) ∧
  (∀ (c : Config) (value : DisplayArgument) (decimals : Nat), c.decimalsPolicy = .reject → 4 < decimals →
    displayValue c value decimals = .invalidArgument) ∧
  (∀ (c : Config) (decimals : Nat), decimals ≤ 4 →
    displayValue c .infinite decimals = .refusedCall ∧
    displayValue c .notANumber decimals = .refusedCall ∧
    ∀ (num : Int) (den : Nat), num < 0 → displayValue c (.rational num den) decimals = .refusedCall)

/-! ### The serial unit's commands -/

/-- 42_serial.md R110: `SER_CONFIG` on an idle unit stores the four fields and a controller drives the clock to
its idle level; on a busy unit it is answered `SerialBusy`. A driven clock edge that rises also shifts the
external register (R124). -/
def Obligations.SerConfigStoresFields : Prop :=
  ∀ (s : State) (r : Role) (q : BitOrder) (l p : Bool), s.fg = .idle → s.halt = false →
    (s.busy = false → r = .controller → exec (.serConfig r q l p) s = .next { s with
      sercfg := some ⟨r, q, l, p⟩
      sck := l
      srs := if s.sck = false ∧ l = true then shiftUp s.srs s.sdo else s.srs
      out := s.out ++ [.out .sck l, .response 0x0000] }) ∧
    (s.busy = false → r = .peripheral → exec (.serConfig r q l p) s = .next { s with
      sercfg := some ⟨r, q, l, p⟩
      out := s.out ++ [.response 0x0000] }) ∧
    (s.busy = true → exec (.serConfig r q l p) s = .next { s with out := s.out ++ [.response 0x0400] }) ∧
    encode (.serConfig .controller .msb false false) = .command 0x400008

/-- 42_serial.md R113: `SER_XMIT_BW b` saves and clears `IE`, starts the transfer in `BW` mode and leaves
`FG = SPIN(IE, 0)` with no response yet; its errors come first, `NotConfigured` before `SerialBusy`; while
`FG = SPIN` with `IE = 0` neither interrupt is taken. -/
def Obligations.SerXmitBwEntersCriticalSection : Prop :=
  ∀ (s : State) (b : Byte), s.fg = .idle → s.halt = false →
    (s.sercfg ≠ none → s.busy = false →
      ∃ t, exec (.serXmitBw b) s = .next t ∧
        t = { s with
          ie := false, txsr := b, rxsr := 0x00, bitcnt := 0, busy := true, done := false, xmode := .bw
          fg := .spin s.ie 0 } ∧
        exec .irqTick t = .refused .eventNotEnabled ∧ exec .irqSer t = .refused .eventNotEnabled) ∧
    (s.sercfg = none → exec (.serXmitBw b) s = .next { s with out := s.out ++ [.response 0x0500] }) ∧
    (s.sercfg ≠ none → s.busy = true →
      exec (.serXmitBw b) s = .next { s with out := s.out ++ [.response 0x0400] }) ∧
    encode (.serXmitBw 0xA5) = .command 0x5000A5

/-- 42_serial.md R114 and 60_exceptions.md R167: a poll with `DONE = 0` counts; with `BW_LIMIT = some L` the poll after
`L` unsuccessful ones sets `FLT_TIMEOUT` and `HALT`, restores `IE` and answers 0x0200, and the transfer state is
left as it is; with `BW_LIMIT = none` the spin never gives up. -/
def Obligations.SpinPollsUntilLimit : Prop :=
  ∀ (s : State) (saved : Bool) (n : Nat), s.fg = .spin saved n → s.done = false →
    ((s.cfg.bwLimit = none ∨ ∃ l, s.cfg.bwLimit = some l ∧ n < l) →
      exec .fgStep s = .next { s with fg := .spin saved (n + 1) }) ∧
    (∀ l, s.cfg.bwLimit = some l → l ≤ n →
      exec .fgStep s = .next { s with
        fltTimeout := true, halt := true, ie := saved, fg := .idle
        out := s.out ++ [.response 0x0200] })

/-- 42_serial.md R115: the poll that finds `DONE = 1` clears it, restores `IE`, and answers `OK` with the received
byte; a `BW` transfer raises no completion notification. -/
def Obligations.BusyWaitReturnsReceivedByte : Prop :=
  (∀ (s : State) (saved : Bool) (n : Nat), s.fg = .spin saved n → s.done = true →
    exec .fgStep s = .next { s with
      done := false, ie := saved, fg := .idle, out := s.out ++ [.response (0x00#8 ++ s.rxb)] }) ∧
  (∀ (s t : State) (sdi : Bool), s.xmode = .bw → exec (.serStep sdi) s = .next t → t.serf = s.serf)

/-- 42_serial.md R118: `SER_XMIT_IRQ b` starts the transfer in `IRQ` mode and answers `OK` at once without touching
`IE`; its errors are those of R113. -/
def Obligations.SerXmitIrqReturnsAtOnce : Prop :=
  ∀ (s : State) (b : Byte), s.fg = .idle → s.halt = false →
    (s.sercfg ≠ none → s.busy = false →
      exec (.serXmitIrq b) s = .next { s with
        txsr := b, rxsr := 0x00, bitcnt := 0, busy := true, done := false, xmode := .irq
        out := s.out ++ [.response 0x0000] }) ∧
    (s.sercfg = none → exec (.serXmitIrq b) s = .next { s with out := s.out ++ [.response 0x0500] }) ∧
    (s.sercfg ≠ none → s.busy = true →
      exec (.serXmitIrq b) s = .next { s with out := s.out ++ [.response 0x0400] }) ∧
    encode (.serXmitIrq 0x3C) = .command 0x60003C

/-- 42_serial.md R116: `SER_SET_HANDLER h` overwrites the one slot, also while a transfer is in flight; `h = 3` is an
illegal encoding, answered 0x0300 also when `HALT = 1`. -/
def Obligations.SerSetHandlerOverwrites : Prop :=
  ∀ s : State, s.fg = .idle →
    (s.halt = false →
      exec (.serSetHandler 0) s = .next { s with handler := .none, out := s.out ++ [.response 0x0000] } ∧
      exec (.serSetHandler 1) s = .next { s with handler := .mux, out := s.out ++ [.response 0x0000] } ∧
      exec (.serSetHandler 2) s = .next { s with handler := .host, out := s.out ++ [.response 0x0000] }) ∧
    exec (.serSetHandler 3) s = .next { s with out := s.out ++ [.response 0x0300] } ∧
    encode (.serSetHandler 2) = .command 0x700002

/-! ### System operations and the timer -/

/-- 43_system.md R140: the first `DISP_INIT` starts the timer with cleared counters and, in the `ASYNC` variant,
configures the serial unit for the display and takes the clock low; a repeat changes no state; in the `ASYNC`
variant a busy unit is answered `SerialBusy`. -/
def Obligations.DispInitStartsTimer : Prop :=
  ∀ s : State, s.fg = .idle → s.halt = false →
    (s.tickEn = true → exec .dispInit s = .next { s with out := s.out ++ [.response 0x0000] }) ∧
    (s.tickEn = false → s.cfg.variant = .sync → exec .dispInit s = .next { s with
      tickEn := true, pre := 0, tcnt := 0, out := s.out ++ [.response 0x0000] }) ∧
    (s.tickEn = false → s.cfg.variant = .async → s.busy = true →
      exec .dispInit s = .next { s with out := s.out ++ [.response 0x0400] }) ∧
    (s.tickEn = false → s.cfg.variant = .async → s.busy = false → exec .dispInit s = .next { s with
      tickEn := true, pre := 0, tcnt := 0
      sercfg := some ⟨.controller, s.cfg.dispOrder, false, false⟩
      sck := false
      out := s.out ++ (if s.sck = true then [.out .sck false] else []) ++ [.response 0x0000] }) ∧
    encode .dispInit = .command 0x100000

/-- 43_system.md R142: `INT_ENABLE` sets `IE` and nothing else; a pending interrupt is enabled at once. -/
def Obligations.IntEnableSetsIe : Prop :=
  ∀ s : State, s.fg = .idle → s.halt = false →
    ∃ t, exec .intEnable s = .next t ∧
      t = { s with ie := true, out := s.out ++ [.response 0x0000] } ∧
      (s.tickf = true → ∃ u, exec .irqTick t = .next u) ∧
      (s.serf = true → ∃ u, exec .irqSer t = .next u) ∧
      encode .intEnable = .command 0x800000

/-- 43_system.md R143: `INT_DISABLE` clears `IE` and nothing else; a tick that fires then is held in `TICKF`. -/
def Obligations.IntDisableClearsIe : Prop :=
  ∀ s : State, s.fg = .idle → s.halt = false →
    ∃ t, exec .intDisable s = .next t ∧
      t = { s with ie := false, out := s.out ++ [.response 0x0000] } ∧
      exec .irqTick t = .refused .eventNotEnabled ∧
      (s.tickEn = true → s.cfg.tickSource = .event → ∃ u, exec .tmrTick t = .next u ∧ u.tickf = true ∧
        exec .irqTick u = .refused .eventNotEnabled) ∧
      encode .intDisable = .command 0x900000

/-- 70_reset_and_hazards.md R180 and 10_state.md R26: `RESET` is a step in every state and leaves every element at the
value of the table; a command in progress gets no response. The state before any step has the same values. That
`RESET` gives no line event, and that the outputs so far, the configuration and the coming inputs stay, is the model's
choice (log entries 8, 2, 3, 1). -/
def Obligations.ResetGivesResetValues : Prop :=
  ResetValues State.reset ∧
  ∀ s : State, ∃ t, exec .reset s = .next t ∧ ResetValues t ∧
    t.cfg = s.cfg ∧ t.trace = s.trace ∧ t.out = s.out

/-- 60_exceptions.md R155 and R153: the timer's tick sets `TICKF`; one still pending sets `FLT_TICKLOST` and not `HALT`;
without `TICK_EN`, and in a model that takes its ticks from `CLK` (R156), it is not a step. -/
def Obligations.TimerTickSetsPending : Prop :=
  ∀ s : State,
    (s.cfg.tickSource = .event → s.tickEn = true → s.tickf = false →
      exec .tmrTick s = .next { s with tickf := true }) ∧
    (s.cfg.tickSource = .event → s.tickEn = true → s.tickf = true →
      exec .tmrTick s = .next { s with fltTickLost := true }) ∧
    (s.tickEn = false → exec .tmrTick s = .refused .eventNotEnabled) ∧
    (s.cfg.tickSource = .clock → exec .tmrTick s = .refused .eventNotEnabled)

/-- 60_exceptions.md R156: a clock advances the prescaler modulo 64; when that wraps, the counter modulo
`TIMER_PERIOD`; when that wraps, `TMR_TICK` is performed. So from cleared counters a tick fires at clock number
`64 × TIMER_PERIOD` and not before. Without `TICK_EN`, and in a model with free ticks, it is not a step. -/
def Obligations.ClockDividesToTicks : Prop :=
  (∀ s : State, s.cfg.tickSource = .clock → s.tickEn = true →
    (s.pre ≠ 63 → exec .clk s = .next { s with pre := s.pre + 1 }) ∧
    (s.pre = 63 → (s.tcnt + 1) % s.cfg.timerPeriod ≠ 0 →
      exec .clk s = .next { s with pre := 0, tcnt := (s.tcnt + 1) % s.cfg.timerPeriod }) ∧
    (s.pre = 63 → (s.tcnt + 1) % s.cfg.timerPeriod = 0 →
      exec .clk s = .next { s with
        pre := 0, tcnt := 0, tickf := true, fltTickLost := s.fltTickLost || s.tickf })) ∧
  (∀ s : State, s.tickEn = false ∨ s.cfg.tickSource = .event → exec .clk s = .refused .eventNotEnabled) ∧
  (∀ s : State, s.cfg.tickSource = .clock → s.tickEn = true → s.pre = 0 → s.tcnt = 0 →
    (∀ k, k < 64 * s.cfg.timerPeriod → ∃ t, runAll (List.replicate k .clk) s = .next t ∧
      t = { s with pre := t.pre, tcnt := t.tcnt }) ∧
    runAll (List.replicate (64 * s.cfg.timerPeriod) .clk) s =
      .next { s with tickf := true, fltTickLost := s.fltTickLost || s.tickf })

/-- 43_system.md R144: `FG_STEP` is a step whenever `FG` is not `IDLE`, also when `HALT = 1`, and makes the next store of
a `DISP_VALUE` or the next poll of a busy-wait. -/
def Obligations.ForegroundStepAlwaysEnabled : Prop :=
  (∀ (s : State) (i : Slot) (b : Byte) (rest : List (Slot × Byte)) (saved : Bool),
    s.fg = .writing i b rest saved →
    ∃ t, exec .fgStep s = .next t ∧ t.pat i = some b ∧ (∀ j, j ≠ i → t.pat j = s.pat j) ∧
      (∀ j c rest', rest = (j, c) :: rest' →
        t = { s with mem := t.mem, fg := .writing j c rest' saved }) ∧
      (rest = [] → t = { s with
        mem := t.mem, fg := .idle, ie := if s.cfg.atomicUpdate then saved else s.ie
        out := s.out ++ [.response 0x0000] })) ∧
  (∀ (s : State) (saved : Bool) (n : Nat), s.fg = .spin saved n →
    ∃ t, exec .fgStep s = .next t ∧ (t.fg = .idle ∨ t.fg = .spin saved (n + 1))) ∧
  (∀ s : State, s.fg = .idle → exec .fgStep s = .refused .eventNotEnabled)

/-! ### The multiplexer's ticks -/

/-- 41_multiplexer.md R91: the tick of the `SYNC` variant. A valid slot is sent bit by bit, latched, its digit's line
asserted, the previous one deasserted, and the indices advance, in the order of the line trace; for a `NONE` slot only the
previous line is deasserted and the indices advance; a busy serial unit is `MuxOverrun`. The latch line is low
between steps (an invariant). -/
def Obligations.SyncTickPresentsDigit : Prop :=
  ∀ s : State, s.cfg.variant = .sync → s.ie = true → s.tickf = true → s.halt = false → s.latch = false →
    (s.busy = true → exec .irqTick s = .next { s with
      tickf := false, fltMuxOvr := true, halt := true }) ∧
    (s.busy = false → s.pat s.cur = none → exec .irqTick s = .next { s with
      tickf := false
      en := enWithout s.en s.prev
      prev := some s.cur
      cur := s.cur + 1
      out := s.out ++ deassertOut s.prev }) ∧
    (∀ p, s.busy = false → s.pat s.cur = some p → exec .irqTick s = .next { s with
      tickf := false
      sck := false
      sdo := (match s.cfg.dispOrder with | .msb => p.getLsbD 0 | .lsb => p.getLsbD 7)
      srs := (match s.cfg.dispOrder with | .msb => p | .lsb => p.reverse)
      seg := p
      en := enWithout (s.en ||| enMask s.cur) s.prev
      prev := some s.cur
      cur := s.cur + 1
      out := s.out ++ (if s.sck = true then [.out .sck false] else []) ++ bitBangOut s.cfg.dispOrder p ++
        presentOut s.cur ++ deassertOut s.prev })

/-- 41_multiplexer.md R94: the tick of the `ASYNC` variant. For a valid slot it registers `MUX`, sets `MUXPEND`, starts the
transfer and defers the rest; a `NONE` slot is passed over; a transfer or a continuation in flight is `MuxOverrun`. -/
def Obligations.AsyncTickStartsTransfer : Prop :=
  ∀ s : State, s.cfg.variant = .async → s.ie = true → s.tickf = true → s.halt = false →
    (s.busy = true ∨ s.muxpend = true → exec .irqTick s = .next { s with
      tickf := false, fltMuxOvr := true, halt := true }) ∧
    (s.busy = false → s.muxpend = false → s.pat s.cur = none → exec .irqTick s = .next { s with
      tickf := false
      en := enWithout s.en s.prev
      prev := some s.cur
      cur := s.cur + 1
      out := s.out ++ deassertOut s.prev }) ∧
    (∀ p, s.busy = false → s.muxpend = false → s.pat s.cur = some p → exec .irqTick s = .next { s with
      tickf := false, handler := .mux, muxpend := true
      txsr := p, rxsr := 0x00, bitcnt := 0, busy := true, done := false, xmode := .irq })

/-- 41_multiplexer.md R95: the completion continuation, run by `IRQ_SER` with `HANDLER = MUX`. With `MUXPEND = 1` it latches,
asserts, deasserts and advances; with `MUXPEND = 0` it does nothing. -/
def Obligations.MuxDoneFinishesTick : Prop :=
  ∀ s : State, s.ie = true → s.serf = true → s.halt = false → s.handler = .mux → s.latch = false →
    (s.muxpend = true → exec .irqSer s = .next { s with
      serf := false
      muxpend := false
      seg := (match s.cfg.dispOrder with | .msb => s.srs | .lsb => s.srs.reverse)
      en := enWithout (s.en ||| enMask s.cur) s.prev
      prev := some s.cur
      cur := s.cur + 1
      out := s.out ++ [.out .latch true, .out .latch false, .out (.en s.cur) true] ++
        deassertOut s.prev }) ∧
    (s.muxpend = false → exec .irqSer s = .next { s with serf := false })

/-- 42_serial.md R119 and 60_exceptions.md R158: `IRQ_SER` clears `SERF` and delivers to the target registered at that time: none,
the multiplexer (which finishes its tick when `MUXPEND = 1`), or the host; a delivery does not clear the slot; it is a step
exactly when `IE = 1`, `SERF = 1`, `HALT = 0`. -/
def Obligations.CompletionGoesToRegisteredTarget : Prop :=
  ∀ s : State,
    (s.ie = true → s.serf = true → s.halt = false → ∃ t, exec .irqSer s = .next t ∧
      t.serf = false ∧ t.ie = true ∧ t.handler = s.handler ∧
      (s.handler = .none → t = { s with serf := false }) ∧
      (s.handler = .mux → t.muxpend = false ∧ t.cur = if s.muxpend = true then s.cur + 1 else s.cur) ∧
      (s.handler = .host → t = { s with serf := false, out := s.out ++ [.notifyHost] })) ∧
    (¬ (s.ie = true ∧ s.serf = true ∧ s.halt = false) → exec .irqSer s = .refused .eventNotEnabled)

/-- 42_serial.md R120: `SER_GLITCH`, a step when `BUSY = 0`, sets `SERF` and nothing else; the next `IRQ_SER` then delivers a
notification that the multiplexer ignores and the host gets. -/
def Obligations.GlitchSetsCompletionOnly : Prop :=
  ∀ s : State,
    (s.busy = true → exec .serGlitch s = .refused .eventNotEnabled) ∧
    (s.busy = false → exec .serGlitch s = .next { s with serf := true } ∧
      (s.ie = true → s.halt = false →
        (s.handler = .mux → s.muxpend = false → runAll [.serGlitch, .irqSer] s = .next { s with serf := false }) ∧
        (s.handler = .host → runAll [.serGlitch, .irqSer] s =
          .next { s with serf := false, out := s.out ++ [.notifyHost] })))

/-! ### Shifting and the external register -/

/-- 42_serial.md "Shifting" (R117): one `SER_STEP` of a configured unit. The bit goes out on `SDO`, the registers shift in the
configured order, the eighth bit ends the transfer and sets `SERF` only in `IRQ` mode; nothing else changes. The line
trace is that of R112 and R122; what the external register takes is another statement's. That the state's `SCK` follows the
incoming clock in peripheral role is the model's (log entry 7). -/
def Obligations.SerStepShiftsOneBit : Prop :=
  ∀ (s : State) (c : SerCfg) (sdi : Bool), s.busy = true → s.sercfg = some c →
    ∃ t, exec (.serStep sdi) s = .next t ∧
      t = { s with
        sdo := (match c.order with | .msb => s.txsr.getLsbD 7 | .lsb => s.txsr.getLsbD 0)
        sck := c.cpol
        txsr := (match c.order with | .msb => s.txsr <<< 1 | .lsb => s.txsr >>> 1)
        rxsr := t.rxsr
        bitcnt := if s.bitcnt = 7 then 0 else s.bitcnt + 1
        busy := decide (s.bitcnt ≠ 7)
        done := s.done || decide (s.bitcnt = 7)
        rxb := if s.bitcnt = 7 then t.rxsr else s.rxb
        serf := s.serf || decide (s.bitcnt = 7 ∧ s.xmode = .irq)
        srs := t.srs
        draws := t.draws
        out := s.out ++ bitTraceOut c (match c.order with | .msb => s.txsr.getLsbD 7 | .lsb => s.txsr.getLsbD 0) } ∧
      (∀ k : Nat, k < 8 → t.rxsr.getLsbD k = match c.order with
        | .msb => if k = 0 then sdi else s.rxsr.getLsbD (k - 1)
        | .lsb => if k = 7 then sdi else s.rxsr.getLsbD (k + 1))

/-- 42_serial.md R112 and R122: the line trace of one bit, for the four clock modes, as a `SER_STEP` gives it out. A controller drives
the clock; in peripheral role the same changes come in from outside (`In(SCK, v)`), and the unit puts its bit on `SDO` and samples
`SDI` as in controller role. That the state's `SCK` follows the incoming clock is the model's (log entry 7). -/
def Obligations.BitTraceOfTheFourModes : Prop :=
  ∀ (s : State) (role : Role) (order : BitOrder) (cpol cpha sdi bit : Bool), s.busy = true →
    s.sercfg = some ⟨role, order, cpol, cpha⟩ →
    bit = (match order with | .msb => s.txsr.getLsbD 7 | .lsb => s.txsr.getLsbD 0) →
    ∃ t, exec (.serStep sdi) s = .next t ∧ t.sdo = bit ∧ t.rxsr = rxAfter order s.rxsr sdi ∧
      (role = .controller → cpha = false →
        t.out = s.out ++ [.out .sdo bit, .out .sck (!cpol), .out .sck cpol]) ∧
      (role = .controller → cpha = true →
        t.out = s.out ++ [.out .sck (!cpol), .out .sdo bit, .out .sck cpol]) ∧
      (role = .peripheral → cpha = false →
        t.out = s.out ++ [.out .sdo bit, .inSck (!cpol), .inSck cpol]) ∧
      (role = .peripheral → cpha = true →
        t.out = s.out ++ [.inSck (!cpol), .out .sdo bit, .inSck cpol])

/-- 42_serial.md R124: on every change of `SCK` from 0 to 1, whoever drives it, the external register shifts `SDO` in at the
bottom, and on no other change; in clock mode (0,1) the bit taken is some bit, on which nothing is claimed. That an incoming
clock in peripheral role moves the state's `SCK`, so that its edges count, is the model's (log entry 7). -/
def Obligations.RegisterShiftsOnRisingClock : Prop :=
  (∀ (s : State) (v : Bool),
    (s.driveSck v).srs = if s.sck = false ∧ v = true then (s.srs <<< 1) ||| (BitVec.ofBool s.sdo).setWidth 8 else s.srs) ∧
  (∀ (s : State) (c : SerCfg) (sdi : Bool), s.busy = true → s.sercfg = some c →
    ∃ t bit, exec (.serStep sdi) s = .next t ∧
      (¬ (c.cpol = false ∧ c.cpha = true) → bit = t.sdo) ∧
      t.srs = if c.cpol = true ∨ s.sck = false then (s.srs <<< 1) ||| (BitVec.ofBool bit).setWidth 8 else s.srs)

/-- 42_serial.md R125 and 41_multiplexer.md R92: a rising latch edge copies the shift stage to `SEG`, straight or reversed as
`DISP_ORDER` has it; no other change of `LATCH` and no clock change touches `SEG`; a latch pulse is the two changes 1, 0. -/
def Obligations.LatchCopiesShiftStage : Prop :=
  ∀ s : State,
    (s.latch = false → s.cfg.dispOrder = .msb → s.latchPulse = { s with
      seg := s.srs, out := s.out ++ [.out .latch true, .out .latch false] }) ∧
    (s.latch = false → s.cfg.dispOrder = .lsb → ∃ g : Byte, s.latchPulse = { s with
      seg := g, out := s.out ++ [.out .latch true, .out .latch false] } ∧
      ∀ k : Nat, k < 8 → g.getLsbD k = s.srs.getLsbD (7 - k)) ∧
    (∀ v, s.latch = true ∨ v = false → (s.driveLatch v).seg = s.seg) ∧
    (∀ v o race, (s.setSck v o race).seg = s.seg)

/-- 41_multiplexer.md R93: `EnAssert(i)` makes line `i` high and `EnDeassert(i)` low, leaves the other three, and is recorded in
the line trace also when the line already had the level. -/
def Obligations.EnableLinesSetOneBit : Prop :=
  ∀ (s : State) (i : Slot),
    (s.enAssert i).out = s.out ++ [.out (.en i) true] ∧
    (s.enDeassert i).out = s.out ++ [.out (.en i) false] ∧
    ∀ j : Slot,
      ((s.enAssert i).en.getLsbD j.toNat = if j = i then true else s.en.getLsbD j.toNat) ∧
      ((s.enDeassert i).en.getLsbD j.toNat = if j = i then false else s.en.getLsbD j.toNat)

/-- 42_serial.md "The external shift register" (R126, which the spec marks as derived): a byte sent by `BB_XMIT`, or by the eight
`SER_STEP`s of a transfer in the display's configuration from an idle clock, is what a latch pulse then shows, whatever
the register held before. -/
def Obligations.LinkShowsSentByte : Prop :=
  (∀ (s : State) (b : Byte), s.latch = false → ((s.bbXmit b).latchPulse).seg = b) ∧
  (∀ (s : State) (samples : List Bool), samples.length = 8 → s.busy = true → s.bitcnt = 0 →
    s.sck = false → s.latch = false →
    s.sercfg = some ⟨.controller, s.cfg.dispOrder, false, false⟩ →
    ∃ t, runAll (samples.map .serStep) s = .next t ∧ t.latchPulse.seg = s.txsr)

/-- 42_serial.md R121: `BB_XMIT(b)` pulls a high clock low first, then for each of the eight bits in display order sets data and
pulses the clock; nothing is received; and its trace is that of the eight `SER_STEP`s of a transfer of `b` in the display's
configuration. -/
def Obligations.BitBangEqualsTransferTrace : Prop :=
  (∀ (s : State) (b : Byte), s.bbXmit b = { s with
    sck := false
    sdo := (match s.cfg.dispOrder with | .msb => b.getLsbD 0 | .lsb => b.getLsbD 7)
    srs := (s.bbXmit b).srs
    out := s.out ++ (if s.sck = true then [.out .sck false] else []) ++ bitBangOut s.cfg.dispOrder b }) ∧
  (∀ (s t : State) (samples : List Bool), samples.length = 8 → s.busy = true → s.bitcnt = 0 → s.sck = false →
    s.sercfg = some ⟨.controller, s.cfg.dispOrder, false, false⟩ →
    runAll (samples.map .serStep) s = .next t → t.out = s.out ++ bitBangOut s.cfg.dispOrder s.txsr)

/-- 42_serial.md "Peripheral role and receive" (R123, which the spec marks as derived), in every role and clock mode: a
busy-wait transfer of eight bits gives back the eight samples assembled in the configured order, with `IE` as before. -/
def Obligations.BusyWaitIsFullDuplex : Prop :=
  ∀ (s : State) (c : SerCfg) (b : Byte) (samples : List Bool), samples.length = 8 →
    s.fg = .idle → s.halt = false → s.sercfg = some c → s.busy = false →
    ∃ t, runAll (.serXmitBw b :: (samples.map .serStep ++ [.fgStep])) s = .next t ∧
      t.fg = .idle ∧ t.ie = s.ie ∧ t.busy = false ∧ t.done = false ∧ t.serf = s.serf ∧
      (∃ traced, responses traced = [] ∧
        t.out = s.out ++ traced ++ [.response (0x00#8 ++ assembled c.order samples)])

/-! ### Rules of the whole machine -/

/-- 30_encoding.md section 7 (the table of R68) and R67, in the states that occur: an operation is a step exactly when it is
enabled. For `TMR_TICK` and `CLK` that is `TICK_EN = 1` and that the model takes its ticks from that event: "never both"
(R68, 60_exceptions.md R156). That the tick source is a parameter is the model's (log entry 12). -/
def Obligations.StepsExactlyWhenEnabled : Prop :=
  ∀ (i : Instr) (s : State), Inv s → ((∃ t, exec i s = .next t) ↔ s.enabled i = true)

/-- The reset state meets the invariant (10_state.md section 9). -/
def Obligations.ResetMeetsInvariant : Prop := Inv State.reset

/-- The invariant of 10_state.md section 9 (R27, which the spec marks as derived) with what follows from the rules, kept by every
step from every state that meets it. -/
def Obligations.StepKeepsInvariant : Prop :=
  ∀ s t : State, Inv s → step s = .next t → Inv t

/-- 00_scope.md section 4: the build parameters are "never changed by an operation" (that they stand in the state is log entry 3). -/
def Obligations.ParametersNeverChange : Prop :=
  ∀ (i : Instr) (s t : State), exec i s = .next t → t.cfg = s.cfg

/-- 10_state.md section 7: the four fault elements are sticky; only reset clears them. -/
def Obligations.FaultFlagsAreSticky : Prop :=
  ∀ (i : Instr) (s t : State), exec i s = .next t → i ≠ .reset →
    (s.fltTickLost = true → t.fltTickLost = true) ∧ (s.fltMuxOvr = true → t.fltMuxOvr = true) ∧
    (s.fltTimeout = true → t.fltTimeout = true) ∧ (s.halt = true → t.halt = true)

/-- 60_exceptions.md R154: with `HALT = 1` no interrupt is taken, every well-formed command is answered `Halted` with no state
change, `CUR`, `PREV`, `EN`, `LATCH` and `SEG` keep their values, the other events stay enabled under their own conditions, and
only `RESET` clears `HALT`, which only `MuxOverrun` and `HardwareTimeout` set. -/
def Obligations.HaltFreezesDisplay : Prop :=
  (∀ s : State, s.halt = true →
    exec .irqTick s = .refused .eventNotEnabled ∧ exec .irqSer s = .refused .eventNotEnabled ∧
    (s.fg = .idle → ∀ i : Instr, i.isCommand = true → WellFormed s.cfg.scaledWidth i = true →
      exec i s = .next { s with out := s.out ++ [.response 0x0600] }) ∧
    (∀ (i : Instr) (t : State), exec i s = .next t → i ≠ .reset →
      t.cur = s.cur ∧ t.prev = s.prev ∧ t.en = s.en ∧ t.latch = s.latch ∧ t.seg = s.seg ∧ t.halt = true) ∧
    (s.tickEn = true → (s.cfg.tickSource = .event → ∃ t, exec .tmrTick s = .next t) ∧
      (s.cfg.tickSource = .clock → ∃ t, exec .clk s = .next t)) ∧
    (s.busy = true → s.sercfg ≠ none → ∀ sdi, ∃ t, exec (.serStep sdi) s = .next t) ∧
    (s.busy = false → ∃ t, exec .serGlitch s = .next t) ∧
    (s.fg ≠ .idle → ∃ t, exec .fgStep s = .next t)) ∧
  (∀ (i : Instr) (s t : State), exec i s = .next t → s.halt = false → t.halt = true →
    (i = .irqTick ∧ t.fltMuxOvr = true) ∨ (i = .fgStep ∧ t.fltTimeout = true))

/-- 10_state.md sections 2 and 3 and 41_multiplexer.md section "The two variants" (R12, R13, R93: "Nothing else writes it except
reset"): `CUR`, `PREV` and `EN` are written by the two interrupts and reset only, and an interrupt either leaves both indices or
sets `PREV` to `CUR` and advances `CUR` by one modulo 4. -/
def Obligations.SequencerMovesOnlyInInterrupts : Prop :=
  ∀ (i : Instr) (s t : State), exec i s = .next t → i ≠ .reset →
    (i ≠ .irqTick → i ≠ .irqSer → t.cur = s.cur ∧ t.prev = s.prev ∧ t.en = s.en) ∧
    ((t.cur = s.cur ∧ t.prev = s.prev ∧ t.en = s.en) ∨ (t.cur = s.cur + 1 ∧ t.prev = some s.cur))

/-- 20_memory.md sections 1 and 3 (R41, R45) and 10_state.md section 1 (R11): only `PAT_WRITE`, the foreground's micro-steps and
reset change a slot. `PAT_WRITE i, b` makes the one store of `b` to slot `i` (none when `HALT = 1`), a micro-step of a
`DISP_VALUE` the one store that is next in `FG`, a poll none; every other slot reads as before. A valid slot stays valid
until reset. -/
def Obligations.SlotsWrittenByForegroundOnly : Prop :=
  ∀ (i : Instr) (s t : State), exec i s = .next t → i ≠ .reset →
    ((∀ k b, i ≠ .patWrite k b) → i ≠ .fgStep → t.mem = s.mem) ∧
    (∀ k b, i = .patWrite k b →
      t.mem = (if s.halt then s.mem else (s.writeSlot k b).mem) ∧ ∀ j, j ≠ k → t.pat j = s.pat j) ∧
    (∀ k b rest saved, i = .fgStep → s.fg = .writing k b rest saved →
      t.mem = (s.writeSlot k b).mem ∧ ∀ j, j ≠ k → t.pat j = s.pat j) ∧
    (∀ saved n, i = .fgStep → s.fg = .spin saved n → t.mem = s.mem) ∧
    (∀ j, (s.pat j).isSome = true → (t.pat j).isSome = true)

/-- 42_serial.md "The external shift register" (R127, which the spec marks as derived): `SEG` and `LATCH` change only in the two
interrupts and `RESET`. (A foreign transfer before the `IRQ_SER` of a display transfer is latched by it, R188 (c).) -/
def Obligations.SegmentsChangeOnlyInInterrupts : Prop :=
  ∀ (i : Instr) (s t : State), exec i s = .next t → i ≠ .reset → i ≠ .irqTick → i ≠ .irqSer →
    t.seg = s.seg ∧ t.latch = s.latch

/-- 41_multiplexer.md "Properties" (R97, which the spec marks as derived) with 10_state.md R25: in every state that meets the
invariant at most one digit position shows anything, and it is the one of `PREV`. -/
def Obligations.AtMostOneDigitShown : Prop :=
  ∀ s : State, Inv s → ∀ i : Slot, s.shown i ≠ 0x00 → s.prev = some i ∧ ∀ j, j ≠ i → s.shown j = 0x00

/-- 20_memory.md section 5 (R48): while the foreground spins, or an atomic update is under way, no interrupt is taken. -/
def Obligations.CriticalSectionsHoldInterruptsOff : Prop :=
  ∀ s : State, Inv s →
    ((∃ saved n, s.fg = .spin saved n) ∨
     (s.cfg.atomicUpdate = true ∧ ∃ i b rest saved, s.fg = .writing i b rest saved)) →
    exec .irqTick s = .refused .eventNotEnabled ∧ exec .irqSer s = .refused .eventNotEnabled

/-- 41_multiplexer.md "Properties" (R96, which the spec marks as derived), `SYNC` variant: `k` ticks in a row, each fired and serviced,
advance `CUR` by `k` modulo 4 and leave `PREV` one behind; so four ticks visit the four digits once each. -/
def Obligations.SyncTicksGoRoundRobin : Prop :=
  ∀ (s : State) (k : Nat), Inv s → s.cfg.variant = .sync → s.cfg.tickSource = .event → s.tickEn = true → s.ie = true →
    s.tickf = false → s.halt = false → s.busy = false →
    ∃ t, runAll (List.flatten (List.replicate k [.tmrTick, .irqTick])) s = .next t ∧
      t.cur = s.cur + BitVec.ofNat 2 k ∧ (0 < k → t.prev = some (t.cur + 3)) ∧
      (∀ i, t.pat i = s.pat i) ∧ t.fltTickLost = s.fltTickLost ∧ t.halt = false

/-- 41_multiplexer.md R94 and R95 together: in the `ASYNC` variant a serviced tick on a valid slot, its eight `SER_STEP`s in the
display's configuration and its `IRQ_SER` show the slot's byte on its digit alone and advance the indices. -/
def Obligations.AsyncTickShowsDigit : Prop :=
  ∀ (s : State) (p : Byte) (samples : List Bool), Inv s → samples.length = 8 →
    s.cfg.variant = .async → s.ie = true → s.tickf = true → s.halt = false →
    s.busy = false → s.muxpend = false → s.sck = false → s.pat s.cur = some p →
    s.sercfg = some ⟨.controller, s.cfg.dispOrder, false, false⟩ →
    ∃ t, runAll (.irqTick :: (samples.map .serStep ++ [.irqSer])) s = .next t ∧
      t.seg = p ∧ t.en = enMask s.cur ∧ t.shown s.cur = p ∧ t.prev = some s.cur ∧ t.cur = s.cur + 1 ∧
      t.muxpend = false ∧ t.busy = false ∧ t.halt = false ∧ (∀ i, t.pat i = s.pat i)

/-- 70_reset_and_hazards.md section 3, H5 (R187): a target registered while a display transfer is in flight gets its completion,
`MuxDone` never runs, and the next tick raises `MuxOverrun`. -/
def Obligations.OverwrittenHandlerLeadsToOverrun : Prop :=
  ∀ s : State, s.cfg.variant = .async → s.cfg.tickSource = .event → s.fg = .idle → s.halt = false → s.ie = true →
    s.muxpend = true → s.serf = true → s.tickEn = true → s.tickf = false →
    runAll [.serSetHandler 2, .irqSer, .tmrTick, .irqTick] s = .next { s with
      handler := .host, serf := false, tickf := false, fltMuxOvr := true, halt := true
      out := s.out ++ [.response 0x0000, .notifyHost] }

/-- 70_reset_and_hazards.md section 3, H1 (R183): if between two `TMR_TICK`s there is an `IRQ_TICK`, in a model with free ticks, no
tick is lost. -/
def Obligations.ServedTicksAreNotLost : Prop :=
  ∀ (is : List Instr) (s t : State), ticksServed s.tickf is = true → s.cfg.tickSource = .event →
    s.fltTickLost = false → runAll is s = .next t → t.fltTickLost = false

/-- 70_reset_and_hazards.md section 3, H2 (R184): if every display transfer gets its eight `SER_STEP`s and its `IRQ_SER` before the
next `IRQ_TICK`, and the host makes no transfer of its own and leaves the handler slot alone, no tick overruns. -/
def Obligations.FinishedTransfersDoNotOverrun : Prop :=
  ∀ (is : List Instr) (s t : State), Inv s → s.busy = false → s.muxpend = false → s.fltMuxOvr = false →
    (∀ b, .serXmitBw b ∉ is ∧ .serXmitIrq b ∉ is) → (∀ h, .serSetHandler h ∉ is) →
    transfersFinish none s is = true → runAll is s = .next t → t.fltMuxOvr = false

/-- 42_serial.md R114 and R117, 43_system.md R144 (log entry 15): in an infinite run from a state that meets the invariant, with a
configured controller that does not stall, under the two fairness premises and without `RESET`, a busy-wait without a bound
ends. -/
def Obligations.BusyWaitEndsUnderFairness : Prop :=
  ∀ (r : Nat → State) (i : Nat → Instr) (saved : Bool) (n : Nat), IsRun r i → Inv (r 0) →
    (r 0).fg = .spin saved n → (r 0).cfg.bwLimit = none → (r 0).cfg.serMayStall = false →
    (∃ c, (r 0).sercfg = some c ∧ c.role = .controller) → (∀ m, i m ≠ .reset) →
    SerialFair r i → ForegroundFair r i → ∃ m, (r m).fg = .idle ∧ (r m).ie = saved

/-- 30_encoding.md section 7 and 60_exceptions.md section 2: "A model uses either `TMR_TICK` as a free event or `CLK` events that
produce ticks, never both". A run that completes holds no `CLK` in a model with free ticks, and no `TMR_TICK` in one with
clocks. That the choice is a parameter is the model's (log entry 12). -/
def Obligations.RunsUseOneTickSource : Prop :=
  ∀ (is : List Instr) (s t : State), runAll is s = .next t →
    (s.cfg.tickSource = .event → .clk ∉ is) ∧ (s.cfg.tickSource = .clock → .tmrTick ∉ is) ∧
    oneTickSource is = true
end

