-- ==== Sys2Proof/Laws/Memory.lean ====
section
/-!
SUPPORT. The laws of the pattern memory: a read after a write, and that a write keeps the canonical form.
-/

namespace Sys2Proof.Machine

@[simp] theorem Memory.read_nil (a : Nat) : Memory.read [] a = none := rfl

@[simp] theorem Memory.read_write_same (m : List Host.Cell) (a : Nat) (b : Byte) :
    Memory.read (Memory.write m a b) a = some b := by
  induction m with
  | nil => simp [Memory.write, Memory.read]
  | cons c m ih =>
    obtain ⟨k, v⟩ := c
    unfold Memory.write
    split
    · simp [Memory.read]
    · split
      · simp [Memory.read]
      · next h => simp [Memory.read, Ne.symm h, ih]

theorem Memory.read_write_other (m : List Host.Cell) {a c : Nat} (b : Byte) (h : c ≠ a) :
    Memory.read (Memory.write m a b) c = Memory.read m c := by
  induction m with
  | nil => simp [Memory.write, Memory.read, Ne.symm h]
  | cons x m ih =>
    obtain ⟨k, v⟩ := x
    unfold Memory.write
    split
    · simp [Memory.read, Ne.symm h]
    · split
      · next hak => subst hak; simp [Memory.read, Ne.symm h]
      · simp [Memory.read, ih]

/-- A write at or above `lo` keeps the addresses rising from `lo`. -/
theorem Memory.risingFrom_write (m : List Host.Cell) (lo a : Nat) (b : Byte)
    (hm : Memory.risingFrom lo m = true) (ha : lo ≤ a) :
    Memory.risingFrom lo (Memory.write m a b) = true := by
  induction m generalizing lo with
  | nil => simp [Memory.write, Memory.risingFrom, ha]
  | cons x m ih =>
    obtain ⟨k, v⟩ := x
    simp only [Memory.risingFrom, Bool.and_eq_true, decide_eq_true_eq] at hm
    unfold Memory.write
    split
    · next h => simp [Memory.risingFrom, ha, hm.2]; omega
    · split
      · next h => subst h; simp [Memory.risingFrom, hm.1, hm.2]
      · next h1 h2 => simp [Memory.risingFrom, hm.1, ih (k + 1) hm.2 (by omega)]

theorem Memory.bounded_write (m : List Host.Cell) (a : Nat) (b : Byte)
    (hm : (m.all fun c => decide (c.1 < 4)) = true) (ha : a < 4) :
    ((Memory.write m a b).all fun c => decide (c.1 < 4)) = true := by
  induction m with
  | nil => simp [Memory.write, ha]
  | cons x m ih =>
    obtain ⟨k, v⟩ := x
    simp only [List.all_cons, Bool.and_eq_true, decide_eq_true_eq] at hm
    unfold Memory.write
    split
    · simp [ha, hm.1]; simpa using hm.2
    · split
      · simp [ha]; simpa using hm.2
      · simp only [List.all_cons, Bool.and_eq_true, decide_eq_true_eq]; exact ⟨hm.1, ih hm.2⟩

/-- Writing a slot keeps the canonical form. -/
theorem Memory.wf_write (m : List Host.Cell) (i : Slot) (b : Byte) (hm : Memory.wf m = true) :
    Memory.wf (Memory.write m i.toNat b) = true := by
  simp only [Memory.wf, Bool.and_eq_true] at hm ⊢
  exact ⟨Memory.risingFrom_write m 0 _ b hm.1 (Nat.zero_le _),
    Memory.bounded_write m _ b hm.2 i.isLt⟩

/-- The reset memory has the canonical form. -/
theorem Memory.wf_reset : Memory.wf State.reset.mem = true := rfl

/-- In the canonical form equal reads are equal memories: nothing is listed below the least address. -/
theorem Memory.read_below (m : List Host.Cell) (lo a : Nat) (hm : Memory.risingFrom lo m = true)
    (ha : a < lo) : Memory.read m a = none := by
  induction m generalizing lo with
  | nil => rfl
  | cons x m ih =>
    obtain ⟨k, v⟩ := x
    simp only [Memory.risingFrom, Bool.and_eq_true, decide_eq_true_eq] at hm
    have hk : k ≠ a := by omega
    simp only [Memory.read, hk, if_false]
    exact ih (k + 1) hm.2 (by omega)

@[simp] theorem State.pat_writeSlot_same (s : State) (i : Slot) (b : Byte) :
    (s.writeSlot i b).pat i = some b := Memory.read_write_same _ _ _

theorem State.pat_writeSlot_other (s : State) {i j : Slot} (b : Byte) (h : j ≠ i) :
    (s.writeSlot i b).pat j = s.pat j :=
  Memory.read_write_other _ _ fun e => h (BitVec.eq_of_toNat_eq e)

end Sys2Proof.Machine
end

