-- ==== Sys2Proof/Laws/State.lean ====
section
/-!
SUPPORT. For each primitive update of the state, one lemma per field, each true by `rfl`: what the update
writes and that it writes nothing else.
-/

namespace Sys2Proof.Machine

variable (s : State)

/-! ### `State.emit` -/

@[simp] theorem State.emit_cfg (o : Output) : (s.emit o).cfg = s.cfg := rfl
@[simp] theorem State.emit_trace (o : Output) : (s.emit o).trace = s.trace := rfl
@[simp] theorem State.emit_out (o : Output) : (s.emit o).out = s.out ++ [o] := rfl
@[simp] theorem State.emit_draws (o : Output) : (s.emit o).draws = s.draws := rfl
@[simp] theorem State.emit_mem (o : Output) : (s.emit o).mem = s.mem := rfl
@[simp] theorem State.emit_cur (o : Output) : (s.emit o).cur = s.cur := rfl
@[simp] theorem State.emit_prev (o : Output) : (s.emit o).prev = s.prev := rfl
@[simp] theorem State.emit_muxpend (o : Output) : (s.emit o).muxpend = s.muxpend := rfl
@[simp] theorem State.emit_en (o : Output) : (s.emit o).en = s.en := rfl
@[simp] theorem State.emit_sck (o : Output) : (s.emit o).sck = s.sck := rfl
@[simp] theorem State.emit_sdo (o : Output) : (s.emit o).sdo = s.sdo := rfl
@[simp] theorem State.emit_latch (o : Output) : (s.emit o).latch = s.latch := rfl
@[simp] theorem State.emit_ie (o : Output) : (s.emit o).ie = s.ie := rfl
@[simp] theorem State.emit_tickf (o : Output) : (s.emit o).tickf = s.tickf := rfl
@[simp] theorem State.emit_serf (o : Output) : (s.emit o).serf = s.serf := rfl
@[simp] theorem State.emit_tickEn (o : Output) : (s.emit o).tickEn = s.tickEn := rfl
@[simp] theorem State.emit_pre (o : Output) : (s.emit o).pre = s.pre := rfl
@[simp] theorem State.emit_tcnt (o : Output) : (s.emit o).tcnt = s.tcnt := rfl
@[simp] theorem State.emit_sercfg (o : Output) : (s.emit o).sercfg = s.sercfg := rfl
@[simp] theorem State.emit_txsr (o : Output) : (s.emit o).txsr = s.txsr := rfl
@[simp] theorem State.emit_rxsr (o : Output) : (s.emit o).rxsr = s.rxsr := rfl
@[simp] theorem State.emit_rxb (o : Output) : (s.emit o).rxb = s.rxb := rfl
@[simp] theorem State.emit_bitcnt (o : Output) : (s.emit o).bitcnt = s.bitcnt := rfl
@[simp] theorem State.emit_busy (o : Output) : (s.emit o).busy = s.busy := rfl
@[simp] theorem State.emit_done (o : Output) : (s.emit o).done = s.done := rfl
@[simp] theorem State.emit_xmode (o : Output) : (s.emit o).xmode = s.xmode := rfl
@[simp] theorem State.emit_handler (o : Output) : (s.emit o).handler = s.handler := rfl
@[simp] theorem State.emit_fg (o : Output) : (s.emit o).fg = s.fg := rfl
@[simp] theorem State.emit_fltTickLost (o : Output) : (s.emit o).fltTickLost = s.fltTickLost := rfl
@[simp] theorem State.emit_fltMuxOvr (o : Output) : (s.emit o).fltMuxOvr = s.fltMuxOvr := rfl
@[simp] theorem State.emit_fltTimeout (o : Output) : (s.emit o).fltTimeout = s.fltTimeout := rfl
@[simp] theorem State.emit_halt (o : Output) : (s.emit o).halt = s.halt := rfl
@[simp] theorem State.emit_srs (o : Output) : (s.emit o).srs = s.srs := rfl
@[simp] theorem State.emit_seg (o : Output) : (s.emit o).seg = s.seg := rfl

/-! ### `State.respond` -/

@[simp] theorem State.respond_cfg (st : Status) (d : Byte) : (s.respond st d).cfg = s.cfg := rfl
@[simp] theorem State.respond_trace (st : Status) (d : Byte) : (s.respond st d).trace = s.trace := rfl
@[simp] theorem State.respond_out (st : Status) (d : Byte) : (s.respond st d).out = s.out ++ [.response (responseWord st d)] := rfl
@[simp] theorem State.respond_draws (st : Status) (d : Byte) : (s.respond st d).draws = s.draws := rfl
@[simp] theorem State.respond_mem (st : Status) (d : Byte) : (s.respond st d).mem = s.mem := rfl
@[simp] theorem State.respond_cur (st : Status) (d : Byte) : (s.respond st d).cur = s.cur := rfl
@[simp] theorem State.respond_prev (st : Status) (d : Byte) : (s.respond st d).prev = s.prev := rfl
@[simp] theorem State.respond_muxpend (st : Status) (d : Byte) : (s.respond st d).muxpend = s.muxpend := rfl
@[simp] theorem State.respond_en (st : Status) (d : Byte) : (s.respond st d).en = s.en := rfl
@[simp] theorem State.respond_sck (st : Status) (d : Byte) : (s.respond st d).sck = s.sck := rfl
@[simp] theorem State.respond_sdo (st : Status) (d : Byte) : (s.respond st d).sdo = s.sdo := rfl
@[simp] theorem State.respond_latch (st : Status) (d : Byte) : (s.respond st d).latch = s.latch := rfl
@[simp] theorem State.respond_ie (st : Status) (d : Byte) : (s.respond st d).ie = s.ie := rfl
@[simp] theorem State.respond_tickf (st : Status) (d : Byte) : (s.respond st d).tickf = s.tickf := rfl
@[simp] theorem State.respond_serf (st : Status) (d : Byte) : (s.respond st d).serf = s.serf := rfl
@[simp] theorem State.respond_tickEn (st : Status) (d : Byte) : (s.respond st d).tickEn = s.tickEn := rfl
@[simp] theorem State.respond_pre (st : Status) (d : Byte) : (s.respond st d).pre = s.pre := rfl
@[simp] theorem State.respond_tcnt (st : Status) (d : Byte) : (s.respond st d).tcnt = s.tcnt := rfl
@[simp] theorem State.respond_sercfg (st : Status) (d : Byte) : (s.respond st d).sercfg = s.sercfg := rfl
@[simp] theorem State.respond_txsr (st : Status) (d : Byte) : (s.respond st d).txsr = s.txsr := rfl
@[simp] theorem State.respond_rxsr (st : Status) (d : Byte) : (s.respond st d).rxsr = s.rxsr := rfl
@[simp] theorem State.respond_rxb (st : Status) (d : Byte) : (s.respond st d).rxb = s.rxb := rfl
@[simp] theorem State.respond_bitcnt (st : Status) (d : Byte) : (s.respond st d).bitcnt = s.bitcnt := rfl
@[simp] theorem State.respond_busy (st : Status) (d : Byte) : (s.respond st d).busy = s.busy := rfl
@[simp] theorem State.respond_done (st : Status) (d : Byte) : (s.respond st d).done = s.done := rfl
@[simp] theorem State.respond_xmode (st : Status) (d : Byte) : (s.respond st d).xmode = s.xmode := rfl
@[simp] theorem State.respond_handler (st : Status) (d : Byte) : (s.respond st d).handler = s.handler := rfl
@[simp] theorem State.respond_fg (st : Status) (d : Byte) : (s.respond st d).fg = s.fg := rfl
@[simp] theorem State.respond_fltTickLost (st : Status) (d : Byte) : (s.respond st d).fltTickLost = s.fltTickLost := rfl
@[simp] theorem State.respond_fltMuxOvr (st : Status) (d : Byte) : (s.respond st d).fltMuxOvr = s.fltMuxOvr := rfl
@[simp] theorem State.respond_fltTimeout (st : Status) (d : Byte) : (s.respond st d).fltTimeout = s.fltTimeout := rfl
@[simp] theorem State.respond_halt (st : Status) (d : Byte) : (s.respond st d).halt = s.halt := rfl
@[simp] theorem State.respond_srs (st : Status) (d : Byte) : (s.respond st d).srs = s.srs := rfl
@[simp] theorem State.respond_seg (st : Status) (d : Byte) : (s.respond st d).seg = s.seg := rfl

/-! ### `State.writeSlot` -/

@[simp] theorem State.writeSlot_cfg (i : Slot) (b : Byte) : (s.writeSlot i b).cfg = s.cfg := rfl
@[simp] theorem State.writeSlot_trace (i : Slot) (b : Byte) : (s.writeSlot i b).trace = s.trace := rfl
@[simp] theorem State.writeSlot_out (i : Slot) (b : Byte) : (s.writeSlot i b).out = s.out := rfl
@[simp] theorem State.writeSlot_draws (i : Slot) (b : Byte) : (s.writeSlot i b).draws = s.draws := rfl
@[simp] theorem State.writeSlot_mem (i : Slot) (b : Byte) : (s.writeSlot i b).mem = Memory.write s.mem i.toNat b := rfl
@[simp] theorem State.writeSlot_cur (i : Slot) (b : Byte) : (s.writeSlot i b).cur = s.cur := rfl
@[simp] theorem State.writeSlot_prev (i : Slot) (b : Byte) : (s.writeSlot i b).prev = s.prev := rfl
@[simp] theorem State.writeSlot_muxpend (i : Slot) (b : Byte) : (s.writeSlot i b).muxpend = s.muxpend := rfl
@[simp] theorem State.writeSlot_en (i : Slot) (b : Byte) : (s.writeSlot i b).en = s.en := rfl
@[simp] theorem State.writeSlot_sck (i : Slot) (b : Byte) : (s.writeSlot i b).sck = s.sck := rfl
@[simp] theorem State.writeSlot_sdo (i : Slot) (b : Byte) : (s.writeSlot i b).sdo = s.sdo := rfl
@[simp] theorem State.writeSlot_latch (i : Slot) (b : Byte) : (s.writeSlot i b).latch = s.latch := rfl
@[simp] theorem State.writeSlot_ie (i : Slot) (b : Byte) : (s.writeSlot i b).ie = s.ie := rfl
@[simp] theorem State.writeSlot_tickf (i : Slot) (b : Byte) : (s.writeSlot i b).tickf = s.tickf := rfl
@[simp] theorem State.writeSlot_serf (i : Slot) (b : Byte) : (s.writeSlot i b).serf = s.serf := rfl
@[simp] theorem State.writeSlot_tickEn (i : Slot) (b : Byte) : (s.writeSlot i b).tickEn = s.tickEn := rfl
@[simp] theorem State.writeSlot_pre (i : Slot) (b : Byte) : (s.writeSlot i b).pre = s.pre := rfl
@[simp] theorem State.writeSlot_tcnt (i : Slot) (b : Byte) : (s.writeSlot i b).tcnt = s.tcnt := rfl
@[simp] theorem State.writeSlot_sercfg (i : Slot) (b : Byte) : (s.writeSlot i b).sercfg = s.sercfg := rfl
@[simp] theorem State.writeSlot_txsr (i : Slot) (b : Byte) : (s.writeSlot i b).txsr = s.txsr := rfl
@[simp] theorem State.writeSlot_rxsr (i : Slot) (b : Byte) : (s.writeSlot i b).rxsr = s.rxsr := rfl
@[simp] theorem State.writeSlot_rxb (i : Slot) (b : Byte) : (s.writeSlot i b).rxb = s.rxb := rfl
@[simp] theorem State.writeSlot_bitcnt (i : Slot) (b : Byte) : (s.writeSlot i b).bitcnt = s.bitcnt := rfl
@[simp] theorem State.writeSlot_busy (i : Slot) (b : Byte) : (s.writeSlot i b).busy = s.busy := rfl
@[simp] theorem State.writeSlot_done (i : Slot) (b : Byte) : (s.writeSlot i b).done = s.done := rfl
@[simp] theorem State.writeSlot_xmode (i : Slot) (b : Byte) : (s.writeSlot i b).xmode = s.xmode := rfl
@[simp] theorem State.writeSlot_handler (i : Slot) (b : Byte) : (s.writeSlot i b).handler = s.handler := rfl
@[simp] theorem State.writeSlot_fg (i : Slot) (b : Byte) : (s.writeSlot i b).fg = s.fg := rfl
@[simp] theorem State.writeSlot_fltTickLost (i : Slot) (b : Byte) : (s.writeSlot i b).fltTickLost = s.fltTickLost := rfl
@[simp] theorem State.writeSlot_fltMuxOvr (i : Slot) (b : Byte) : (s.writeSlot i b).fltMuxOvr = s.fltMuxOvr := rfl
@[simp] theorem State.writeSlot_fltTimeout (i : Slot) (b : Byte) : (s.writeSlot i b).fltTimeout = s.fltTimeout := rfl
@[simp] theorem State.writeSlot_halt (i : Slot) (b : Byte) : (s.writeSlot i b).halt = s.halt := rfl
@[simp] theorem State.writeSlot_srs (i : Slot) (b : Byte) : (s.writeSlot i b).srs = s.srs := rfl
@[simp] theorem State.writeSlot_seg (i : Slot) (b : Byte) : (s.writeSlot i b).seg = s.seg := rfl

/-! ### `State.setSck` -/

@[simp] theorem State.setSck_cfg (v : Bool) (o : Output) (race : Bool) : (s.setSck v o race).cfg = s.cfg := rfl
@[simp] theorem State.setSck_trace (v : Bool) (o : Output) (race : Bool) : (s.setSck v o race).trace = s.trace := rfl
@[simp] theorem State.setSck_out (v : Bool) (o : Output) (race : Bool) : (s.setSck v o race).out = s.out ++ [o] := rfl
@[simp] theorem State.setSck_draws (v : Bool) (o : Output) (race : Bool) : (s.setSck v o race).draws = (if s.risingTo v && race then s.draws + 1 else s.draws) := rfl
@[simp] theorem State.setSck_mem (v : Bool) (o : Output) (race : Bool) : (s.setSck v o race).mem = s.mem := rfl
@[simp] theorem State.setSck_cur (v : Bool) (o : Output) (race : Bool) : (s.setSck v o race).cur = s.cur := rfl
@[simp] theorem State.setSck_prev (v : Bool) (o : Output) (race : Bool) : (s.setSck v o race).prev = s.prev := rfl
@[simp] theorem State.setSck_muxpend (v : Bool) (o : Output) (race : Bool) : (s.setSck v o race).muxpend = s.muxpend := rfl
@[simp] theorem State.setSck_en (v : Bool) (o : Output) (race : Bool) : (s.setSck v o race).en = s.en := rfl
@[simp] theorem State.setSck_sck (v : Bool) (o : Output) (race : Bool) : (s.setSck v o race).sck = v := rfl
@[simp] theorem State.setSck_sdo (v : Bool) (o : Output) (race : Bool) : (s.setSck v o race).sdo = s.sdo := rfl
@[simp] theorem State.setSck_latch (v : Bool) (o : Output) (race : Bool) : (s.setSck v o race).latch = s.latch := rfl
@[simp] theorem State.setSck_ie (v : Bool) (o : Output) (race : Bool) : (s.setSck v o race).ie = s.ie := rfl
@[simp] theorem State.setSck_tickf (v : Bool) (o : Output) (race : Bool) : (s.setSck v o race).tickf = s.tickf := rfl
@[simp] theorem State.setSck_serf (v : Bool) (o : Output) (race : Bool) : (s.setSck v o race).serf = s.serf := rfl
@[simp] theorem State.setSck_tickEn (v : Bool) (o : Output) (race : Bool) : (s.setSck v o race).tickEn = s.tickEn := rfl
@[simp] theorem State.setSck_pre (v : Bool) (o : Output) (race : Bool) : (s.setSck v o race).pre = s.pre := rfl
@[simp] theorem State.setSck_tcnt (v : Bool) (o : Output) (race : Bool) : (s.setSck v o race).tcnt = s.tcnt := rfl
@[simp] theorem State.setSck_sercfg (v : Bool) (o : Output) (race : Bool) : (s.setSck v o race).sercfg = s.sercfg := rfl
@[simp] theorem State.setSck_txsr (v : Bool) (o : Output) (race : Bool) : (s.setSck v o race).txsr = s.txsr := rfl
@[simp] theorem State.setSck_rxsr (v : Bool) (o : Output) (race : Bool) : (s.setSck v o race).rxsr = s.rxsr := rfl
@[simp] theorem State.setSck_rxb (v : Bool) (o : Output) (race : Bool) : (s.setSck v o race).rxb = s.rxb := rfl
@[simp] theorem State.setSck_bitcnt (v : Bool) (o : Output) (race : Bool) : (s.setSck v o race).bitcnt = s.bitcnt := rfl
@[simp] theorem State.setSck_busy (v : Bool) (o : Output) (race : Bool) : (s.setSck v o race).busy = s.busy := rfl
@[simp] theorem State.setSck_done (v : Bool) (o : Output) (race : Bool) : (s.setSck v o race).done = s.done := rfl
@[simp] theorem State.setSck_xmode (v : Bool) (o : Output) (race : Bool) : (s.setSck v o race).xmode = s.xmode := rfl
@[simp] theorem State.setSck_handler (v : Bool) (o : Output) (race : Bool) : (s.setSck v o race).handler = s.handler := rfl
@[simp] theorem State.setSck_fg (v : Bool) (o : Output) (race : Bool) : (s.setSck v o race).fg = s.fg := rfl
@[simp] theorem State.setSck_fltTickLost (v : Bool) (o : Output) (race : Bool) : (s.setSck v o race).fltTickLost = s.fltTickLost := rfl
@[simp] theorem State.setSck_fltMuxOvr (v : Bool) (o : Output) (race : Bool) : (s.setSck v o race).fltMuxOvr = s.fltMuxOvr := rfl
@[simp] theorem State.setSck_fltTimeout (v : Bool) (o : Output) (race : Bool) : (s.setSck v o race).fltTimeout = s.fltTimeout := rfl
@[simp] theorem State.setSck_halt (v : Bool) (o : Output) (race : Bool) : (s.setSck v o race).halt = s.halt := rfl
@[simp] theorem State.setSck_srs (v : Bool) (o : Output) (race : Bool) : (s.setSck v o race).srs = (if s.risingTo v then shiftUp s.srs (s.sampledBit race) else s.srs) := rfl
@[simp] theorem State.setSck_seg (v : Bool) (o : Output) (race : Bool) : (s.setSck v o race).seg = s.seg := rfl

/-! ### `State.driveSck` -/

@[simp] theorem State.driveSck_cfg (v : Bool) : (s.driveSck v).cfg = s.cfg := rfl
@[simp] theorem State.driveSck_trace (v : Bool) : (s.driveSck v).trace = s.trace := rfl
@[simp] theorem State.driveSck_out (v : Bool) : (s.driveSck v).out = s.out ++ [.out .sck v] := rfl
@[simp] theorem State.driveSck_draws (v : Bool) : (s.driveSck v).draws = s.draws := by
  simp [State.driveSck]
@[simp] theorem State.driveSck_mem (v : Bool) : (s.driveSck v).mem = s.mem := rfl
@[simp] theorem State.driveSck_cur (v : Bool) : (s.driveSck v).cur = s.cur := rfl
@[simp] theorem State.driveSck_prev (v : Bool) : (s.driveSck v).prev = s.prev := rfl
@[simp] theorem State.driveSck_muxpend (v : Bool) : (s.driveSck v).muxpend = s.muxpend := rfl
@[simp] theorem State.driveSck_en (v : Bool) : (s.driveSck v).en = s.en := rfl
@[simp] theorem State.driveSck_sck (v : Bool) : (s.driveSck v).sck = v := rfl
@[simp] theorem State.driveSck_sdo (v : Bool) : (s.driveSck v).sdo = s.sdo := rfl
@[simp] theorem State.driveSck_latch (v : Bool) : (s.driveSck v).latch = s.latch := rfl
@[simp] theorem State.driveSck_ie (v : Bool) : (s.driveSck v).ie = s.ie := rfl
@[simp] theorem State.driveSck_tickf (v : Bool) : (s.driveSck v).tickf = s.tickf := rfl
@[simp] theorem State.driveSck_serf (v : Bool) : (s.driveSck v).serf = s.serf := rfl
@[simp] theorem State.driveSck_tickEn (v : Bool) : (s.driveSck v).tickEn = s.tickEn := rfl
@[simp] theorem State.driveSck_pre (v : Bool) : (s.driveSck v).pre = s.pre := rfl
@[simp] theorem State.driveSck_tcnt (v : Bool) : (s.driveSck v).tcnt = s.tcnt := rfl
@[simp] theorem State.driveSck_sercfg (v : Bool) : (s.driveSck v).sercfg = s.sercfg := rfl
@[simp] theorem State.driveSck_txsr (v : Bool) : (s.driveSck v).txsr = s.txsr := rfl
@[simp] theorem State.driveSck_rxsr (v : Bool) : (s.driveSck v).rxsr = s.rxsr := rfl
@[simp] theorem State.driveSck_rxb (v : Bool) : (s.driveSck v).rxb = s.rxb := rfl
@[simp] theorem State.driveSck_bitcnt (v : Bool) : (s.driveSck v).bitcnt = s.bitcnt := rfl
@[simp] theorem State.driveSck_busy (v : Bool) : (s.driveSck v).busy = s.busy := rfl
@[simp] theorem State.driveSck_done (v : Bool) : (s.driveSck v).done = s.done := rfl
@[simp] theorem State.driveSck_xmode (v : Bool) : (s.driveSck v).xmode = s.xmode := rfl
@[simp] theorem State.driveSck_handler (v : Bool) : (s.driveSck v).handler = s.handler := rfl
@[simp] theorem State.driveSck_fg (v : Bool) : (s.driveSck v).fg = s.fg := rfl
@[simp] theorem State.driveSck_fltTickLost (v : Bool) : (s.driveSck v).fltTickLost = s.fltTickLost := rfl
@[simp] theorem State.driveSck_fltMuxOvr (v : Bool) : (s.driveSck v).fltMuxOvr = s.fltMuxOvr := rfl
@[simp] theorem State.driveSck_fltTimeout (v : Bool) : (s.driveSck v).fltTimeout = s.fltTimeout := rfl
@[simp] theorem State.driveSck_halt (v : Bool) : (s.driveSck v).halt = s.halt := rfl
@[simp] theorem State.driveSck_srs (v : Bool) : (s.driveSck v).srs = (if s.risingTo v then shiftUp s.srs s.sdo else s.srs) := rfl
@[simp] theorem State.driveSck_seg (v : Bool) : (s.driveSck v).seg = s.seg := rfl

/-! ### `State.driveSdo` -/

@[simp] theorem State.driveSdo_cfg (v : Bool) : (s.driveSdo v).cfg = s.cfg := rfl
@[simp] theorem State.driveSdo_trace (v : Bool) : (s.driveSdo v).trace = s.trace := rfl
@[simp] theorem State.driveSdo_out (v : Bool) : (s.driveSdo v).out = s.out ++ [.out .sdo v] := rfl
@[simp] theorem State.driveSdo_draws (v : Bool) : (s.driveSdo v).draws = s.draws := rfl
@[simp] theorem State.driveSdo_mem (v : Bool) : (s.driveSdo v).mem = s.mem := rfl
@[simp] theorem State.driveSdo_cur (v : Bool) : (s.driveSdo v).cur = s.cur := rfl
@[simp] theorem State.driveSdo_prev (v : Bool) : (s.driveSdo v).prev = s.prev := rfl
@[simp] theorem State.driveSdo_muxpend (v : Bool) : (s.driveSdo v).muxpend = s.muxpend := rfl
@[simp] theorem State.driveSdo_en (v : Bool) : (s.driveSdo v).en = s.en := rfl
@[simp] theorem State.driveSdo_sck (v : Bool) : (s.driveSdo v).sck = s.sck := rfl
@[simp] theorem State.driveSdo_sdo (v : Bool) : (s.driveSdo v).sdo = v := rfl
@[simp] theorem State.driveSdo_latch (v : Bool) : (s.driveSdo v).latch = s.latch := rfl
@[simp] theorem State.driveSdo_ie (v : Bool) : (s.driveSdo v).ie = s.ie := rfl
@[simp] theorem State.driveSdo_tickf (v : Bool) : (s.driveSdo v).tickf = s.tickf := rfl
@[simp] theorem State.driveSdo_serf (v : Bool) : (s.driveSdo v).serf = s.serf := rfl
@[simp] theorem State.driveSdo_tickEn (v : Bool) : (s.driveSdo v).tickEn = s.tickEn := rfl
@[simp] theorem State.driveSdo_pre (v : Bool) : (s.driveSdo v).pre = s.pre := rfl
@[simp] theorem State.driveSdo_tcnt (v : Bool) : (s.driveSdo v).tcnt = s.tcnt := rfl
@[simp] theorem State.driveSdo_sercfg (v : Bool) : (s.driveSdo v).sercfg = s.sercfg := rfl
@[simp] theorem State.driveSdo_txsr (v : Bool) : (s.driveSdo v).txsr = s.txsr := rfl
@[simp] theorem State.driveSdo_rxsr (v : Bool) : (s.driveSdo v).rxsr = s.rxsr := rfl
@[simp] theorem State.driveSdo_rxb (v : Bool) : (s.driveSdo v).rxb = s.rxb := rfl
@[simp] theorem State.driveSdo_bitcnt (v : Bool) : (s.driveSdo v).bitcnt = s.bitcnt := rfl
@[simp] theorem State.driveSdo_busy (v : Bool) : (s.driveSdo v).busy = s.busy := rfl
@[simp] theorem State.driveSdo_done (v : Bool) : (s.driveSdo v).done = s.done := rfl
@[simp] theorem State.driveSdo_xmode (v : Bool) : (s.driveSdo v).xmode = s.xmode := rfl
@[simp] theorem State.driveSdo_handler (v : Bool) : (s.driveSdo v).handler = s.handler := rfl
@[simp] theorem State.driveSdo_fg (v : Bool) : (s.driveSdo v).fg = s.fg := rfl
@[simp] theorem State.driveSdo_fltTickLost (v : Bool) : (s.driveSdo v).fltTickLost = s.fltTickLost := rfl
@[simp] theorem State.driveSdo_fltMuxOvr (v : Bool) : (s.driveSdo v).fltMuxOvr = s.fltMuxOvr := rfl
@[simp] theorem State.driveSdo_fltTimeout (v : Bool) : (s.driveSdo v).fltTimeout = s.fltTimeout := rfl
@[simp] theorem State.driveSdo_halt (v : Bool) : (s.driveSdo v).halt = s.halt := rfl
@[simp] theorem State.driveSdo_srs (v : Bool) : (s.driveSdo v).srs = s.srs := rfl
@[simp] theorem State.driveSdo_seg (v : Bool) : (s.driveSdo v).seg = s.seg := rfl

/-! ### `State.driveLatch` -/

@[simp] theorem State.driveLatch_cfg (v : Bool) : (s.driveLatch v).cfg = s.cfg := rfl
@[simp] theorem State.driveLatch_trace (v : Bool) : (s.driveLatch v).trace = s.trace := rfl
@[simp] theorem State.driveLatch_out (v : Bool) : (s.driveLatch v).out = s.out ++ [.out .latch v] := rfl
@[simp] theorem State.driveLatch_draws (v : Bool) : (s.driveLatch v).draws = s.draws := rfl
@[simp] theorem State.driveLatch_mem (v : Bool) : (s.driveLatch v).mem = s.mem := rfl
@[simp] theorem State.driveLatch_cur (v : Bool) : (s.driveLatch v).cur = s.cur := rfl
@[simp] theorem State.driveLatch_prev (v : Bool) : (s.driveLatch v).prev = s.prev := rfl
@[simp] theorem State.driveLatch_muxpend (v : Bool) : (s.driveLatch v).muxpend = s.muxpend := rfl
@[simp] theorem State.driveLatch_en (v : Bool) : (s.driveLatch v).en = s.en := rfl
@[simp] theorem State.driveLatch_sck (v : Bool) : (s.driveLatch v).sck = s.sck := rfl
@[simp] theorem State.driveLatch_sdo (v : Bool) : (s.driveLatch v).sdo = s.sdo := rfl
@[simp] theorem State.driveLatch_latch (v : Bool) : (s.driveLatch v).latch = v := rfl
@[simp] theorem State.driveLatch_ie (v : Bool) : (s.driveLatch v).ie = s.ie := rfl
@[simp] theorem State.driveLatch_tickf (v : Bool) : (s.driveLatch v).tickf = s.tickf := rfl
@[simp] theorem State.driveLatch_serf (v : Bool) : (s.driveLatch v).serf = s.serf := rfl
@[simp] theorem State.driveLatch_tickEn (v : Bool) : (s.driveLatch v).tickEn = s.tickEn := rfl
@[simp] theorem State.driveLatch_pre (v : Bool) : (s.driveLatch v).pre = s.pre := rfl
@[simp] theorem State.driveLatch_tcnt (v : Bool) : (s.driveLatch v).tcnt = s.tcnt := rfl
@[simp] theorem State.driveLatch_sercfg (v : Bool) : (s.driveLatch v).sercfg = s.sercfg := rfl
@[simp] theorem State.driveLatch_txsr (v : Bool) : (s.driveLatch v).txsr = s.txsr := rfl
@[simp] theorem State.driveLatch_rxsr (v : Bool) : (s.driveLatch v).rxsr = s.rxsr := rfl
@[simp] theorem State.driveLatch_rxb (v : Bool) : (s.driveLatch v).rxb = s.rxb := rfl
@[simp] theorem State.driveLatch_bitcnt (v : Bool) : (s.driveLatch v).bitcnt = s.bitcnt := rfl
@[simp] theorem State.driveLatch_busy (v : Bool) : (s.driveLatch v).busy = s.busy := rfl
@[simp] theorem State.driveLatch_done (v : Bool) : (s.driveLatch v).done = s.done := rfl
@[simp] theorem State.driveLatch_xmode (v : Bool) : (s.driveLatch v).xmode = s.xmode := rfl
@[simp] theorem State.driveLatch_handler (v : Bool) : (s.driveLatch v).handler = s.handler := rfl
@[simp] theorem State.driveLatch_fg (v : Bool) : (s.driveLatch v).fg = s.fg := rfl
@[simp] theorem State.driveLatch_fltTickLost (v : Bool) : (s.driveLatch v).fltTickLost = s.fltTickLost := rfl
@[simp] theorem State.driveLatch_fltMuxOvr (v : Bool) : (s.driveLatch v).fltMuxOvr = s.fltMuxOvr := rfl
@[simp] theorem State.driveLatch_fltTimeout (v : Bool) : (s.driveLatch v).fltTimeout = s.fltTimeout := rfl
@[simp] theorem State.driveLatch_halt (v : Bool) : (s.driveLatch v).halt = s.halt := rfl
@[simp] theorem State.driveLatch_srs (v : Bool) : (s.driveLatch v).srs = s.srs := rfl
@[simp] theorem State.driveLatch_seg (v : Bool) : (s.driveLatch v).seg = (if !s.latch && v then latched s.cfg.dispOrder s.srs else s.seg) := rfl

/-! ### `State.enAssert` -/

@[simp] theorem State.enAssert_cfg (i : Slot) : (s.enAssert i).cfg = s.cfg := rfl
@[simp] theorem State.enAssert_trace (i : Slot) : (s.enAssert i).trace = s.trace := rfl
@[simp] theorem State.enAssert_out (i : Slot) : (s.enAssert i).out = s.out ++ [.out (.en i) true] := rfl
@[simp] theorem State.enAssert_draws (i : Slot) : (s.enAssert i).draws = s.draws := rfl
@[simp] theorem State.enAssert_mem (i : Slot) : (s.enAssert i).mem = s.mem := rfl
@[simp] theorem State.enAssert_cur (i : Slot) : (s.enAssert i).cur = s.cur := rfl
@[simp] theorem State.enAssert_prev (i : Slot) : (s.enAssert i).prev = s.prev := rfl
@[simp] theorem State.enAssert_muxpend (i : Slot) : (s.enAssert i).muxpend = s.muxpend := rfl
@[simp] theorem State.enAssert_en (i : Slot) : (s.enAssert i).en = s.en ||| enMask i := rfl
@[simp] theorem State.enAssert_sck (i : Slot) : (s.enAssert i).sck = s.sck := rfl
@[simp] theorem State.enAssert_sdo (i : Slot) : (s.enAssert i).sdo = s.sdo := rfl
@[simp] theorem State.enAssert_latch (i : Slot) : (s.enAssert i).latch = s.latch := rfl
@[simp] theorem State.enAssert_ie (i : Slot) : (s.enAssert i).ie = s.ie := rfl
@[simp] theorem State.enAssert_tickf (i : Slot) : (s.enAssert i).tickf = s.tickf := rfl
@[simp] theorem State.enAssert_serf (i : Slot) : (s.enAssert i).serf = s.serf := rfl
@[simp] theorem State.enAssert_tickEn (i : Slot) : (s.enAssert i).tickEn = s.tickEn := rfl
@[simp] theorem State.enAssert_pre (i : Slot) : (s.enAssert i).pre = s.pre := rfl
@[simp] theorem State.enAssert_tcnt (i : Slot) : (s.enAssert i).tcnt = s.tcnt := rfl
@[simp] theorem State.enAssert_sercfg (i : Slot) : (s.enAssert i).sercfg = s.sercfg := rfl
@[simp] theorem State.enAssert_txsr (i : Slot) : (s.enAssert i).txsr = s.txsr := rfl
@[simp] theorem State.enAssert_rxsr (i : Slot) : (s.enAssert i).rxsr = s.rxsr := rfl
@[simp] theorem State.enAssert_rxb (i : Slot) : (s.enAssert i).rxb = s.rxb := rfl
@[simp] theorem State.enAssert_bitcnt (i : Slot) : (s.enAssert i).bitcnt = s.bitcnt := rfl
@[simp] theorem State.enAssert_busy (i : Slot) : (s.enAssert i).busy = s.busy := rfl
@[simp] theorem State.enAssert_done (i : Slot) : (s.enAssert i).done = s.done := rfl
@[simp] theorem State.enAssert_xmode (i : Slot) : (s.enAssert i).xmode = s.xmode := rfl
@[simp] theorem State.enAssert_handler (i : Slot) : (s.enAssert i).handler = s.handler := rfl
@[simp] theorem State.enAssert_fg (i : Slot) : (s.enAssert i).fg = s.fg := rfl
@[simp] theorem State.enAssert_fltTickLost (i : Slot) : (s.enAssert i).fltTickLost = s.fltTickLost := rfl
@[simp] theorem State.enAssert_fltMuxOvr (i : Slot) : (s.enAssert i).fltMuxOvr = s.fltMuxOvr := rfl
@[simp] theorem State.enAssert_fltTimeout (i : Slot) : (s.enAssert i).fltTimeout = s.fltTimeout := rfl
@[simp] theorem State.enAssert_halt (i : Slot) : (s.enAssert i).halt = s.halt := rfl
@[simp] theorem State.enAssert_srs (i : Slot) : (s.enAssert i).srs = s.srs := rfl
@[simp] theorem State.enAssert_seg (i : Slot) : (s.enAssert i).seg = s.seg := rfl

/-! ### `State.enDeassert` -/

@[simp] theorem State.enDeassert_cfg (i : Slot) : (s.enDeassert i).cfg = s.cfg := rfl
@[simp] theorem State.enDeassert_trace (i : Slot) : (s.enDeassert i).trace = s.trace := rfl
@[simp] theorem State.enDeassert_out (i : Slot) : (s.enDeassert i).out = s.out ++ [.out (.en i) false] := rfl
@[simp] theorem State.enDeassert_draws (i : Slot) : (s.enDeassert i).draws = s.draws := rfl
@[simp] theorem State.enDeassert_mem (i : Slot) : (s.enDeassert i).mem = s.mem := rfl
@[simp] theorem State.enDeassert_cur (i : Slot) : (s.enDeassert i).cur = s.cur := rfl
@[simp] theorem State.enDeassert_prev (i : Slot) : (s.enDeassert i).prev = s.prev := rfl
@[simp] theorem State.enDeassert_muxpend (i : Slot) : (s.enDeassert i).muxpend = s.muxpend := rfl
@[simp] theorem State.enDeassert_en (i : Slot) : (s.enDeassert i).en = s.en &&& ~~~ enMask i := rfl
@[simp] theorem State.enDeassert_sck (i : Slot) : (s.enDeassert i).sck = s.sck := rfl
@[simp] theorem State.enDeassert_sdo (i : Slot) : (s.enDeassert i).sdo = s.sdo := rfl
@[simp] theorem State.enDeassert_latch (i : Slot) : (s.enDeassert i).latch = s.latch := rfl
@[simp] theorem State.enDeassert_ie (i : Slot) : (s.enDeassert i).ie = s.ie := rfl
@[simp] theorem State.enDeassert_tickf (i : Slot) : (s.enDeassert i).tickf = s.tickf := rfl
@[simp] theorem State.enDeassert_serf (i : Slot) : (s.enDeassert i).serf = s.serf := rfl
@[simp] theorem State.enDeassert_tickEn (i : Slot) : (s.enDeassert i).tickEn = s.tickEn := rfl
@[simp] theorem State.enDeassert_pre (i : Slot) : (s.enDeassert i).pre = s.pre := rfl
@[simp] theorem State.enDeassert_tcnt (i : Slot) : (s.enDeassert i).tcnt = s.tcnt := rfl
@[simp] theorem State.enDeassert_sercfg (i : Slot) : (s.enDeassert i).sercfg = s.sercfg := rfl
@[simp] theorem State.enDeassert_txsr (i : Slot) : (s.enDeassert i).txsr = s.txsr := rfl
@[simp] theorem State.enDeassert_rxsr (i : Slot) : (s.enDeassert i).rxsr = s.rxsr := rfl
@[simp] theorem State.enDeassert_rxb (i : Slot) : (s.enDeassert i).rxb = s.rxb := rfl
@[simp] theorem State.enDeassert_bitcnt (i : Slot) : (s.enDeassert i).bitcnt = s.bitcnt := rfl
@[simp] theorem State.enDeassert_busy (i : Slot) : (s.enDeassert i).busy = s.busy := rfl
@[simp] theorem State.enDeassert_done (i : Slot) : (s.enDeassert i).done = s.done := rfl
@[simp] theorem State.enDeassert_xmode (i : Slot) : (s.enDeassert i).xmode = s.xmode := rfl
@[simp] theorem State.enDeassert_handler (i : Slot) : (s.enDeassert i).handler = s.handler := rfl
@[simp] theorem State.enDeassert_fg (i : Slot) : (s.enDeassert i).fg = s.fg := rfl
@[simp] theorem State.enDeassert_fltTickLost (i : Slot) : (s.enDeassert i).fltTickLost = s.fltTickLost := rfl
@[simp] theorem State.enDeassert_fltMuxOvr (i : Slot) : (s.enDeassert i).fltMuxOvr = s.fltMuxOvr := rfl
@[simp] theorem State.enDeassert_fltTimeout (i : Slot) : (s.enDeassert i).fltTimeout = s.fltTimeout := rfl
@[simp] theorem State.enDeassert_halt (i : Slot) : (s.enDeassert i).halt = s.halt := rfl
@[simp] theorem State.enDeassert_srs (i : Slot) : (s.enDeassert i).srs = s.srs := rfl
@[simp] theorem State.enDeassert_seg (i : Slot) : (s.enDeassert i).seg = s.seg := rfl

/-! ### `State.returnFromInterrupt` -/

@[simp] theorem State.returnFromInterrupt_cfg : (s.returnFromInterrupt).cfg = s.cfg := rfl
@[simp] theorem State.returnFromInterrupt_trace : (s.returnFromInterrupt).trace = s.trace := rfl
@[simp] theorem State.returnFromInterrupt_out : (s.returnFromInterrupt).out = s.out := rfl
@[simp] theorem State.returnFromInterrupt_draws : (s.returnFromInterrupt).draws = s.draws := rfl
@[simp] theorem State.returnFromInterrupt_mem : (s.returnFromInterrupt).mem = s.mem := rfl
@[simp] theorem State.returnFromInterrupt_cur : (s.returnFromInterrupt).cur = s.cur := rfl
@[simp] theorem State.returnFromInterrupt_prev : (s.returnFromInterrupt).prev = s.prev := rfl
@[simp] theorem State.returnFromInterrupt_muxpend : (s.returnFromInterrupt).muxpend = s.muxpend := rfl
@[simp] theorem State.returnFromInterrupt_en : (s.returnFromInterrupt).en = s.en := rfl
@[simp] theorem State.returnFromInterrupt_sck : (s.returnFromInterrupt).sck = s.sck := rfl
@[simp] theorem State.returnFromInterrupt_sdo : (s.returnFromInterrupt).sdo = s.sdo := rfl
@[simp] theorem State.returnFromInterrupt_latch : (s.returnFromInterrupt).latch = s.latch := rfl
@[simp] theorem State.returnFromInterrupt_ie : (s.returnFromInterrupt).ie = true := rfl
@[simp] theorem State.returnFromInterrupt_tickf : (s.returnFromInterrupt).tickf = s.tickf := rfl
@[simp] theorem State.returnFromInterrupt_serf : (s.returnFromInterrupt).serf = s.serf := rfl
@[simp] theorem State.returnFromInterrupt_tickEn : (s.returnFromInterrupt).tickEn = s.tickEn := rfl
@[simp] theorem State.returnFromInterrupt_pre : (s.returnFromInterrupt).pre = s.pre := rfl
@[simp] theorem State.returnFromInterrupt_tcnt : (s.returnFromInterrupt).tcnt = s.tcnt := rfl
@[simp] theorem State.returnFromInterrupt_sercfg : (s.returnFromInterrupt).sercfg = s.sercfg := rfl
@[simp] theorem State.returnFromInterrupt_txsr : (s.returnFromInterrupt).txsr = s.txsr := rfl
@[simp] theorem State.returnFromInterrupt_rxsr : (s.returnFromInterrupt).rxsr = s.rxsr := rfl
@[simp] theorem State.returnFromInterrupt_rxb : (s.returnFromInterrupt).rxb = s.rxb := rfl
@[simp] theorem State.returnFromInterrupt_bitcnt : (s.returnFromInterrupt).bitcnt = s.bitcnt := rfl
@[simp] theorem State.returnFromInterrupt_busy : (s.returnFromInterrupt).busy = s.busy := rfl
@[simp] theorem State.returnFromInterrupt_done : (s.returnFromInterrupt).done = s.done := rfl
@[simp] theorem State.returnFromInterrupt_xmode : (s.returnFromInterrupt).xmode = s.xmode := rfl
@[simp] theorem State.returnFromInterrupt_handler : (s.returnFromInterrupt).handler = s.handler := rfl
@[simp] theorem State.returnFromInterrupt_fg : (s.returnFromInterrupt).fg = s.fg := rfl
@[simp] theorem State.returnFromInterrupt_fltTickLost : (s.returnFromInterrupt).fltTickLost = s.fltTickLost := rfl
@[simp] theorem State.returnFromInterrupt_fltMuxOvr : (s.returnFromInterrupt).fltMuxOvr = s.fltMuxOvr := rfl
@[simp] theorem State.returnFromInterrupt_fltTimeout : (s.returnFromInterrupt).fltTimeout = s.fltTimeout := rfl
@[simp] theorem State.returnFromInterrupt_halt : (s.returnFromInterrupt).halt = s.halt := rfl
@[simp] theorem State.returnFromInterrupt_srs : (s.returnFromInterrupt).srs = s.srs := rfl
@[simp] theorem State.returnFromInterrupt_seg : (s.returnFromInterrupt).seg = s.seg := rfl

/-! ### `State.raiseTickLost` -/

@[simp] theorem State.raiseTickLost_cfg : (s.raiseTickLost).cfg = s.cfg := rfl
@[simp] theorem State.raiseTickLost_trace : (s.raiseTickLost).trace = s.trace := rfl
@[simp] theorem State.raiseTickLost_out : (s.raiseTickLost).out = s.out := rfl
@[simp] theorem State.raiseTickLost_draws : (s.raiseTickLost).draws = s.draws := rfl
@[simp] theorem State.raiseTickLost_mem : (s.raiseTickLost).mem = s.mem := rfl
@[simp] theorem State.raiseTickLost_cur : (s.raiseTickLost).cur = s.cur := rfl
@[simp] theorem State.raiseTickLost_prev : (s.raiseTickLost).prev = s.prev := rfl
@[simp] theorem State.raiseTickLost_muxpend : (s.raiseTickLost).muxpend = s.muxpend := rfl
@[simp] theorem State.raiseTickLost_en : (s.raiseTickLost).en = s.en := rfl
@[simp] theorem State.raiseTickLost_sck : (s.raiseTickLost).sck = s.sck := rfl
@[simp] theorem State.raiseTickLost_sdo : (s.raiseTickLost).sdo = s.sdo := rfl
@[simp] theorem State.raiseTickLost_latch : (s.raiseTickLost).latch = s.latch := rfl
@[simp] theorem State.raiseTickLost_ie : (s.raiseTickLost).ie = s.ie := rfl
@[simp] theorem State.raiseTickLost_tickf : (s.raiseTickLost).tickf = s.tickf := rfl
@[simp] theorem State.raiseTickLost_serf : (s.raiseTickLost).serf = s.serf := rfl
@[simp] theorem State.raiseTickLost_tickEn : (s.raiseTickLost).tickEn = s.tickEn := rfl
@[simp] theorem State.raiseTickLost_pre : (s.raiseTickLost).pre = s.pre := rfl
@[simp] theorem State.raiseTickLost_tcnt : (s.raiseTickLost).tcnt = s.tcnt := rfl
@[simp] theorem State.raiseTickLost_sercfg : (s.raiseTickLost).sercfg = s.sercfg := rfl
@[simp] theorem State.raiseTickLost_txsr : (s.raiseTickLost).txsr = s.txsr := rfl
@[simp] theorem State.raiseTickLost_rxsr : (s.raiseTickLost).rxsr = s.rxsr := rfl
@[simp] theorem State.raiseTickLost_rxb : (s.raiseTickLost).rxb = s.rxb := rfl
@[simp] theorem State.raiseTickLost_bitcnt : (s.raiseTickLost).bitcnt = s.bitcnt := rfl
@[simp] theorem State.raiseTickLost_busy : (s.raiseTickLost).busy = s.busy := rfl
@[simp] theorem State.raiseTickLost_done : (s.raiseTickLost).done = s.done := rfl
@[simp] theorem State.raiseTickLost_xmode : (s.raiseTickLost).xmode = s.xmode := rfl
@[simp] theorem State.raiseTickLost_handler : (s.raiseTickLost).handler = s.handler := rfl
@[simp] theorem State.raiseTickLost_fg : (s.raiseTickLost).fg = s.fg := rfl
@[simp] theorem State.raiseTickLost_fltTickLost : (s.raiseTickLost).fltTickLost = true := rfl
@[simp] theorem State.raiseTickLost_fltMuxOvr : (s.raiseTickLost).fltMuxOvr = s.fltMuxOvr := rfl
@[simp] theorem State.raiseTickLost_fltTimeout : (s.raiseTickLost).fltTimeout = s.fltTimeout := rfl
@[simp] theorem State.raiseTickLost_halt : (s.raiseTickLost).halt = s.halt := rfl
@[simp] theorem State.raiseTickLost_srs : (s.raiseTickLost).srs = s.srs := rfl
@[simp] theorem State.raiseTickLost_seg : (s.raiseTickLost).seg = s.seg := rfl

/-! ### `State.raiseMuxOverrun` -/

@[simp] theorem State.raiseMuxOverrun_cfg : (s.raiseMuxOverrun).cfg = s.cfg := rfl
@[simp] theorem State.raiseMuxOverrun_trace : (s.raiseMuxOverrun).trace = s.trace := rfl
@[simp] theorem State.raiseMuxOverrun_out : (s.raiseMuxOverrun).out = s.out := rfl
@[simp] theorem State.raiseMuxOverrun_draws : (s.raiseMuxOverrun).draws = s.draws := rfl
@[simp] theorem State.raiseMuxOverrun_mem : (s.raiseMuxOverrun).mem = s.mem := rfl
@[simp] theorem State.raiseMuxOverrun_cur : (s.raiseMuxOverrun).cur = s.cur := rfl
@[simp] theorem State.raiseMuxOverrun_prev : (s.raiseMuxOverrun).prev = s.prev := rfl
@[simp] theorem State.raiseMuxOverrun_muxpend : (s.raiseMuxOverrun).muxpend = s.muxpend := rfl
@[simp] theorem State.raiseMuxOverrun_en : (s.raiseMuxOverrun).en = s.en := rfl
@[simp] theorem State.raiseMuxOverrun_sck : (s.raiseMuxOverrun).sck = s.sck := rfl
@[simp] theorem State.raiseMuxOverrun_sdo : (s.raiseMuxOverrun).sdo = s.sdo := rfl
@[simp] theorem State.raiseMuxOverrun_latch : (s.raiseMuxOverrun).latch = s.latch := rfl
@[simp] theorem State.raiseMuxOverrun_ie : (s.raiseMuxOverrun).ie = s.ie := rfl
@[simp] theorem State.raiseMuxOverrun_tickf : (s.raiseMuxOverrun).tickf = s.tickf := rfl
@[simp] theorem State.raiseMuxOverrun_serf : (s.raiseMuxOverrun).serf = s.serf := rfl
@[simp] theorem State.raiseMuxOverrun_tickEn : (s.raiseMuxOverrun).tickEn = s.tickEn := rfl
@[simp] theorem State.raiseMuxOverrun_pre : (s.raiseMuxOverrun).pre = s.pre := rfl
@[simp] theorem State.raiseMuxOverrun_tcnt : (s.raiseMuxOverrun).tcnt = s.tcnt := rfl
@[simp] theorem State.raiseMuxOverrun_sercfg : (s.raiseMuxOverrun).sercfg = s.sercfg := rfl
@[simp] theorem State.raiseMuxOverrun_txsr : (s.raiseMuxOverrun).txsr = s.txsr := rfl
@[simp] theorem State.raiseMuxOverrun_rxsr : (s.raiseMuxOverrun).rxsr = s.rxsr := rfl
@[simp] theorem State.raiseMuxOverrun_rxb : (s.raiseMuxOverrun).rxb = s.rxb := rfl
@[simp] theorem State.raiseMuxOverrun_bitcnt : (s.raiseMuxOverrun).bitcnt = s.bitcnt := rfl
@[simp] theorem State.raiseMuxOverrun_busy : (s.raiseMuxOverrun).busy = s.busy := rfl
@[simp] theorem State.raiseMuxOverrun_done : (s.raiseMuxOverrun).done = s.done := rfl
@[simp] theorem State.raiseMuxOverrun_xmode : (s.raiseMuxOverrun).xmode = s.xmode := rfl
@[simp] theorem State.raiseMuxOverrun_handler : (s.raiseMuxOverrun).handler = s.handler := rfl
@[simp] theorem State.raiseMuxOverrun_fg : (s.raiseMuxOverrun).fg = s.fg := rfl
@[simp] theorem State.raiseMuxOverrun_fltTickLost : (s.raiseMuxOverrun).fltTickLost = s.fltTickLost := rfl
@[simp] theorem State.raiseMuxOverrun_fltMuxOvr : (s.raiseMuxOverrun).fltMuxOvr = true := rfl
@[simp] theorem State.raiseMuxOverrun_fltTimeout : (s.raiseMuxOverrun).fltTimeout = s.fltTimeout := rfl
@[simp] theorem State.raiseMuxOverrun_halt : (s.raiseMuxOverrun).halt = true := rfl
@[simp] theorem State.raiseMuxOverrun_srs : (s.raiseMuxOverrun).srs = s.srs := rfl
@[simp] theorem State.raiseMuxOverrun_seg : (s.raiseMuxOverrun).seg = s.seg := rfl

/-! ### `State.raiseTimeout` -/

@[simp] theorem State.raiseTimeout_cfg : (s.raiseTimeout).cfg = s.cfg := rfl
@[simp] theorem State.raiseTimeout_trace : (s.raiseTimeout).trace = s.trace := rfl
@[simp] theorem State.raiseTimeout_out : (s.raiseTimeout).out = s.out := rfl
@[simp] theorem State.raiseTimeout_draws : (s.raiseTimeout).draws = s.draws := rfl
@[simp] theorem State.raiseTimeout_mem : (s.raiseTimeout).mem = s.mem := rfl
@[simp] theorem State.raiseTimeout_cur : (s.raiseTimeout).cur = s.cur := rfl
@[simp] theorem State.raiseTimeout_prev : (s.raiseTimeout).prev = s.prev := rfl
@[simp] theorem State.raiseTimeout_muxpend : (s.raiseTimeout).muxpend = s.muxpend := rfl
@[simp] theorem State.raiseTimeout_en : (s.raiseTimeout).en = s.en := rfl
@[simp] theorem State.raiseTimeout_sck : (s.raiseTimeout).sck = s.sck := rfl
@[simp] theorem State.raiseTimeout_sdo : (s.raiseTimeout).sdo = s.sdo := rfl
@[simp] theorem State.raiseTimeout_latch : (s.raiseTimeout).latch = s.latch := rfl
@[simp] theorem State.raiseTimeout_ie : (s.raiseTimeout).ie = s.ie := rfl
@[simp] theorem State.raiseTimeout_tickf : (s.raiseTimeout).tickf = s.tickf := rfl
@[simp] theorem State.raiseTimeout_serf : (s.raiseTimeout).serf = s.serf := rfl
@[simp] theorem State.raiseTimeout_tickEn : (s.raiseTimeout).tickEn = s.tickEn := rfl
@[simp] theorem State.raiseTimeout_pre : (s.raiseTimeout).pre = s.pre := rfl
@[simp] theorem State.raiseTimeout_tcnt : (s.raiseTimeout).tcnt = s.tcnt := rfl
@[simp] theorem State.raiseTimeout_sercfg : (s.raiseTimeout).sercfg = s.sercfg := rfl
@[simp] theorem State.raiseTimeout_txsr : (s.raiseTimeout).txsr = s.txsr := rfl
@[simp] theorem State.raiseTimeout_rxsr : (s.raiseTimeout).rxsr = s.rxsr := rfl
@[simp] theorem State.raiseTimeout_rxb : (s.raiseTimeout).rxb = s.rxb := rfl
@[simp] theorem State.raiseTimeout_bitcnt : (s.raiseTimeout).bitcnt = s.bitcnt := rfl
@[simp] theorem State.raiseTimeout_busy : (s.raiseTimeout).busy = s.busy := rfl
@[simp] theorem State.raiseTimeout_done : (s.raiseTimeout).done = s.done := rfl
@[simp] theorem State.raiseTimeout_xmode : (s.raiseTimeout).xmode = s.xmode := rfl
@[simp] theorem State.raiseTimeout_handler : (s.raiseTimeout).handler = s.handler := rfl
@[simp] theorem State.raiseTimeout_fg : (s.raiseTimeout).fg = s.fg := rfl
@[simp] theorem State.raiseTimeout_fltTickLost : (s.raiseTimeout).fltTickLost = s.fltTickLost := rfl
@[simp] theorem State.raiseTimeout_fltMuxOvr : (s.raiseTimeout).fltMuxOvr = s.fltMuxOvr := rfl
@[simp] theorem State.raiseTimeout_fltTimeout : (s.raiseTimeout).fltTimeout = true := rfl
@[simp] theorem State.raiseTimeout_halt : (s.raiseTimeout).halt = true := rfl
@[simp] theorem State.raiseTimeout_srs : (s.raiseTimeout).srs = s.srs := rfl
@[simp] theorem State.raiseTimeout_seg : (s.raiseTimeout).seg = s.seg := rfl

/-! ### `State.serStart` -/

@[simp] theorem State.serStart_cfg (b : Byte) (m : XferMode) : (s.serStart b m).cfg = s.cfg := rfl
@[simp] theorem State.serStart_trace (b : Byte) (m : XferMode) : (s.serStart b m).trace = s.trace := rfl
@[simp] theorem State.serStart_out (b : Byte) (m : XferMode) : (s.serStart b m).out = s.out := rfl
@[simp] theorem State.serStart_draws (b : Byte) (m : XferMode) : (s.serStart b m).draws = s.draws := rfl
@[simp] theorem State.serStart_mem (b : Byte) (m : XferMode) : (s.serStart b m).mem = s.mem := rfl
@[simp] theorem State.serStart_cur (b : Byte) (m : XferMode) : (s.serStart b m).cur = s.cur := rfl
@[simp] theorem State.serStart_prev (b : Byte) (m : XferMode) : (s.serStart b m).prev = s.prev := rfl
@[simp] theorem State.serStart_muxpend (b : Byte) (m : XferMode) : (s.serStart b m).muxpend = s.muxpend := rfl
@[simp] theorem State.serStart_en (b : Byte) (m : XferMode) : (s.serStart b m).en = s.en := rfl
@[simp] theorem State.serStart_sck (b : Byte) (m : XferMode) : (s.serStart b m).sck = s.sck := rfl
@[simp] theorem State.serStart_sdo (b : Byte) (m : XferMode) : (s.serStart b m).sdo = s.sdo := rfl
@[simp] theorem State.serStart_latch (b : Byte) (m : XferMode) : (s.serStart b m).latch = s.latch := rfl
@[simp] theorem State.serStart_ie (b : Byte) (m : XferMode) : (s.serStart b m).ie = s.ie := rfl
@[simp] theorem State.serStart_tickf (b : Byte) (m : XferMode) : (s.serStart b m).tickf = s.tickf := rfl
@[simp] theorem State.serStart_serf (b : Byte) (m : XferMode) : (s.serStart b m).serf = s.serf := rfl
@[simp] theorem State.serStart_tickEn (b : Byte) (m : XferMode) : (s.serStart b m).tickEn = s.tickEn := rfl
@[simp] theorem State.serStart_pre (b : Byte) (m : XferMode) : (s.serStart b m).pre = s.pre := rfl
@[simp] theorem State.serStart_tcnt (b : Byte) (m : XferMode) : (s.serStart b m).tcnt = s.tcnt := rfl
@[simp] theorem State.serStart_sercfg (b : Byte) (m : XferMode) : (s.serStart b m).sercfg = s.sercfg := rfl
@[simp] theorem State.serStart_txsr (b : Byte) (m : XferMode) : (s.serStart b m).txsr = b := rfl
@[simp] theorem State.serStart_rxsr (b : Byte) (m : XferMode) : (s.serStart b m).rxsr = 0 := rfl
@[simp] theorem State.serStart_rxb (b : Byte) (m : XferMode) : (s.serStart b m).rxb = s.rxb := rfl
@[simp] theorem State.serStart_bitcnt (b : Byte) (m : XferMode) : (s.serStart b m).bitcnt = 0 := rfl
@[simp] theorem State.serStart_busy (b : Byte) (m : XferMode) : (s.serStart b m).busy = true := rfl
@[simp] theorem State.serStart_done (b : Byte) (m : XferMode) : (s.serStart b m).done = false := rfl
@[simp] theorem State.serStart_xmode (b : Byte) (m : XferMode) : (s.serStart b m).xmode = m := rfl
@[simp] theorem State.serStart_handler (b : Byte) (m : XferMode) : (s.serStart b m).handler = s.handler := rfl
@[simp] theorem State.serStart_fg (b : Byte) (m : XferMode) : (s.serStart b m).fg = s.fg := rfl
@[simp] theorem State.serStart_fltTickLost (b : Byte) (m : XferMode) : (s.serStart b m).fltTickLost = s.fltTickLost := rfl
@[simp] theorem State.serStart_fltMuxOvr (b : Byte) (m : XferMode) : (s.serStart b m).fltMuxOvr = s.fltMuxOvr := rfl
@[simp] theorem State.serStart_fltTimeout (b : Byte) (m : XferMode) : (s.serStart b m).fltTimeout = s.fltTimeout := rfl
@[simp] theorem State.serStart_halt (b : Byte) (m : XferMode) : (s.serStart b m).halt = s.halt := rfl
@[simp] theorem State.serStart_srs (b : Byte) (m : XferMode) : (s.serStart b m).srs = s.srs := rfl
@[simp] theorem State.serStart_seg (b : Byte) (m : XferMode) : (s.serStart b m).seg = s.seg := rfl

/-! ### `State.countBit` -/

@[simp] theorem State.countBit_cfg (rx : Byte) : (s.countBit rx).cfg = s.cfg := rfl
@[simp] theorem State.countBit_trace (rx : Byte) : (s.countBit rx).trace = s.trace := rfl
@[simp] theorem State.countBit_out (rx : Byte) : (s.countBit rx).out = s.out := rfl
@[simp] theorem State.countBit_draws (rx : Byte) : (s.countBit rx).draws = s.draws := rfl
@[simp] theorem State.countBit_mem (rx : Byte) : (s.countBit rx).mem = s.mem := rfl
@[simp] theorem State.countBit_cur (rx : Byte) : (s.countBit rx).cur = s.cur := rfl
@[simp] theorem State.countBit_prev (rx : Byte) : (s.countBit rx).prev = s.prev := rfl
@[simp] theorem State.countBit_muxpend (rx : Byte) : (s.countBit rx).muxpend = s.muxpend := rfl
@[simp] theorem State.countBit_en (rx : Byte) : (s.countBit rx).en = s.en := rfl
@[simp] theorem State.countBit_sck (rx : Byte) : (s.countBit rx).sck = s.sck := rfl
@[simp] theorem State.countBit_sdo (rx : Byte) : (s.countBit rx).sdo = s.sdo := rfl
@[simp] theorem State.countBit_latch (rx : Byte) : (s.countBit rx).latch = s.latch := rfl
@[simp] theorem State.countBit_ie (rx : Byte) : (s.countBit rx).ie = s.ie := rfl
@[simp] theorem State.countBit_tickf (rx : Byte) : (s.countBit rx).tickf = s.tickf := rfl
@[simp] theorem State.countBit_serf (rx : Byte) : (s.countBit rx).serf = (if s.lastBit && s.xmode == .irq then true else s.serf) := rfl
@[simp] theorem State.countBit_tickEn (rx : Byte) : (s.countBit rx).tickEn = s.tickEn := rfl
@[simp] theorem State.countBit_pre (rx : Byte) : (s.countBit rx).pre = s.pre := rfl
@[simp] theorem State.countBit_tcnt (rx : Byte) : (s.countBit rx).tcnt = s.tcnt := rfl
@[simp] theorem State.countBit_sercfg (rx : Byte) : (s.countBit rx).sercfg = s.sercfg := rfl
@[simp] theorem State.countBit_txsr (rx : Byte) : (s.countBit rx).txsr = s.txsr := rfl
@[simp] theorem State.countBit_rxsr (rx : Byte) : (s.countBit rx).rxsr = s.rxsr := rfl
@[simp] theorem State.countBit_rxb (rx : Byte) : (s.countBit rx).rxb = (if s.lastBit then rx else s.rxb) := rfl
@[simp] theorem State.countBit_bitcnt (rx : Byte) : (s.countBit rx).bitcnt = (if s.lastBit then 0 else s.bitcnt + 1) := rfl
@[simp] theorem State.countBit_busy (rx : Byte) : (s.countBit rx).busy = (if s.lastBit then false else s.busy) := rfl
@[simp] theorem State.countBit_done (rx : Byte) : (s.countBit rx).done = (if s.lastBit then true else s.done) := rfl
@[simp] theorem State.countBit_xmode (rx : Byte) : (s.countBit rx).xmode = s.xmode := rfl
@[simp] theorem State.countBit_handler (rx : Byte) : (s.countBit rx).handler = s.handler := rfl
@[simp] theorem State.countBit_fg (rx : Byte) : (s.countBit rx).fg = s.fg := rfl
@[simp] theorem State.countBit_fltTickLost (rx : Byte) : (s.countBit rx).fltTickLost = s.fltTickLost := rfl
@[simp] theorem State.countBit_fltMuxOvr (rx : Byte) : (s.countBit rx).fltMuxOvr = s.fltMuxOvr := rfl
@[simp] theorem State.countBit_fltTimeout (rx : Byte) : (s.countBit rx).fltTimeout = s.fltTimeout := rfl
@[simp] theorem State.countBit_halt (rx : Byte) : (s.countBit rx).halt = s.halt := rfl
@[simp] theorem State.countBit_srs (rx : Byte) : (s.countBit rx).srs = s.srs := rfl
@[simp] theorem State.countBit_seg (rx : Byte) : (s.countBit rx).seg = s.seg := rfl

/-! ### `State.advance` -/

@[simp] theorem State.advance_cfg : (s.advance).cfg = s.cfg := rfl
@[simp] theorem State.advance_trace : (s.advance).trace = s.trace := rfl
@[simp] theorem State.advance_out : (s.advance).out = s.out := rfl
@[simp] theorem State.advance_draws : (s.advance).draws = s.draws := rfl
@[simp] theorem State.advance_mem : (s.advance).mem = s.mem := rfl
@[simp] theorem State.advance_cur : (s.advance).cur = s.cur + 1 := rfl
@[simp] theorem State.advance_prev : (s.advance).prev = some s.cur := rfl
@[simp] theorem State.advance_muxpend : (s.advance).muxpend = s.muxpend := rfl
@[simp] theorem State.advance_en : (s.advance).en = s.en := rfl
@[simp] theorem State.advance_sck : (s.advance).sck = s.sck := rfl
@[simp] theorem State.advance_sdo : (s.advance).sdo = s.sdo := rfl
@[simp] theorem State.advance_latch : (s.advance).latch = s.latch := rfl
@[simp] theorem State.advance_ie : (s.advance).ie = s.ie := rfl
@[simp] theorem State.advance_tickf : (s.advance).tickf = s.tickf := rfl
@[simp] theorem State.advance_serf : (s.advance).serf = s.serf := rfl
@[simp] theorem State.advance_tickEn : (s.advance).tickEn = s.tickEn := rfl
@[simp] theorem State.advance_pre : (s.advance).pre = s.pre := rfl
@[simp] theorem State.advance_tcnt : (s.advance).tcnt = s.tcnt := rfl
@[simp] theorem State.advance_sercfg : (s.advance).sercfg = s.sercfg := rfl
@[simp] theorem State.advance_txsr : (s.advance).txsr = s.txsr := rfl
@[simp] theorem State.advance_rxsr : (s.advance).rxsr = s.rxsr := rfl
@[simp] theorem State.advance_rxb : (s.advance).rxb = s.rxb := rfl
@[simp] theorem State.advance_bitcnt : (s.advance).bitcnt = s.bitcnt := rfl
@[simp] theorem State.advance_busy : (s.advance).busy = s.busy := rfl
@[simp] theorem State.advance_done : (s.advance).done = s.done := rfl
@[simp] theorem State.advance_xmode : (s.advance).xmode = s.xmode := rfl
@[simp] theorem State.advance_handler : (s.advance).handler = s.handler := rfl
@[simp] theorem State.advance_fg : (s.advance).fg = s.fg := rfl
@[simp] theorem State.advance_fltTickLost : (s.advance).fltTickLost = s.fltTickLost := rfl
@[simp] theorem State.advance_fltMuxOvr : (s.advance).fltMuxOvr = s.fltMuxOvr := rfl
@[simp] theorem State.advance_fltTimeout : (s.advance).fltTimeout = s.fltTimeout := rfl
@[simp] theorem State.advance_halt : (s.advance).halt = s.halt := rfl
@[simp] theorem State.advance_srs : (s.advance).srs = s.srs := rfl
@[simp] theorem State.advance_seg : (s.advance).seg = s.seg := rfl

/-! ### `State.enterInterrupt`, source `tick` -/

@[simp] theorem State.enterInterrupt_tick_cfg : (s.enterInterrupt .tick).cfg = s.cfg := rfl
@[simp] theorem State.enterInterrupt_tick_trace : (s.enterInterrupt .tick).trace = s.trace := rfl
@[simp] theorem State.enterInterrupt_tick_out : (s.enterInterrupt .tick).out = s.out := rfl
@[simp] theorem State.enterInterrupt_tick_draws : (s.enterInterrupt .tick).draws = s.draws := rfl
@[simp] theorem State.enterInterrupt_tick_mem : (s.enterInterrupt .tick).mem = s.mem := rfl
@[simp] theorem State.enterInterrupt_tick_cur : (s.enterInterrupt .tick).cur = s.cur := rfl
@[simp] theorem State.enterInterrupt_tick_prev : (s.enterInterrupt .tick).prev = s.prev := rfl
@[simp] theorem State.enterInterrupt_tick_muxpend : (s.enterInterrupt .tick).muxpend = s.muxpend := rfl
@[simp] theorem State.enterInterrupt_tick_en : (s.enterInterrupt .tick).en = s.en := rfl
@[simp] theorem State.enterInterrupt_tick_sck : (s.enterInterrupt .tick).sck = s.sck := rfl
@[simp] theorem State.enterInterrupt_tick_sdo : (s.enterInterrupt .tick).sdo = s.sdo := rfl
@[simp] theorem State.enterInterrupt_tick_latch : (s.enterInterrupt .tick).latch = s.latch := rfl
@[simp] theorem State.enterInterrupt_tick_ie : (s.enterInterrupt .tick).ie = false := rfl
@[simp] theorem State.enterInterrupt_tick_tickf : (s.enterInterrupt .tick).tickf = false := rfl
@[simp] theorem State.enterInterrupt_tick_serf : (s.enterInterrupt .tick).serf = s.serf := rfl
@[simp] theorem State.enterInterrupt_tick_tickEn : (s.enterInterrupt .tick).tickEn = s.tickEn := rfl
@[simp] theorem State.enterInterrupt_tick_pre : (s.enterInterrupt .tick).pre = s.pre := rfl
@[simp] theorem State.enterInterrupt_tick_tcnt : (s.enterInterrupt .tick).tcnt = s.tcnt := rfl
@[simp] theorem State.enterInterrupt_tick_sercfg : (s.enterInterrupt .tick).sercfg = s.sercfg := rfl
@[simp] theorem State.enterInterrupt_tick_txsr : (s.enterInterrupt .tick).txsr = s.txsr := rfl
@[simp] theorem State.enterInterrupt_tick_rxsr : (s.enterInterrupt .tick).rxsr = s.rxsr := rfl
@[simp] theorem State.enterInterrupt_tick_rxb : (s.enterInterrupt .tick).rxb = s.rxb := rfl
@[simp] theorem State.enterInterrupt_tick_bitcnt : (s.enterInterrupt .tick).bitcnt = s.bitcnt := rfl
@[simp] theorem State.enterInterrupt_tick_busy : (s.enterInterrupt .tick).busy = s.busy := rfl
@[simp] theorem State.enterInterrupt_tick_done : (s.enterInterrupt .tick).done = s.done := rfl
@[simp] theorem State.enterInterrupt_tick_xmode : (s.enterInterrupt .tick).xmode = s.xmode := rfl
@[simp] theorem State.enterInterrupt_tick_handler : (s.enterInterrupt .tick).handler = s.handler := rfl
@[simp] theorem State.enterInterrupt_tick_fg : (s.enterInterrupt .tick).fg = s.fg := rfl
@[simp] theorem State.enterInterrupt_tick_fltTickLost : (s.enterInterrupt .tick).fltTickLost = s.fltTickLost := rfl
@[simp] theorem State.enterInterrupt_tick_fltMuxOvr : (s.enterInterrupt .tick).fltMuxOvr = s.fltMuxOvr := rfl
@[simp] theorem State.enterInterrupt_tick_fltTimeout : (s.enterInterrupt .tick).fltTimeout = s.fltTimeout := rfl
@[simp] theorem State.enterInterrupt_tick_halt : (s.enterInterrupt .tick).halt = s.halt := rfl
@[simp] theorem State.enterInterrupt_tick_srs : (s.enterInterrupt .tick).srs = s.srs := rfl
@[simp] theorem State.enterInterrupt_tick_seg : (s.enterInterrupt .tick).seg = s.seg := rfl

/-! ### `State.enterInterrupt`, source `ser` -/

@[simp] theorem State.enterInterrupt_ser_cfg : (s.enterInterrupt .ser).cfg = s.cfg := rfl
@[simp] theorem State.enterInterrupt_ser_trace : (s.enterInterrupt .ser).trace = s.trace := rfl
@[simp] theorem State.enterInterrupt_ser_out : (s.enterInterrupt .ser).out = s.out := rfl
@[simp] theorem State.enterInterrupt_ser_draws : (s.enterInterrupt .ser).draws = s.draws := rfl
@[simp] theorem State.enterInterrupt_ser_mem : (s.enterInterrupt .ser).mem = s.mem := rfl
@[simp] theorem State.enterInterrupt_ser_cur : (s.enterInterrupt .ser).cur = s.cur := rfl
@[simp] theorem State.enterInterrupt_ser_prev : (s.enterInterrupt .ser).prev = s.prev := rfl
@[simp] theorem State.enterInterrupt_ser_muxpend : (s.enterInterrupt .ser).muxpend = s.muxpend := rfl
@[simp] theorem State.enterInterrupt_ser_en : (s.enterInterrupt .ser).en = s.en := rfl
@[simp] theorem State.enterInterrupt_ser_sck : (s.enterInterrupt .ser).sck = s.sck := rfl
@[simp] theorem State.enterInterrupt_ser_sdo : (s.enterInterrupt .ser).sdo = s.sdo := rfl
@[simp] theorem State.enterInterrupt_ser_latch : (s.enterInterrupt .ser).latch = s.latch := rfl
@[simp] theorem State.enterInterrupt_ser_ie : (s.enterInterrupt .ser).ie = false := rfl
@[simp] theorem State.enterInterrupt_ser_tickf : (s.enterInterrupt .ser).tickf = s.tickf := rfl
@[simp] theorem State.enterInterrupt_ser_serf : (s.enterInterrupt .ser).serf = false := rfl
@[simp] theorem State.enterInterrupt_ser_tickEn : (s.enterInterrupt .ser).tickEn = s.tickEn := rfl
@[simp] theorem State.enterInterrupt_ser_pre : (s.enterInterrupt .ser).pre = s.pre := rfl
@[simp] theorem State.enterInterrupt_ser_tcnt : (s.enterInterrupt .ser).tcnt = s.tcnt := rfl
@[simp] theorem State.enterInterrupt_ser_sercfg : (s.enterInterrupt .ser).sercfg = s.sercfg := rfl
@[simp] theorem State.enterInterrupt_ser_txsr : (s.enterInterrupt .ser).txsr = s.txsr := rfl
@[simp] theorem State.enterInterrupt_ser_rxsr : (s.enterInterrupt .ser).rxsr = s.rxsr := rfl
@[simp] theorem State.enterInterrupt_ser_rxb : (s.enterInterrupt .ser).rxb = s.rxb := rfl
@[simp] theorem State.enterInterrupt_ser_bitcnt : (s.enterInterrupt .ser).bitcnt = s.bitcnt := rfl
@[simp] theorem State.enterInterrupt_ser_busy : (s.enterInterrupt .ser).busy = s.busy := rfl
@[simp] theorem State.enterInterrupt_ser_done : (s.enterInterrupt .ser).done = s.done := rfl
@[simp] theorem State.enterInterrupt_ser_xmode : (s.enterInterrupt .ser).xmode = s.xmode := rfl
@[simp] theorem State.enterInterrupt_ser_handler : (s.enterInterrupt .ser).handler = s.handler := rfl
@[simp] theorem State.enterInterrupt_ser_fg : (s.enterInterrupt .ser).fg = s.fg := rfl
@[simp] theorem State.enterInterrupt_ser_fltTickLost : (s.enterInterrupt .ser).fltTickLost = s.fltTickLost := rfl
@[simp] theorem State.enterInterrupt_ser_fltMuxOvr : (s.enterInterrupt .ser).fltMuxOvr = s.fltMuxOvr := rfl
@[simp] theorem State.enterInterrupt_ser_fltTimeout : (s.enterInterrupt .ser).fltTimeout = s.fltTimeout := rfl
@[simp] theorem State.enterInterrupt_ser_halt : (s.enterInterrupt .ser).halt = s.halt := rfl
@[simp] theorem State.enterInterrupt_ser_srs : (s.enterInterrupt .ser).srs = s.srs := rfl
@[simp] theorem State.enterInterrupt_ser_seg : (s.enterInterrupt .ser).seg = s.seg := rfl

end Sys2Proof.Machine
end

