-- ==== Sys2Proof/Laws/Ops.lean ====
section
/-!
SUPPORT. For each shared operation one lemma that says once everything it can do: closed forms of the
operations on lines and flags, and inversion lemmas of the guards around a meaning.
-/

namespace Sys2Proof.Machine

/-! ### Guards around a meaning -/

/-- A command that takes a step was accepted, and was answered `Halted` or ran its own rule. -/
theorem acceptCommand_next {s t : State} {body : State → Result}
    (h : acceptCommand s body = .next t) :
    s.fg = .idle ∧ ((s.halt = true ∧ t = s.respond .halted 0) ∨ (s.halt = false ∧ body s = .next t)) := by
  unfold acceptCommand at h
  split at h
  · next hfg =>
    refine ⟨hfg, ?_⟩
    cases hh : s.halt <;> simp_all [raiseError]
  · cases h
  · cases h

theorem acceptCommand_idle {s : State} {body : State → Result} (hfg : s.fg = .idle)
    (hh : s.halt = false) : acceptCommand s body = body s := by
  simp [acceptCommand, hfg, hh]

theorem acceptCommand_halted {s : State} {body : State → Result} (hfg : s.fg = .idle)
    (hh : s.halt = true) : acceptCommand s body = .next (s.respond .halted 0) := by
  simp [acceptCommand, hfg, hh, raiseError]

theorem acceptCommand_busy {s : State} {body : State → Result} (hfg : s.fg ≠ .idle) :
    acceptCommand s body = .refused .foregroundBusy := by
  unfold acceptCommand
  split <;> simp_all

/-- An illegal command word that takes a step is answered 0x03 and changes nothing else. -/
theorem illegalCommand_next {s t : State} (h : illegalCommand s = .next t) :
    s.fg = .idle ∧ t = s.respond .illegalCommand 0 := by
  unfold illegalCommand at h
  split at h
  · next hfg => exact ⟨hfg, by simpa [raiseError] using h.symm⟩
  · cases h
  · cases h

theorem whenEnabled_next {e : Bool} {s t : State} {body : State → Result}
    (h : whenEnabled e s body = .next t) : e = true ∧ body s = .next t := by
  cases e <;> simp_all [whenEnabled]

@[simp] theorem whenEnabled_true (s : State) (body : State → Result) :
    whenEnabled true s body = body s := rfl

@[simp] theorem whenEnabled_false (s : State) (body : State → Result) :
    whenEnabled false s body = .refused .eventNotEnabled := rfl

/-- An interrupt that is taken was enabled, pending and not frozen, and is entry, body and return. -/
theorem takeInterrupt_next {src : IrqSource} {f : State → State} {s t : State}
    (h : takeInterrupt src f s = .next t) :
    s.ie = true ∧ s.pending src = true ∧ s.halt = false ∧
      t = (f (s.enterInterrupt src)).returnFromInterrupt := by
  obtain ⟨he, hb⟩ := whenEnabled_next h
  simp only [Bool.and_eq_true, Bool.not_eq_true'] at he
  exact ⟨he.1.1, he.1.2, he.2, by simpa using hb.symm⟩

theorem takeInterrupt_taken {src : IrqSource} {f : State → State} {s : State} (hie : s.ie = true)
    (hp : s.pending src = true) (hh : s.halt = false) :
    takeInterrupt src f s = .next (f (s.enterInterrupt src)).returnFromInterrupt := by
  simp [takeInterrupt, hie, hp, hh]

/-- A transmit command that takes a step was refused for one of its two errors or ran. -/
theorem whenSerialReady_next {s t : State} {body : State → Result}
    (h : whenSerialReady s body = .next t) :
    (s.sercfg = none ∧ t = s.respond .notConfigured 0) ∨
    (s.sercfg.isSome = true ∧ s.busy = true ∧ t = s.respond .serialBusy 0) ∨
    (s.sercfg.isSome = true ∧ s.busy = false ∧ body s = .next t) := by
  unfold whenSerialReady at h
  cases hc : s.sercfg <;> cases hb : s.busy <;> simp_all [raiseError]

theorem whenSerialReady_unconfigured {s : State} {body : State → Result} (hc : s.sercfg = none) :
    whenSerialReady s body = .next (s.respond .notConfigured 0) := by
  simp [whenSerialReady, hc, raiseError]

theorem whenSerialReady_busy {s : State} {body : State → Result} (hc : s.sercfg ≠ none)
    (hb : s.busy = true) : whenSerialReady s body = .next (s.respond .serialBusy 0) := by
  simp [whenSerialReady, hc, hb, raiseError]

theorem whenSerialReady_ready {s : State} {body : State → Result} (hc : s.sercfg ≠ none)
    (hb : s.busy = false) : whenSerialReady s body = body s := by
  simp [whenSerialReady, hc, hb]

/-! ### Lines -/

theorem State.latchPulse_eq (s : State) (h : s.latch = false) :
    s.latchPulse = { s with
      seg := latched s.cfg.dispOrder s.srs
      out := s.out ++ [.out .latch true, .out .latch false] } := by
  cases s
  simp_all [State.latchPulse, State.driveLatch]

theorem State.deassertPrev_eq (s : State) :
    s.deassertPrev = { s with en := enWithout s.en s.prev, out := s.out ++ deassertOut s.prev } := by
  obtain ⟨_ | p, hp⟩ : ∃ q, s.prev = q := ⟨_, rfl⟩ <;>
    cases s <;> simp_all [State.deassertPrev, enWithout, deassertOut, State.enDeassert]

/-- Steps 3 (its end) to 5 of the transition, from a low latch line. -/
theorem State.presentDigit_eq (s : State) (h : s.latch = false) :
    s.presentDigit = { s with
      seg := latched s.cfg.dispOrder s.srs
      en := enWithout (s.en ||| enMask s.cur) s.prev
      prev := some s.cur
      cur := s.cur + 1
      out := s.out ++ presentOut s.cur ++ deassertOut s.prev } := by
  simp [State.presentDigit, State.latchPulse_eq s h, State.enAssert, State.deassertPrev_eq,
    State.advance, presentOut]

theorem State.sckToIdle_eq (s : State) :
    s.sckToIdle = { s with sck := false, out := s.out ++ if s.sck then [.out .sck false] else [] } := by
  cases hs : s.sck
  · cases s; simp_all [State.sckToIdle]
  · simp [State.sckToIdle, hs, State.driveSck, State.setSck, State.risingTo]

/-- One bit of the bit-banged transmitter, from a low clock. -/
theorem State.bbBit_eq (s : State) (bit : Bool) (h : s.sck = false) :
    ((s.driveSdo bit).driveSck true).driveSck false = { s with
      sdo := bit
      srs := shiftUp s.srs bit
      out := s.out ++ bitBangPulse bit } := by
  cases s
  simp_all [State.driveSdo, State.driveSck, State.setSck, State.risingTo, State.sampledBit, bitBangPulse]

/-- `BB_XMIT(b)`: what it leaves on the lines, in the shift stage and in the line trace, and that it changes
nothing else. -/
theorem State.bbXmit_eq (s : State) (b : Byte) :
    s.bbXmit b = { s with
      sck := false
      sdo := sendBit s.cfg.dispOrder b 7
      srs := (bitsOut s.cfg.dispOrder b).foldl shiftUp s.srs
      out := s.out ++ (if s.sck then [.out .sck false] else []) ++ bitBangOut s.cfg.dispOrder b } := by
  rw [State.bbXmit, State.sckToIdle_eq]
  simp [State.bbBits, State.bbBit_eq, bitsOut, bitBangOut, List.range_succ]

/-- The bit trace of the serial unit: the lines, the shift stage and the line trace; nothing else changes but
the count of draws. -/
theorem State.bitTrace_eq (s : State) (c : SerCfg) (bit : Bool) :
    s.bitTrace c bit = { s with
      sck := c.cpol
      sdo := bit
      srs := if c.cpol || !s.sck then
          shiftUp s.srs (if !c.cpol && c.cpha then Config.freeBit s.draws else bit)
        else s.srs
      draws := if !c.cpol && c.cpha && !s.sck then s.draws + 1 else s.draws
      out := s.out ++ bitTraceOut c bit } := by
  obtain ⟨role, order, cpol, cpha⟩ := c
  cases hs : s.sck <;> cases role <;> cases cpol <;> cases cpha <;>
    simp [State.bitTrace, State.clockTo, State.setSck, State.driveSdo, State.risingTo,
      State.sampledBit, bitTraceOut, clockOut, hs]

/-! ### Flags and timer -/

/-- An event of a tick source is a step when `TICK_EN = 1` and the model takes its ticks from that source. -/
theorem State.ticksFrom_iff {s : State} {src : TickSource} :
    s.ticksFrom src = true ↔ s.tickEn = true ∧ s.cfg.tickSource = src := by
  simp [State.ticksFrom]

theorem State.timerFires_eq (s : State) :
    s.timerFires = { s with tickf := true, fltTickLost := s.fltTickLost || s.tickf } := by
  cases s
  simp only [State.timerFires, State.raiseTickLost]
  split <;> simp_all

/-- One clock of the timer: it only counts, or it counts and wraps, or it also fires. -/
theorem State.clockTimer_cases (s : State) :
    (s.pre + 1 ≠ 0 ∧ s.clockTimer = { s with pre := s.pre + 1 }) ∨
    (s.pre + 1 = 0 ∧ (s.tcnt + 1) % s.cfg.timerPeriod ≠ 0 ∧
      s.clockTimer = { s with pre := 0, tcnt := (s.tcnt + 1) % s.cfg.timerPeriod }) ∨
    (s.pre + 1 = 0 ∧ (s.tcnt + 1) % s.cfg.timerPeriod = 0 ∧
      s.clockTimer = { s with
        pre := 0, tcnt := 0, tickf := true, fltTickLost := s.fltTickLost || s.tickf }) := by
  by_cases hp : s.pre + 1 = 0
  · by_cases ht : (s.tcnt + 1) % s.cfg.timerPeriod = 0
    · right; right
      exact ⟨hp, ht, by simp only [State.clockTimer, hp, ht, if_true, State.timerFires_eq]⟩
    · right; left; exact ⟨hp, ht, by simp only [State.clockTimer, hp, ht, if_true, if_false]⟩
  · left; exact ⟨hp, by simp only [State.clockTimer, hp, if_false]⟩

/-! ### The foreground's micro-steps -/

/-- A store step makes its one store and goes on with the next, or ends the command. -/
theorem State.storeStep_cases (s : State) (i : Slot) (b : Byte) (rest : List (Slot × Byte)) (saved : Bool) :
    (∃ j c rest', rest = (j, c) :: rest' ∧
      s.storeStep i b rest saved = { s with
        mem := Memory.write s.mem i.toNat b, fg := .writing j c rest' saved }) ∨
    (rest = [] ∧ s.storeStep i b rest saved = { s with
        mem := Memory.write s.mem i.toNat b
        ie := if s.cfg.atomicUpdate then saved else s.ie
        fg := .idle
        out := s.out ++ [.response (responseWord .ok 0)] }) := by
  cases rest with
  | nil => exact .inr ⟨rfl, rfl⟩
  | cons x rest => exact .inl ⟨x.1, x.2, rest, rfl, rfl⟩

/-- A poll counts, or exceeds the bound and ends the command with `HardwareTimeout`. -/
theorem State.spinPoll_cases (s : State) (saved : Bool) (n : Nat) :
    (limitReached s.cfg.bwLimit n = false ∧ s.spinPoll saved n = { s with fg := .spin saved (n + 1) }) ∨
    (limitReached s.cfg.bwLimit n = true ∧ s.spinPoll saved n = { s with
        fltTimeout := true, halt := true, ie := saved, fg := .idle
        out := s.out ++ [.response (responseWord .hardwareTimeout 0)] }) := by
  cases h : limitReached s.cfg.bwLimit n
  · exact .inl ⟨rfl, by simp [State.spinPoll, h]⟩
  · exact .inr ⟨rfl, by simp [State.spinPoll, h, State.respond, State.emit, State.raiseTimeout]⟩

/-! ### The multiplexer -/

/-- The `SYNC` body, from a low latch line: an overrun, a skipped slot, or a digit sent and presented. -/
theorem State.tickBodySync_cases (s : State) (h : s.latch = false) :
    (s.busy = true ∧ s.tickBodySync = s.raiseMuxOverrun) ∨
    (s.busy = false ∧ s.pat s.cur = none ∧ s.tickBodySync = s.deassertPrev.advance) ∨
    (∃ p, s.busy = false ∧ s.pat s.cur = some p ∧ s.tickBodySync = { s with
      sck := false
      sdo := sendBit s.cfg.dispOrder p 7
      srs := (bitsOut s.cfg.dispOrder p).foldl shiftUp s.srs
      seg := latched s.cfg.dispOrder ((bitsOut s.cfg.dispOrder p).foldl shiftUp s.srs)
      en := enWithout (s.en ||| enMask s.cur) s.prev
      prev := some s.cur
      cur := s.cur + 1
      out := s.out ++ (if s.sck then [.out .sck false] else []) ++ bitBangOut s.cfg.dispOrder p ++
        presentOut s.cur ++ deassertOut s.prev }) := by
  cases hb : s.busy
  · cases hp : s.pat s.cur with
    | none => exact .inr (.inl ⟨rfl, rfl, by simp [State.tickBodySync, hb, hp]⟩)
    | some p =>
      refine .inr (.inr ⟨p, rfl, rfl, ?_⟩)
      simp only [State.tickBodySync, hb, hp, State.bbXmit_eq]
      exact State.presentDigit_eq _ h
  · exact .inl ⟨rfl, by simp [State.tickBodySync, hb]⟩

/-- The `ASYNC` body: an overrun, a skipped slot, or a transfer started for the completion to finish. -/
theorem State.tickBodyAsync_cases (s : State) :
    ((s.busy = true ∨ s.muxpend = true) ∧ s.tickBodyAsync = s.raiseMuxOverrun) ∨
    (s.busy = false ∧ s.muxpend = false ∧ s.pat s.cur = none ∧
      s.tickBodyAsync = s.deassertPrev.advance) ∨
    (∃ p, s.busy = false ∧ s.muxpend = false ∧ s.pat s.cur = some p ∧ s.tickBodyAsync = { s with
      handler := .mux, muxpend := true
      txsr := p, rxsr := 0, bitcnt := 0, busy := true, done := false, xmode := .irq }) := by
  cases hb : s.busy
  · cases hm : s.muxpend
    · cases hp : s.pat s.cur with
      | none => exact .inr (.inl ⟨rfl, rfl, rfl, by simp [State.tickBodyAsync, hb, hm, hp]⟩)
      | some p =>
        exact .inr (.inr ⟨p, rfl, rfl, rfl, by simp [State.tickBodyAsync, hb, hm, hp, State.serStart]⟩)
    · exact .inl ⟨.inr rfl, by simp [State.tickBodyAsync, hm]⟩
  · exact .inl ⟨.inl rfl, by simp [State.tickBodyAsync, hb]⟩

/-- The completion dispatch, from a low latch line: nothing, the multiplexer's end of a tick, or the host's
notification. -/
theorem State.dispatch_cases (s : State) (h : s.latch = false) :
    (s.dispatch = s ∧ (s.handler = .none ∨ (s.handler = .mux ∧ s.muxpend = false))) ∨
    (s.handler = .host ∧ s.dispatch = { s with out := s.out ++ [.notifyHost] }) ∨
    (s.handler = .mux ∧ s.muxpend = true ∧ s.dispatch = { s with
      muxpend := false
      seg := latched s.cfg.dispOrder s.srs
      en := enWithout (s.en ||| enMask s.cur) s.prev
      prev := some s.cur
      cur := s.cur + 1
      out := s.out ++ presentOut s.cur ++ deassertOut s.prev }) := by
  cases hh : s.handler
  · exact .inl ⟨by simp [State.dispatch, hh], .inl rfl⟩
  · cases hm : s.muxpend
    · exact .inl ⟨by simp [State.dispatch, hh, State.muxDone, hm], .inr ⟨rfl, rfl⟩⟩
    · refine .inr (.inr ⟨rfl, rfl, ?_⟩)
      simp only [State.dispatch, hh, State.muxDone, hm, if_true]
      exact State.presentDigit_eq _ h
  · exact .inr (.inl ⟨rfl, by simp [State.dispatch, hh, State.emit]⟩)

/-- The `SER_STEP` of a configured unit. -/
theorem State.shiftBit_eq (s : State) (c : SerCfg) (sdi : Bool) :
    s.shiftBit c sdi = ({ s.bitTrace c (nextBit c.order s.txsr) with
      txsr := txAfter c.order s.txsr
      rxsr := rxAfter c.order s.rxsr sdi } : State).countBit (rxAfter c.order s.rxsr sdi) := rfl

end Sys2Proof.Machine
end

