-- ==== Sys2Proof/Laws/Exec.lean ====
section
/-!
SUPPORT. Each operation's meaning as its guard and its body, for the lemmas of Laws/Ops.lean to take apart.
-/

namespace Sys2Proof.Machine

variable (s : State)

theorem exec_dispInit : exec .dispInit s = acceptCommand s fun s =>
    if s.tickEn then .next (s.respond .ok 0x00)
    else if s.cfg.variant == .async && s.busy then raiseError .serialBusy s
    else .next (s.startTimer.configureDisplay.respond .ok 0x00) := rfl

theorem exec_patWrite (i : Slot) (b : Byte) : exec (.patWrite i b) s = acceptCommand s fun s =>
    .next ((s.writeSlot i b).respond .ok 0x00) := rfl

theorem exec_dispValue (n : BitVec 3) (v : Nat) : exec (.dispValue n v) s = acceptCommand s fun s =>
    match decimalsOperand s.cfg.decimalsPolicy n.toNat with
    | none => raiseError .invalidArgument s
    | some k => .next (s.beginWriting (encodeDigits s.cfg v k)) := rfl

theorem exec_serConfig_controller (q : BitOrder) (l p : Bool) :
    exec (.serConfig .controller q l p) s = acceptCommand s fun s =>
      if s.busy then raiseError .serialBusy s
      else .next ((({ s with sercfg := some ⟨.controller, q, l, p⟩ } : State).driveSck l).respond .ok 0x00) := rfl

theorem exec_serConfig_peripheral (q : BitOrder) (l p : Bool) :
    exec (.serConfig .peripheral q l p) s = acceptCommand s fun s =>
      if s.busy then raiseError .serialBusy s
      else .next (({ s with sercfg := some ⟨.peripheral, q, l, p⟩ } : State).respond .ok 0x00) := rfl

theorem exec_serXmitBw (b : Byte) : exec (.serXmitBw b) s = acceptCommand s fun s =>
    whenSerialReady s fun s =>
      .next { ({ s with ie := false } : State).serStart b .bw with fg := .spin s.ie 0 } := rfl

theorem exec_serXmitIrq (b : Byte) : exec (.serXmitIrq b) s = acceptCommand s fun s =>
    whenSerialReady s fun s => .next ((s.serStart b .irq).respond .ok 0x00) := rfl

theorem exec_serSetHandler_three : exec (.serSetHandler 3) s = illegalCommand s := rfl

theorem exec_serSetHandler {h : BitVec 2} {target : Handler} (ht : handlerOperand h = some target) :
    exec (.serSetHandler h) s =
      acceptCommand s fun s => .next (({ s with handler := target } : State).respond .ok 0x00) := by
  simp only [exec, execSerSetHandler, ht]

theorem exec_intEnable : exec .intEnable s = acceptCommand s fun s =>
    .next (({ s with ie := true } : State).respond .ok 0x00) := rfl

theorem exec_intDisable : exec .intDisable s = acceptCommand s fun s =>
    .next (({ s with ie := false } : State).respond .ok 0x00) := rfl

theorem exec_reset : exec .reset s = .next s.afterReset := rfl

theorem exec_tmrTick : exec .tmrTick s = whenEnabled (s.ticksFrom .event) s fun s => .next s.timerFires := rfl

theorem exec_irqTick : exec .irqTick s = takeInterrupt .tick State.tickBody s := rfl

theorem exec_serStep (sdi : Bool) : exec (.serStep sdi) s = whenEnabled s.busy s fun s =>
    match s.sercfg with
    | some c => .next (s.shiftBit c sdi)
    | none => .refused .serialUnconfigured := rfl

theorem exec_serStep_configured {s : State} {c : SerCfg} (sdi : Bool) (hb : s.busy = true)
    (hc : s.sercfg = some c) : exec (.serStep sdi) s = .next (s.shiftBit c sdi) := by
  simp only [exec_serStep, hb, whenEnabled_true, hc]

theorem exec_irqSer : exec .irqSer s = takeInterrupt .ser State.dispatch s := rfl

theorem exec_serGlitch : exec .serGlitch s = whenEnabled (!s.busy) s fun s => .next { s with serf := true } := rfl

theorem exec_clk : exec .clk s = whenEnabled (s.ticksFrom .clock) s fun s => .next s.clockTimer := rfl

theorem exec_tmrTick_enabled {s : State} (h : s.tickEn = true) (hsrc : s.cfg.tickSource = .event) :
    exec .tmrTick s = .next s.timerFires := by
  rw [exec_tmrTick, State.ticksFrom_iff.2 ⟨h, hsrc⟩, whenEnabled_true]

theorem exec_clk_enabled {s : State} (h : s.tickEn = true) (hsrc : s.cfg.tickSource = .clock) :
    exec .clk s = .next s.clockTimer := by
  rw [exec_clk, State.ticksFrom_iff.2 ⟨h, hsrc⟩, whenEnabled_true]

theorem exec_irqTick_taken {s : State} (hie : s.ie = true) (hp : s.tickf = true) (hh : s.halt = false) :
    exec .irqTick s = .next (s.enterInterrupt .tick).tickBody.returnFromInterrupt := by
  exact takeInterrupt_taken (src := .tick) hie hp hh

theorem exec_irqSer_taken {s : State} (hie : s.ie = true) (hp : s.serf = true) (hh : s.halt = false) :
    exec .irqSer s = .next (s.enterInterrupt .ser).dispatch.returnFromInterrupt := by
  exact takeInterrupt_taken (src := .ser) hie hp hh

theorem exec_fgStep_writing {s : State} {i : Slot} {b : Byte} {rest : List (Slot × Byte)} {saved : Bool}
    (h : s.fg = .writing i b rest saved) : exec .fgStep s = .next (s.storeStep i b rest saved) := by
  simp only [exec, execFgStep, h]

theorem exec_fgStep_poll {s : State} {saved : Bool} {n : Nat} (h : s.fg = .spin saved n)
    (hd : s.done = false) : exec .fgStep s = .next (s.spinPoll saved n) := by
  simp only [exec, execFgStep, h, hd]; rfl

theorem exec_fgStep_end {s : State} {saved : Bool} {n : Nat} (h : s.fg = .spin saved n)
    (hd : s.done = true) : exec .fgStep s = .next (s.spinEnd saved) := by
  simp only [exec, execFgStep, h, hd, if_true]

theorem exec_fgStep_idle {s : State} (h : s.fg = .idle) :
    exec .fgStep s = .refused .eventNotEnabled := by
  simp only [exec, execFgStep, h]

end Sys2Proof.Machine
end

