-- ==== Sys2Proof/Laws/Effect.lean ====
section
/-!
SUPPORT. What a step of each operation can do, said once: every next state of `exec`, in closed form and with
what held before it.
-/

namespace Sys2Proof.Machine

/-- The end of a tick that sent a byte, from any level of the latch line. -/
theorem State.presentDigit_any (s : State) :
    s.presentDigit = { s with
      latch := false
      seg := if s.latch then s.seg else latched s.cfg.dispOrder s.srs
      en := enWithout (s.en ||| enMask s.cur) s.prev
      prev := some s.cur
      cur := s.cur + 1
      out := s.out ++ presentOut s.cur ++ deassertOut s.prev } := by
  cases h : s.latch <;>
    simp [State.presentDigit, State.latchPulse, State.driveLatch, h, State.enAssert, State.deassertPrev_eq,
      State.advance, presentOut]

/-- Every way in which operation `i` can take `s` to a next state. -/
inductive Effect (s : State) : Instr → State → Prop where
  /-- a command answered without any other change: an error, or `DISP_INIT` again -/
  | answered {i : Instr} (st : Status) (hi : i.isCommand = true) (hfg : s.fg = .idle) :
      Effect s i { s with out := s.out ++ [.response (responseWord st 0)] }
  | initSync (hfg : s.fg = .idle) (hh : s.halt = false) (ht : s.tickEn = false) (hv : s.cfg.variant = .sync) :
      Effect s .dispInit { s with
        tickEn := true, pre := 0, tcnt := 0, out := s.out ++ [.response (responseWord .ok 0)] }
  | initAsync (hfg : s.fg = .idle) (hh : s.halt = false) (ht : s.tickEn = false)
      (hv : s.cfg.variant = .async) (hb : s.busy = false) :
      Effect s .dispInit { s with
        tickEn := true, pre := 0, tcnt := 0
        sercfg := some ⟨.controller, s.cfg.dispOrder, false, false⟩, sck := false
        out := s.out ++ (if s.sck then [.out .sck false] else []) ++ [.response (responseWord .ok 0)] }
  | patWrite (k : Slot) (b : Byte) (hfg : s.fg = .idle) (hh : s.halt = false) :
      Effect s (.patWrite k b) { s with
        mem := Memory.write s.mem k.toNat b, out := s.out ++ [.response (responseWord .ok 0)] }
  | dispValue (n : BitVec 3) (v : Nat) (e : Vector Byte 4) (hfg : s.fg = .idle) (hh : s.halt = false) :
      Effect s (.dispValue n v) (s.beginWriting e)
  | configController (q : BitOrder) (l p : Bool) (hfg : s.fg = .idle) (hh : s.halt = false) (hb : s.busy = false) :
      Effect s (.serConfig .controller q l p) { s with
        sercfg := some ⟨.controller, q, l, p⟩, sck := l
        srs := if s.risingTo l then shiftUp s.srs s.sdo else s.srs
        out := s.out ++ [.out .sck l] ++ [.response (responseWord .ok 0)] }
  | configPeripheral (q : BitOrder) (l p : Bool) (hfg : s.fg = .idle) (hh : s.halt = false) (hb : s.busy = false) :
      Effect s (.serConfig .peripheral q l p) { s with
        sercfg := some ⟨.peripheral, q, l, p⟩, out := s.out ++ [.response (responseWord .ok 0)] }
  | xmitBw (b : Byte) (hfg : s.fg = .idle) (hh : s.halt = false) (hc : s.sercfg.isSome = true)
      (hb : s.busy = false) :
      Effect s (.serXmitBw b) { s with
        ie := false, txsr := b, rxsr := 0, bitcnt := 0, busy := true, done := false, xmode := .bw
        fg := .spin s.ie 0 }
  | xmitIrq (b : Byte) (hfg : s.fg = .idle) (hh : s.halt = false) (hc : s.sercfg.isSome = true)
      (hb : s.busy = false) :
      Effect s (.serXmitIrq b) { s with
        txsr := b, rxsr := 0, bitcnt := 0, busy := true, done := false, xmode := .irq
        out := s.out ++ [.response (responseWord .ok 0)] }
  | setHandler (h : BitVec 2) (target : Handler) (hfg : s.fg = .idle) (hh : s.halt = false) :
      Effect s (.serSetHandler h) { s with
        handler := target, out := s.out ++ [.response (responseWord .ok 0)] }
  | intEnable (hfg : s.fg = .idle) (hh : s.halt = false) :
      Effect s .intEnable { s with ie := true, out := s.out ++ [.response (responseWord .ok 0)] }
  | intDisable (hfg : s.fg = .idle) (hh : s.halt = false) :
      Effect s .intDisable { s with ie := false, out := s.out ++ [.response (responseWord .ok 0)] }
  | reset : Effect s .reset s.afterReset
  | tmrTick (ht : s.tickEn = true) (hsrc : s.cfg.tickSource = .event) :
      Effect s .tmrTick { s with tickf := true, fltTickLost := s.fltTickLost || s.tickf }
  | tickOverrun (hie : s.ie = true) (hp : s.tickf = true) (hh : s.halt = false)
      (hb : s.busy = true ∨ (s.cfg.variant = .async ∧ s.muxpend = true)) :
      Effect s .irqTick { s with tickf := false, ie := true, fltMuxOvr := true, halt := true }
  | tickSkipped (hie : s.ie = true) (hp : s.tickf = true) (hh : s.halt = false) (hb : s.busy = false)
      (hm : s.cfg.variant = .async → s.muxpend = false) (hs : s.pat s.cur = none) :
      Effect s .irqTick { s with
        tickf := false, ie := true, en := enWithout s.en s.prev, prev := some s.cur, cur := s.cur + 1
        out := s.out ++ deassertOut s.prev }
  | tickSync (p : Byte) (hie : s.ie = true) (hp : s.tickf = true) (hh : s.halt = false) (hb : s.busy = false)
      (hv : s.cfg.variant = .sync) (hs : s.pat s.cur = some p) :
      Effect s .irqTick { s with
        tickf := false, ie := true, sck := false
        sdo := sendBit s.cfg.dispOrder p 7
        srs := (bitsOut s.cfg.dispOrder p).foldl shiftUp s.srs
        latch := false
        seg := if s.latch then s.seg
          else latched s.cfg.dispOrder ((bitsOut s.cfg.dispOrder p).foldl shiftUp s.srs)
        en := enWithout (s.en ||| enMask s.cur) s.prev
        prev := some s.cur, cur := s.cur + 1
        out := s.out ++ (if s.sck then [.out .sck false] else []) ++ bitBangOut s.cfg.dispOrder p ++
          presentOut s.cur ++ deassertOut s.prev }
  | tickAsync (p : Byte) (hie : s.ie = true) (hp : s.tickf = true) (hh : s.halt = false) (hb : s.busy = false)
      (hm : s.muxpend = false) (hv : s.cfg.variant = .async) (hs : s.pat s.cur = some p) :
      Effect s .irqTick { s with
        tickf := false, ie := true, handler := .mux, muxpend := true
        txsr := p, rxsr := 0, bitcnt := 0, busy := true, done := false, xmode := .irq }
  | serStep (c : SerCfg) (sdi : Bool) (hb : s.busy = true) (hc : s.sercfg = some c) :
      Effect s (.serStep sdi) { s with
        sck := c.cpol
        sdo := nextBit c.order s.txsr
        srs := if c.cpol || !s.sck then
            shiftUp s.srs (if !c.cpol && c.cpha then Config.freeBit s.draws else nextBit c.order s.txsr)
          else s.srs
        draws := if !c.cpol && c.cpha && !s.sck then s.draws + 1 else s.draws
        out := s.out ++ bitTraceOut c (nextBit c.order s.txsr)
        txsr := txAfter c.order s.txsr
        rxsr := rxAfter c.order s.rxsr sdi
        bitcnt := if s.lastBit then 0 else s.bitcnt + 1
        busy := if s.lastBit then false else s.busy
        done := if s.lastBit then true else s.done
        rxb := if s.lastBit then rxAfter c.order s.rxsr sdi else s.rxb
        serf := if s.lastBit && s.xmode == .irq then true else s.serf }
  /-- the completion interrupt with no target, or with the multiplexer as target and nothing pending -/
  | serIdle (hie : s.ie = true) (hp : s.serf = true) (hh : s.halt = false)
      (hk : s.handler = .none ∨ (s.handler = .mux ∧ s.muxpend = false)) :
      Effect s .irqSer { s with serf := false, ie := true }
  | serHost (hie : s.ie = true) (hp : s.serf = true) (hh : s.halt = false) (hk : s.handler = .host) :
      Effect s .irqSer { s with serf := false, ie := true, out := s.out ++ [.notifyHost] }
  | serMux (hie : s.ie = true) (hp : s.serf = true) (hh : s.halt = false) (hk : s.handler = .mux)
      (hm : s.muxpend = true) :
      Effect s .irqSer { s with
        serf := false, ie := true, muxpend := false, latch := false
        seg := if s.latch then s.seg else latched s.cfg.dispOrder s.srs
        en := enWithout (s.en ||| enMask s.cur) s.prev
        prev := some s.cur, cur := s.cur + 1
        out := s.out ++ presentOut s.cur ++ deassertOut s.prev }
  | serGlitch (hb : s.busy = false) : Effect s .serGlitch { s with serf := true }
  | clkCounts (ht : s.tickEn = true) (hsrc : s.cfg.tickSource = .clock) (hp : s.pre + 1 ≠ 0) :
      Effect s .clk { s with pre := s.pre + 1 }
  | clkWraps (ht : s.tickEn = true) (hsrc : s.cfg.tickSource = .clock) (hp : s.pre + 1 = 0)
      (hn : (s.tcnt + 1) % s.cfg.timerPeriod ≠ 0) :
      Effect s .clk { s with pre := 0, tcnt := (s.tcnt + 1) % s.cfg.timerPeriod }
  | clkFires (ht : s.tickEn = true) (hsrc : s.cfg.tickSource = .clock) (hp : s.pre + 1 = 0)
      (hn : (s.tcnt + 1) % s.cfg.timerPeriod = 0) :
      Effect s .clk { s with
        pre := 0, tcnt := 0, tickf := true, fltTickLost := s.fltTickLost || s.tickf }
  | store (k : Slot) (b : Byte) (j : Slot) (c : Byte) (rest : List (Slot × Byte)) (saved : Bool)
      (hfg : s.fg = .writing k b ((j, c) :: rest) saved) :
      Effect s .fgStep { s with mem := Memory.write s.mem k.toNat b, fg := .writing j c rest saved }
  | lastStore (k : Slot) (b : Byte) (saved : Bool) (hfg : s.fg = .writing k b [] saved) :
      Effect s .fgStep { s with
        mem := Memory.write s.mem k.toNat b
        ie := if s.cfg.atomicUpdate then saved else s.ie
        fg := .idle, out := s.out ++ [.response (responseWord .ok 0)] }
  | spinEnd (saved : Bool) (n : Nat) (hfg : s.fg = .spin saved n) (hd : s.done = true) :
      Effect s .fgStep { s with
        done := false, ie := saved, fg := .idle, out := s.out ++ [.response (responseWord .ok s.rxb)] }
  | spinPoll (saved : Bool) (n : Nat) (hfg : s.fg = .spin saved n) (hd : s.done = false)
      (hl : limitReached s.cfg.bwLimit n = false) : Effect s .fgStep { s with fg := .spin saved (n + 1) }
  | spinTimeout (saved : Bool) (n : Nat) (hfg : s.fg = .spin saved n) (hd : s.done = false)
      (hl : limitReached s.cfg.bwLimit n = true) :
      Effect s .fgStep { s with
        fltTimeout := true, halt := true, ie := saved, fg := .idle
        out := s.out ++ [.response (responseWord .hardwareTimeout 0)] }

/-- A command that takes a step is `Halted`, or its own rule's effect. -/
theorem Effect.ofAccepted {s t : State} {i : Instr} {body : State → Result} (hi : i.isCommand = true)
    (h : acceptCommand s body = .next t)
    (hbody : s.fg = .idle → s.halt = false → body s = .next t → Effect s i t) : Effect s i t := by
  obtain ⟨hfg, ⟨_, rfl⟩ | ⟨hh, hb⟩⟩ := acceptCommand_next h
  · exact .answered _ hi hfg
  · exact hbody hfg hh hb

theorem Effect.ofDispInit {s t : State} (h : exec .dispInit s = .next t) : Effect s .dispInit t := by
  rw [exec_dispInit] at h
  refine .ofAccepted rfl h fun hfg hh hb => ?_
  split at hb
  · cases hb; exact .answered .ok rfl hfg
  · next ht =>
    have ht : s.tickEn = false := by simpa using ht
    split at hb
    · cases hb; exact .answered .serialBusy rfl hfg
    · next hv =>
      cases hb
      cases hvar : s.cfg.variant
      · have := Effect.initSync hfg hh ht hvar
        simpa [State.configureDisplay, State.startTimer, hvar, State.respond, State.emit] using this
      · have hbusy : s.busy = false := by simpa [hvar] using hv
        have := Effect.initAsync hfg hh ht hvar hbusy
        simpa [State.configureDisplay, State.startTimer, hvar, State.sckToIdle_eq, State.respond,
          State.emit] using this

theorem Effect.ofDispValue {s t : State} {n : BitVec 3} {v : Nat}
    (h : exec (.dispValue n v) s = .next t) : Effect s (.dispValue n v) t := by
  rw [exec_dispValue] at h
  refine .ofAccepted rfl h fun hfg hh hb => ?_
  split at hb
  · cases hb; exact .answered .invalidArgument rfl hfg
  · cases hb; exact .dispValue n v _ hfg hh

theorem Effect.ofSerConfig {s t : State} {r : Role} {q : BitOrder} {l p : Bool}
    (h : exec (.serConfig r q l p) s = .next t) : Effect s (.serConfig r q l p) t := by
  cases r
  · rw [exec_serConfig_controller] at h
    refine .ofAccepted rfl h fun hfg hh hb => ?_
    split at hb
    · cases hb; exact .answered .serialBusy rfl hfg
    · next hbusy =>
      cases hb
      have := Effect.configController q l p hfg hh (by simpa using hbusy)
      simpa [State.driveSck, State.setSck, State.respond, State.emit, State.sampledBit, State.risingTo]
        using this
  · rw [exec_serConfig_peripheral] at h
    refine .ofAccepted rfl h fun hfg hh hb => ?_
    split at hb
    · cases hb; exact .answered .serialBusy rfl hfg
    · next hbusy => cases hb; exact .configPeripheral q l p hfg hh (by simpa using hbusy)

theorem Effect.ofSerXmitBw {s t : State} {b : Byte} (h : exec (.serXmitBw b) s = .next t) :
    Effect s (.serXmitBw b) t := by
  rw [exec_serXmitBw] at h
  refine .ofAccepted rfl h fun hfg hh hb => ?_
  obtain ⟨_, rfl⟩ | ⟨_, _, rfl⟩ | ⟨hc, hbusy, hn⟩ := whenSerialReady_next hb
  · exact .answered _ rfl hfg
  · exact .answered _ rfl hfg
  · cases hn; exact .xmitBw b hfg hh hc hbusy

theorem Effect.ofSerXmitIrq {s t : State} {b : Byte} (h : exec (.serXmitIrq b) s = .next t) :
    Effect s (.serXmitIrq b) t := by
  rw [exec_serXmitIrq] at h
  refine .ofAccepted rfl h fun hfg hh hb => ?_
  obtain ⟨_, rfl⟩ | ⟨_, _, rfl⟩ | ⟨hc, hbusy, hn⟩ := whenSerialReady_next hb
  · exact .answered _ rfl hfg
  · exact .answered _ rfl hfg
  · cases hn; exact .xmitIrq b hfg hh hc hbusy

theorem Effect.ofSerSetHandler {s t : State} {h : BitVec 2} (hx : exec (.serSetHandler h) s = .next t) :
    Effect s (.serSetHandler h) t := by
  simp only [exec, execSerSetHandler] at hx
  split at hx
  · obtain ⟨hfg, rfl⟩ := illegalCommand_next hx
    exact .answered _ rfl hfg
  · refine .ofAccepted rfl hx fun hfg hh hb => ?_
    cases hb; exact .setHandler h _ hfg hh

theorem Effect.ofIrqTick {s t : State} (h : exec .irqTick s = .next t) : Effect s .irqTick t := by
  rw [exec_irqTick] at h
  obtain ⟨hie, hp, hh, rfl⟩ := takeInterrupt_next h
  cases hv : s.cfg.variant
  · have hbody : (s.enterInterrupt .tick).tickBody = (s.enterInterrupt .tick).tickBodySync := by
      simp [State.tickBody, hv]
    rw [hbody]
    cases hb : s.busy
    · cases hs : s.pat s.cur with
      | none =>
        have hs' : (s.enterInterrupt .tick).pat s.cur = none := hs
        have e : (s.enterInterrupt .tick).tickBodySync = (s.enterInterrupt .tick).deassertPrev.advance := by
          simp [State.tickBodySync, hb, hs']
        rw [e, State.deassertPrev_eq]
        exact .tickSkipped hie hp hh hb (by simp [hv]) hs
      | some p =>
        have hs' : (s.enterInterrupt .tick).pat s.cur = some p := hs
        have e : (s.enterInterrupt .tick).tickBodySync
            = ((s.enterInterrupt .tick).bbXmit p).presentDigit := by
          simp [State.tickBodySync, hb, hs']
        rw [e, State.presentDigit_any, State.bbXmit_eq]
        exact .tickSync p hie hp hh hb hv hs
    · have e : (s.enterInterrupt .tick).tickBodySync = (s.enterInterrupt .tick).raiseMuxOverrun := by
        simp [State.tickBodySync, hb]
      rw [e]
      exact .tickOverrun hie hp hh (.inl hb)
  · have hbody : (s.enterInterrupt .tick).tickBody = (s.enterInterrupt .tick).tickBodyAsync := by
      simp [State.tickBody, hv]
    rw [hbody]
    obtain ⟨hb, e⟩ | ⟨hb, hm, hs, e⟩ | ⟨p, hb, hm, hs, e⟩ := (s.enterInterrupt .tick).tickBodyAsync_cases <;> rw [e]
    · exact .tickOverrun hie hp hh (hb.imp id fun hm => ⟨hv, hm⟩)
    · rw [State.deassertPrev_eq]
      exact .tickSkipped hie hp hh hb (fun _ => hm) hs
    · exact .tickAsync p hie hp hh hb hm hv hs

theorem Effect.ofIrqSer {s t : State} (h : exec .irqSer s = .next t) : Effect s .irqSer t := by
  rw [exec_irqSer] at h
  obtain ⟨hie, hp, hh, rfl⟩ := takeInterrupt_next h
  cases hk : s.handler
  · have e : (s.enterInterrupt .ser).dispatch = s.enterInterrupt .ser := by simp [State.dispatch, hk]
    rw [e]
    exact .serIdle hie hp hh (.inl hk)
  · cases hm : s.muxpend
    · have e : (s.enterInterrupt .ser).dispatch = s.enterInterrupt .ser := by
        simp [State.dispatch, hk, State.muxDone, hm]
      rw [e]
      exact .serIdle hie hp hh (.inr ⟨hk, hm⟩)
    · have e : (s.enterInterrupt .ser).dispatch
          = ({ s.enterInterrupt .ser with muxpend := false } : State).presentDigit := by
        simp [State.dispatch, hk, State.muxDone, hm]
      rw [e, State.presentDigit_any]
      exact .serMux hie hp hh hk hm
  · have e : (s.enterInterrupt .ser).dispatch = (s.enterInterrupt .ser).emit .notifyHost := by
      simp [State.dispatch, hk]
    rw [e]
    exact .serHost hie hp hh hk

theorem Effect.ofSerStep {s t : State} {sdi : Bool} (h : exec (.serStep sdi) s = .next t) :
    Effect s (.serStep sdi) t := by
  rw [exec_serStep] at h
  obtain ⟨hb, hn⟩ := whenEnabled_next h
  split at hn
  · next c hc =>
    cases hn
    rw [State.shiftBit_eq, State.bitTrace_eq]
    exact .serStep c sdi hb hc
  · cases hn

theorem Effect.ofClk {s t : State} (h : exec .clk s = .next t) : Effect s .clk t := by
  rw [exec_clk] at h
  obtain ⟨ht, hn⟩ := whenEnabled_next h
  obtain ⟨ht, hsrc⟩ := State.ticksFrom_iff.1 ht
  cases hn
  obtain ⟨hp, e⟩ | ⟨hp, hn, e⟩ | ⟨hp, hn, e⟩ := s.clockTimer_cases <;> rw [e]
  · exact .clkCounts ht hsrc hp
  · exact .clkWraps ht hsrc hp hn
  · exact .clkFires ht hsrc hp hn

theorem Effect.ofFgStep {s t : State} (h : exec .fgStep s = .next t) : Effect s .fgStep t := by
  cases hfg : s.fg with
  | idle => rw [exec_fgStep_idle hfg] at h; cases h
  | writing k b rest saved =>
    rw [exec_fgStep_writing hfg] at h
    cases h
    rcases rest with _ | ⟨⟨j, c⟩, rest⟩
    · exact .lastStore k b saved hfg
    · exact .store k b j c rest saved hfg
  | spin saved n =>
    cases hd : s.done
    · rw [exec_fgStep_poll hfg hd] at h
      cases h
      cases hl : limitReached s.cfg.bwLimit n
      · rw [State.spinPoll, hl]; exact .spinPoll saved n hfg hd hl
      · rw [State.spinPoll, hl]; exact .spinTimeout saved n hfg hd hl
    · rw [exec_fgStep_end hfg hd] at h
      cases h
      exact .spinEnd saved n hfg hd

/-- A step has one of the effects its operation has. -/
theorem exec_effect {i : Instr} {s t : State} (h : exec i s = .next t) : Effect s i t := by
  cases i with
  | dispInit => exact .ofDispInit h
  | patWrite k b =>
    rw [exec_patWrite] at h
    exact .ofAccepted rfl h fun hfg hh hb => by cases hb; exact .patWrite k b hfg hh
  | dispValue n v => exact .ofDispValue h
  | serConfig r q l p => exact .ofSerConfig h
  | serXmitBw b => exact .ofSerXmitBw h
  | serXmitIrq b => exact .ofSerXmitIrq h
  | serSetHandler k => exact .ofSerSetHandler h
  | intEnable =>
    rw [exec_intEnable] at h
    exact .ofAccepted rfl h fun hfg hh hb => by cases hb; exact .intEnable hfg hh
  | intDisable =>
    rw [exec_intDisable] at h
    exact .ofAccepted rfl h fun hfg hh hb => by cases hb; exact .intDisable hfg hh
  | reset => cases h; exact .reset
  | tmrTick =>
    rw [exec_tmrTick] at h
    obtain ⟨ht, hn⟩ := whenEnabled_next h
    obtain ⟨ht, hsrc⟩ := State.ticksFrom_iff.1 ht
    cases hn
    rw [State.timerFires_eq]
    exact .tmrTick ht hsrc
  | irqTick => exact .ofIrqTick h
  | serStep sdi => exact .ofSerStep h
  | irqSer => exact .ofIrqSer h
  | serGlitch =>
    rw [exec_serGlitch] at h
    obtain ⟨hb, hn⟩ := whenEnabled_next h
    cases hn
    exact .serGlitch (by simpa using hb)
  | clk => exact .ofClk h
  | fgStep => exact .ofFgStep h

end Sys2Proof.Machine
end

