-- ==== Sys2Proof/Laws/Encoding.lean ====
section
/-!
SUPPORT. The fields of appended operands and of an encoded word, and a command word as its three fields.
-/

namespace Sys2Proof

/-! ### Fields of appended operands -/

theorem extract_low {m n : Nat} (x : BitVec m) (y : BitVec n) : (x ++ y).extractLsb' 0 n = y := by
  apply BitVec.eq_of_getLsbD_eq
  intro k hk
  simp [BitVec.getLsbD_append, hk]

theorem extract_high {m n : Nat} (x : BitVec m) (y : BitVec n) : (x ++ y).extractLsb' n m = x := by
  apply BitVec.eq_of_getLsbD_eq
  intro k hk
  simp [BitVec.getLsbD_append, hk]

/-- A field that lies in the low part. -/
theorem extract_inside_low {m n k l : Nat} (x : BitVec m) (y : BitVec n) (h : k + l ≤ n) :
    (x ++ y).extractLsb' k l = y.extractLsb' k l := by
  apply BitVec.eq_of_getLsbD_eq
  intro i hi
  simp [BitVec.getLsbD_append, show k + i < n by omega]

/-- A word is its high part and its low part. -/
theorem append_extract {m n : Nat} (x : BitVec (m + n)) :
    x.extractLsb' n m ++ x.extractLsb' 0 n = x := by
  apply BitVec.eq_of_getLsbD_eq
  intro k hk
  simp only [BitVec.getLsbD_append, BitVec.getLsbD_extractLsb']
  by_cases h : k < n
  · simp [h]
  · simp [h, show k - n < m by omega, show n + (k - n) = k by omega]

/-- The high and the low part of a field that starts at `k`. -/
theorem extract_split {w : Nat} (x : BitVec w) (k m n : Nat) :
    x.extractLsb' (k + n) m ++ x.extractLsb' k n = x.extractLsb' k (m + n) := by
  apply BitVec.eq_of_getLsbD_eq
  intro i hi
  simp only [BitVec.getLsbD_append, BitVec.getLsbD_extractLsb', hi]
  by_cases h : i < n
  · simp [h]
  · simp [h, show i - n < m by omega, show k + n + (i - n) = k + i by omega]

/-! ### Fields of a command word -/

@[simp] theorem opField_commandWord (op a : BitVec 4) (d : BitVec 16) :
    opField (commandWord op a d) = op :=
  extract_high op (a ++ d)

@[simp] theorem aField_commandWord (op a : BitVec 4) (d : BitVec 16) :
    aField (commandWord op a d) = a :=
  (extract_inside_low op (a ++ d) (Nat.le_refl 20)).trans (extract_high a d)

@[simp] theorem dField_commandWord (op a : BitVec 4) (d : BitVec 16) :
    dField (commandWord op a d) = d :=
  (extract_inside_low op (a ++ d) (by decide : 0 + 16 ≤ 20)).trans (extract_low a d)

/-- A command word is its three fields. -/
theorem commandWord_fields (w : CommandWord) : commandWord (opField w) (aField w) (dField w) = w := by
  have h : aField w ++ dField w = w.extractLsb' 0 20 := extract_split w 0 4 16
  exact (congrArg (fun low : BitVec 20 => opField w ++ low) h).trans (append_extract (m := 4) (n := 20) w)

/-- Two command words with the same three fields are equal. -/
theorem commandWord_ext {v w : CommandWord} (ho : opField v = opField w) (ha : aField v = aField w)
    (hd : dField v = dField w) : v = w := by
  rw [← commandWord_fields v, ← commandWord_fields w, ho, ha, hd]

@[simp] theorem decodeCommand_commandWord (width : Nat) (op a : BitVec 4) (d : BitVec 16) (high : Nat) :
    decodeCommand width (commandWord op a d) high = decodeFields width op a d high := by
  simp [decodeCommand]

/-! ### The scaled value of `DISP_VALUE` -/

@[simp] theorem scaledField_split (v : Nat) : scaledField (BitVec.ofNat 16 v) (v / 2 ^ 16) = v := by
  rw [scaledField, BitVec.toNat_ofNat, Nat.mul_comm]
  exact Nat.div_add_mod v (2 ^ 16)

@[simp] theorem scaledField_high (d : BitVec 16) (high : Nat) : scaledField d high / 2 ^ 16 = high := by
  have := d.isLt
  simp only [scaledField]
  omega

@[simp] theorem scaledField_low (d : BitVec 16) (high : Nat) : BitVec.ofNat 16 (scaledField d high) = d := by
  apply BitVec.eq_of_toNat_eq
  have := d.isLt
  simp only [scaledField, BitVec.toNat_ofNat]
  omega

theorem scaledField_low_number (d : BitVec 16) : scaledField d 0 < 2 ^ 16 := by
  have := d.isLt
  simp only [scaledField]
  omega

end Sys2Proof
end

