-- ==== Sys2Proof/Laws/PerInstr.lean ====
section
/-!
SUPPORT. Per constructor: the encoder's word fits the opcode table's row of the operation (30_encoding.md R64, R68).
-/

namespace Sys2Proof

/-- A mask applies to a command word field by field. -/
theorem commandWord_and (op a mo ma : BitVec 4) (d md : BitVec 16) :
    commandWord op a d &&& commandWord mo ma md = commandWord (op &&& mo) (a &&& ma) (d &&& md) := by
  have h : (a ++ d) &&& (ma ++ md) = (a &&& ma) ++ (d &&& md) := BitVec.and_append
  have g : (op ++ (a ++ d)) &&& (mo ++ (ma ++ md)) = (op &&& mo) ++ ((a ++ d) &&& (ma ++ md)) :=
    BitVec.and_append
  exact g.trans (congrArg (fun low => (op &&& mo) ++ low) h)


theorem handlerBits_masked : ∀ h : BitVec 2, (0#14 ++ h : BitVec 16) &&& 0xFFFC = 0 := by decide

theorem byteBits_masked (b : Byte) : (0#8 ++ b : BitVec 16) &&& 0xFF00 = 0 := by
  rw [show (0xFF00 : BitVec 16) = 0xFF#8 ++ 0#8 from rfl, BitVec.and_append]
  simp only [BitVec.zero_and, BitVec.and_zero]
  rfl

theorem slotBits_masked : ∀ i : Slot, (0#2 ++ i : BitVec 4) &&& 0xC = 0 := by decide

theorem decimalsBits_masked : ∀ n : BitVec 3, (0#1 ++ n : BitVec 4) &&& 0x8 = 0 := by decide

theorem serConfigBits_masked (r : Role) (q : BitOrder) (l p : Bool) :
    serConfigBits r q l p &&& 0xFFF0 = 0 := by
  cases r <;> cases q <;> cases l <;> cases p <;> rfl

/-- A command word under the mask of its row, with no bit of `d` above bit 15. -/
theorem fitsMask {op a mo ma : BitVec 4} {d md : BitVec 16} {mask matched : CommandWord}
    (hmask : mask = commandWord mo ma md) (hmatch : matched = commandWord op 0 0) (hop : op &&& mo = op)
    (ha : a &&& ma = 0) (hd : d &&& md = 0) : commandWord op a d &&& mask = matched := by
  rw [hmask, commandWord_and, hop, ha, hd, hmatch]

/-- `d` of a command word, as a number. -/
theorem dField_number (w : CommandWord) : (w &&& 0xFFFF).toNat = (dField w).toNat := by
  have h : (w &&& 0xFFFF).toNat = w.toNat % 2 ^ 16 := Nat.and_two_pow_sub_one_eq_mod w.toNat 16
  rw [h]
  simp [dField, BitVec.extractLsb'_toNat]

end Sys2Proof

namespace Sys2Proof.Laws.EncodeFitsRow

/-- The word of a well-formed `i` fits the table row of `i`'s mnemonic. -/
def Statement (i : Instr) : Prop := ∀ width, WellFormed width i = true → fitsRow width i (encode i)

theorem dispInit : Statement .dispInit := fun _ _ => ⟨rfl, rfl⟩

theorem patWrite (i : Slot) (b : Byte) : Statement (.patWrite i b) := fun _ _ =>
  ⟨fitsMask (mo := 0xF) (ma := 0xC) (md := 0xFF00) rfl rfl rfl (slotBits_masked i) (byteBits_masked b), rfl⟩

theorem dispValue (n : BitVec 3) (v : Nat) : Statement (.dispValue n v) := fun width h => by
  refine ⟨fitsMask (mo := 0xF) (ma := 0x8) (md := 0) rfl rfl rfl (decimalsBits_masked n) BitVec.and_zero, ?_⟩
  have hv : v < 2 ^ width := by simpa [WellFormed] using h
  rw [dField_number, dField_commandWord]
  have e := scaledField_split v
  rw [scaledField] at e
  rw [e]
  exact hv

theorem serConfig (r : Role) (q : BitOrder) (l p : Bool) : Statement (.serConfig r q l p) := fun _ _ =>
  ⟨fitsMask (mo := 0xF) (ma := 0xF) (md := 0xFFF0) rfl rfl rfl rfl (serConfigBits_masked r q l p), rfl⟩

theorem serXmitBw (b : Byte) : Statement (.serXmitBw b) := fun _ _ =>
  ⟨fitsMask (mo := 0xF) (ma := 0xF) (md := 0xFF00) rfl rfl rfl rfl (byteBits_masked b), rfl⟩

theorem serXmitIrq (b : Byte) : Statement (.serXmitIrq b) := fun _ _ =>
  ⟨fitsMask (mo := 0xF) (ma := 0xF) (md := 0xFF00) rfl rfl rfl rfl (byteBits_masked b), rfl⟩

theorem serSetHandler (h : BitVec 2) : Statement (.serSetHandler h) := fun _ _ =>
  ⟨fitsMask (mo := 0xF) (ma := 0xF) (md := 0xFFFC) rfl rfl rfl rfl (handlerBits_masked h), rfl⟩

theorem intEnable : Statement .intEnable := fun _ _ => ⟨rfl, rfl⟩

theorem intDisable : Statement .intDisable := fun _ _ => ⟨rfl, rfl⟩

theorem reset : Statement .reset := fun _ _ => rfl

theorem tmrTick : Statement .tmrTick := fun _ _ => rfl

theorem irqTick : Statement .irqTick := fun _ _ => rfl

theorem serStep (s : Bool) : Statement (.serStep s) := fun _ _ => by cases s <;> rfl

theorem irqSer : Statement .irqSer := fun _ _ => rfl

theorem serGlitch : Statement .serGlitch := fun _ _ => rfl

theorem clk : Statement .clk := fun _ _ => rfl

theorem fgStep : Statement .fgStep := fun _ _ => rfl

end Sys2Proof.Laws.EncodeFitsRow
end

