-- ==== Sys2Proof/Laws/Run.lean ====
section
/-!
SUPPORT. The laws of shifting (what eight bits leave in a register, 42_serial.md R117, R124, R125), and of runs:
a run in two parts, and the eight bit steps of a transfer.
-/

namespace Sys2Proof.Machine

/-! ### Shifting -/

theorem getLsbD_shiftUp (r : Byte) (bit : Bool) (k : Nat) :
    (shiftUp r bit).getLsbD k = if k = 0 then bit else decide (k < 8) && r.getLsbD (k - 1) := by
  rcases k with _ | k
  · simp [shiftUp]
  · simp [shiftUp]

theorem getLsbD_shiftDown (r : Byte) (bit : Bool) (k : Nat) (hk : k < 8) :
    (shiftDown r bit).getLsbD k = if k = 7 then bit else r.getLsbD (k + 1) := by
  by_cases h : k = 7
  · subst h; simp [shiftDown]
  · have : k < 7 := by omega
    simp [shiftDown, h, this, Nat.add_comm]

/-- Eight bits replace the whole shift stage: it holds the byte as the display's order sent it. -/
theorem foldl_shiftUp_bitsOut (order : BitOrder) (b r : Byte) : (bitsOut order b).foldl shiftUp r = latched order b := by
  apply BitVec.eq_of_getLsbD_eq
  intro k hk
  have : k = 0 ∨ k = 1 ∨ k = 2 ∨ k = 3 ∨ k = 4 ∨ k = 5 ∨ k = 6 ∨ k = 7 := by omega
  cases order
  · rcases this with rfl|rfl|rfl|rfl|rfl|rfl|rfl|rfl <;> simp [bitsOut, List.range_succ, sendBit, latched, getLsbD_shiftUp, -BitVec.getLsbD_eq_getElem]
  · rcases this with rfl|rfl|rfl|rfl|rfl|rfl|rfl|rfl <;> simp [bitsOut, List.range_succ, sendBit, latched, getLsbD_shiftUp, bitReverse, BitVec.getLsbD_reverse, BitVec.getMsbD, -BitVec.getLsbD_eq_getElem]

/-- The board's wiring undoes the sending order. -/
theorem latched_latched (order : BitOrder) (b : Byte) : latched order (latched order b) = b := by
  cases order
  · rfl
  · show b.reverse.reverse = b
    apply BitVec.eq_of_getLsbD_eq
    intro k hk
    simp only [BitVec.getLsbD_reverse, BitVec.getMsbD_reverse]

/-- The bits a transmit register sends in its next steps. -/
def sentBits (order : BitOrder) : Byte → Nat → List Bool
  | _, 0 => []
  | b, n+1 => nextBit order b :: sentBits order (txAfter order b) n

/-- In eight steps the register sends the whole byte in its order. -/
theorem sentBits_eight (order : BitOrder) (b : Byte) : sentBits order b 8 = bitsOut order b := by
  cases order
  · simp [sentBits, bitsOut, List.range_succ, nextBit, txAfter, sendBit, -BitVec.getLsbD_eq_getElem, BitVec.getLsbD_shiftLeft]
  · simp [sentBits, bitsOut, List.range_succ, nextBit, txAfter, sendBit, -BitVec.getLsbD_eq_getElem, BitVec.getLsbD_ushiftRight]

/-! ### Runs -/

theorem responses_append (a b : List Output) : responses (a ++ b) = responses a ++ responses b := by
  simp [responses]

theorem responses_bitTrace (c : SerCfg) (b : Bool) : responses (bitTraceOut c b) = [] := by
  rcases c with ⟨r, o, l, p⟩
  cases r <;> cases l <;> cases p <;> rfl

/-- One bit step in closed form. -/
theorem shiftBit_closed (s : State) (c : SerCfg) (sdi : Bool) : s.shiftBit c sdi = { s with
      sck := c.cpol
      sdo := nextBit c.order s.txsr
      srs := if c.cpol || !s.sck then
          shiftUp s.srs (if !c.cpol && c.cpha then Config.freeBit s.draws else nextBit c.order s.txsr)
        else s.srs
      draws := if !c.cpol && c.cpha && !s.sck then s.draws + 1 else s.draws
      out := s.out ++ bitTraceOut c (nextBit c.order s.txsr)
      txsr := txAfter c.order s.txsr
      rxsr := rxAfter c.order s.rxsr sdi
      bitcnt := if s.bitcnt == 7 then 0 else s.bitcnt + 1
      busy := if s.bitcnt == 7 then false else s.busy
      done := if s.bitcnt == 7 then true else s.done
      rxb := if s.bitcnt == 7 then rxAfter c.order s.rxsr sdi else s.rxb
      serf := if s.bitcnt == 7 && s.xmode == .irq then true else s.serf } := by
  rw [State.shiftBit_eq, State.bitTrace_eq]; rfl

/-- The bit steps that end a transfer: the received byte, the flags, and for the display's configuration from
an idle clock the shift stage and the line trace. -/
theorem runAll_serSteps (c : SerCfg) : ∀ (samples : List Bool) (s : State), s.busy = true → s.sercfg = some c →
    s.bitcnt.toNat + samples.length = 8 → samples ≠ [] →
    ∃ t, runAll (samples.map .serStep) s = .next t ∧
      t = { s with
              sck := c.cpol, sdo := t.sdo, srs := t.srs, draws := t.draws, out := t.out, txsr := t.txsr, rxsr := t.rxsr
              bitcnt := 0, busy := false, done := true, rxb := samples.foldl (rxAfter c.order) s.rxsr
              serf := s.serf || s.xmode == .irq } ∧
      (∃ traced, responses traced = [] ∧ t.out = s.out ++ traced) ∧
      (c = ⟨.controller, c.order, false, false⟩ → s.sck = false →
        t.srs = (sentBits c.order s.txsr samples.length).foldl shiftUp s.srs ∧
        t.out = s.out ++ (sentBits c.order s.txsr samples.length).flatMap bitBangPulse) := by
  intro samples
  induction samples with
  | nil => intro s _ _ _ h; exact absurd rfl h
  | cons x xs ih =>
    intro s hb hc hn _
    simp only [List.map_cons, runAll, exec_serStep_configured x hb hc]
    cases xs with
    | nil =>
      have h7 : s.bitcnt = 7 := by
        apply BitVec.eq_of_toNat_eq; simp at hn; simp; omega
      refine ⟨_, rfl, ?_, ⟨bitTraceOut c (nextBit c.order s.txsr), responses_bitTrace _ _, by rw [shiftBit_closed]⟩, ?_⟩
      · rw [shiftBit_closed]
        simp [h7]
        cases s.xmode <;> cases s.serf <;> rfl
      · intro hcd hs
        rw [shiftBit_closed, hcd]
        simp [sentBits, hs, bitTraceOut, bitBangPulse, clockOut]
    | cons y ys =>
      have h7 : s.bitcnt ≠ 7 := by
        intro h; rw [h] at hn; simp at hn; omega
      have hq : (s.bitcnt == 7) = false := by simpa using h7
      have hbv : (s.bitcnt + 1).toNat = s.bitcnt.toNat + 1 := by
        have : s.bitcnt.toNat ≤ 6 := by simp at hn; omega
        rw [BitVec.toNat_add]; simp; omega
      obtain ⟨t, h1, h2, ⟨tr, h3, h4⟩, h5⟩ := ih (s.shiftBit c x) (by rw [shiftBit_closed]; simp only [hq, hb, Bool.false_eq_true, if_false]) (by rw [shiftBit_closed]; exact hc)
        (by rw [shiftBit_closed]; simp only [hq, hbv, List.length_cons, if_false, Bool.false_eq_true] at hn ⊢; omega) (by simp)
      refine ⟨t, h1, ?_, ⟨bitTraceOut c (nextBit c.order s.txsr) ++ tr, ?_, ?_⟩, ?_⟩
      · rw [h2, shiftBit_closed]; simp only [hq, Bool.false_and, Bool.false_eq_true, if_false, List.foldl_cons]
      · rw [responses_append, responses_bitTrace, h3]; rfl
      · rw [h4, shiftBit_closed]; simp
      · intro hcd hs
        obtain ⟨g1, g2⟩ := h5 hcd (by rw [shiftBit_closed, hcd])
        rw [g1, g2, shiftBit_closed, hcd]
        simp [sentBits, hs, bitTraceOut, bitBangPulse, clockOut]

/-- A run in two parts. -/
theorem runAll_append (is js : List Instr) (s t : State) (h : runAll is s = .next t) :
    runAll (is ++ js) s = runAll js t := by
  induction is generalizing s with
  | nil => simp [runAll] at h; subst h; rfl
  | cons i is ih =>
    simp only [List.cons_append, runAll] at h ⊢
    cases he : exec i s <;> simp [he] at h ⊢
    exact ih _ h

end Sys2Proof.Machine
end

