-- ==== Sys2Proof/Tests/Slice0.lean ====
section
/-!
SUPPORT. Tests: the ill-formed term, the decoding of words written out from 30_encoding.md R62 and R68, single
steps with the expected results of spec/95_test_vectors.md (the vector is named at each test), and for
every obligation with hypotheses a state and operands that meet them.
-/

namespace Sys2Proof.Tests

open Sys2Proof.Machine

/-! ### States -/

/-- The table T0 of the test vectors, bits 7..1 of each byte, with the parameters their conventions give. -/
def config (variant : Variant) (order : BitOrder) : Config where
  variant := variant
  segments := #v[0x7E, 0x30, 0x6D, 0x79, 0x33, 0x5B, 0x5F, 0x70, 0x7F, 0x7B]
  dispOrder := order
  scaledWidth := 16
  atomicUpdate := false
  bwLimit := none
  timerLast := 1
  fSys := 0
  serMayStall := false
  decimalsPolicy := .reject
  tickSource := .event

/-- The reset state of such a block. -/
def start (variant : Variant) : State := { State.reset with cfg := config variant .msb }

/-- The same, taking its ticks from `CLK`, with the timer running. -/
def clocked : State := { start .sync with tickEn := true, cfg := { config .sync .msb with tickSource := .clock } }

/-- A tick is due on slot 1 and digit 0 is lit (vector M1). -/
def tickDue (variant : Variant) : State :=
  { start variant with
    tickEn := true, ie := true, tickf := true, mem := [(1, 0xF2)], cur := 1, prev := some 0
    en := 0b0001, sercfg := some ⟨.controller, .msb, false, false⟩ }

/-- A transfer of 0x66 for digit 0 is done and its completion pends (vector A2). -/
def transferDone : State :=
  { start .async with
    tickEn := true, ie := true, mem := [(0, 0x66)], handler := .mux, muxpend := true, serf := true
    done := true, xmode := .irq, srs := 0x66, sercfg := some ⟨.controller, .msb, false, false⟩ }

/-- A busy-wait transfer of 0xA5 is in flight (vector X9). -/
def spinning : State :=
  { start .sync with
    sercfg := some ⟨.controller, .msb, false, false⟩, txsr := 0xA5, busy := true
    fg := .spin true 0 }

/-- The machine is frozen after an overrun. -/
def frozen : State := { start .async with halt := true, fltMuxOvr := true }

/-- What the next state of an operation satisfies. -/
def goesTo (r : Result) (p : State → Bool) : Bool :=
  match r with
  | .next t => p t
  | .fault _ => false
  | .refused _ => false

/-! ### Well-formed and ill-formed -/

theorem test_wellformed_bounds_scaled :
    WellFormed 16 (.dispValue 0 65535) = true ∧ WellFormed 16 (.dispValue 0 65536) = false := by decide

theorem test_wellformed_refuses_handler_three : WellFormed 16 (.serSetHandler 3) = false := by decide

theorem test_wellformed_accepts_handler_two : WellFormed 16 (.serSetHandler 2) = true := by decide

/-! ### Decoding: words written out from the formats -/

theorem test_decode_dispInit :
    decode 16 (.command 0b0001_0000_0000000000000000) = .ok .dispInit := by rfl
theorem test_decode_patWrite :
    decode 16 (.command 0b0010_0011_00000000_10000001) = .ok (.patWrite 3 0x81) := by rfl
theorem test_decode_dispValue :
    decode 16 (.command 0b0011_0100_0111101010110111) = .ok (.dispValue 4 31415) := by rfl
theorem test_decode_serConfig_role :
    decode 16 (.command 0b0100_0000_000000000000_1000) = .ok (.serConfig .controller .msb false false) := by rfl
theorem test_decode_serConfig_cpol :
    decode 16 (.command 0b0100_0000_000000000000_0110) = .ok (.serConfig .peripheral .lsb true false) := by rfl
theorem test_decode_serXmitBw :
    decode 16 (.command 0b0101_0000_00000000_10100101) = .ok (.serXmitBw 0xA5) := by rfl
theorem test_decode_serXmitIrq :
    decode 16 (.command 0b0110_0000_00000000_00111100) = .ok (.serXmitIrq 0x3C) := by rfl
theorem test_decode_serSetHandler :
    decode 16 (.command 0b0111_0000_00000000000000_01) = .ok (.serSetHandler 1) := by rfl
theorem test_decode_intEnable :
    decode 16 (.command 0b1000_0000_0000000000000000) = .ok .intEnable := by rfl
theorem test_decode_intDisable :
    decode 16 (.command 0b1001_0000_0000000000000000) = .ok .intDisable := by rfl
theorem test_decode_reset : decode 16 (.event 0b0001_0000) = .ok .reset := by rfl
theorem test_decode_tmrTick : decode 16 (.event 0b0010_0000) = .ok .tmrTick := by rfl
theorem test_decode_irqTick : decode 16 (.event 0b0011_0000) = .ok .irqTick := by rfl
theorem test_decode_serStep : decode 16 (.event 0b0100_0001) = .ok (.serStep true) := by rfl
theorem test_decode_irqSer : decode 16 (.event 0b0101_0000) = .ok .irqSer := by rfl
theorem test_decode_serGlitch : decode 16 (.event 0b0110_0000) = .ok .serGlitch := by rfl
theorem test_decode_clk : decode 16 (.event 0b0111_0000) = .ok .clk := by rfl
theorem test_decode_fgStep : decode 16 (.event 0b1000_0000) = .ok .fgStep := by rfl

/-- The illegal words of section 2.2 of the vectors. -/
theorem test_decode_illegal :
    decode 16 (.command 0x000000) = .error .reservedOpcode ∧
    decode 16 (.command 0xF12345) = .error .reservedOpcode ∧
    decode 16 (.command 0x110000) = .error .nonzeroReservedBits ∧
    decode 16 (.command 0x2400DB) = .error .nonzeroReservedBits ∧
    decode 16 (.command 0x3804D2) = .error .nonzeroReservedBits ∧
    decode 16 (.command 0x400010) = .error .nonzeroReservedBits ∧
    decode 16 (.command 0x5001A5) = .error .nonzeroReservedBits ∧
    decode 16 (.command 0x700003) = .error .reservedHandler ∧
    decode 16 (.command 0x700004) = .error .nonzeroReservedBits ∧
    decode 16 (.event 0x42) = .error .nonzeroEventArgument ∧
    decode 16 (.event 0x90) = .error .reservedEventCode := by
  refine ⟨rfl, rfl, rfl, rfl, rfl, rfl, rfl, rfl, rfl, rfl, rfl⟩

/-- Other widths of `scaled` (log entry 16): 20 bits, and a value that 20, 16 or 14 bits do not hold. -/
theorem test_decode_scaled_width :
    decode 20 (.command 0x32FFFF 0xF) = .ok (.dispValue 2 0xFFFFF) ∧
    decode 20 (.command 0x320000 0x10) = .error .nonzeroReservedBits ∧
    decode 20 (.command 0x2200DB 1) = .error .nonzeroReservedBits ∧
    decode 16 (.command 0x320000 1) = .error .nonzeroReservedBits ∧
    decode 14 (.command 0x324000) = .error .nonzeroReservedBits := by
  refine ⟨rfl, rfl, rfl, rfl, rfl⟩

/-- The table's numbering: an 8-bit row is an event, a 24-bit row a command. -/
theorem test_table_words :
    decodeTableWord 24 0x400008 = some (.serConfig .controller .msb false false) ∧
    decodeTableWord 8 0x41 = some (.serStep true) ∧ decodeTableWord 24 0x700003 = none := by
  refine ⟨rfl, rfl, rfl⟩

/-! ### One step of each operation (spec/95_test_vectors.md) -/

/-- Vector Y2. -/
theorem test_dispInit_async : goesTo (exec .dispInit (start .async)) (fun t =>
    t.tickEn && t.sercfg == some ⟨.controller, .msb, false, false⟩ && t.out == [.response 0x0000]) = true := by
  decide

/-- Vector Y1. -/
theorem test_dispInit_sync : goesTo (exec .dispInit (start .sync)) (fun t =>
    t.tickEn && t.sercfg == none) = true := by decide

/-- Vectors V6, V7. -/
theorem test_patWrite : goesTo (exec (.patWrite 3 0xFF) (tickDue .sync)) (fun t =>
    t.pat 3 == some 0xFF && t.pat 1 == some 0xF2 && t.pat 0 == none) = true := by decide

/-- Vector V1, with T0. -/
theorem test_dispValue : goesTo (exec (.dispValue 0 1234) (start .sync)) (fun t =>
    t.fg == .writing 0 0x66 [(1, 0xF2), (2, 0xDA), (3, 0x60)] false && t.out == []) = true := by decide

/-- Vector V2. -/
theorem test_dispValue_decimals_five : goesTo (exec (.dispValue 5 1234) (start .sync)) (fun t =>
    t.fg == .idle && t.out == [.response 0x0100]) = true := by decide

/-- Vectors E4, E12, E13. -/
theorem test_encode :
    encodeDigits (config .sync .msb) 1234 3 = #v[0x66, 0xF2, 0xDA, 0x61] ∧
    encodeDigits (config .sync .msb) 65535 0 = #v[0xB6, 0xF2, 0xB6, 0xB6] ∧
    encodeDigits (config .sync .msb) 8888 2 = #v[0xFE, 0xFE, 0xFF, 0xFE] := by decide

/-- Vectors F3, F6, F8. -/
theorem test_displayValue :
    displayValue (config .sync .msb) (.rational 99999 1000) 2 = .command (.dispValue 2 9999) ∧
    displayValue (config .sync .msb) (.rational 7 1) 4 = .refusedCall ∧
    displayValue (config .sync .msb) (.rational 1 1) 5 = .invalidArgument := by decide

/-- Vector X4. -/
theorem test_serConfig : goesTo (exec (.serConfig .controller .lsb true true) (start .sync)) (fun t =>
    t.sck && t.sercfg == some ⟨.controller, .lsb, true, true⟩) = true := by decide

/-- Vector X5. -/
theorem test_serConfig_busy : goesTo (exec (.serConfig .controller .lsb true true) { spinning with fg := .idle }) (fun t =>
    t.out == [.response 0x0400] && !t.sck) = true := by decide

/-- Vector X9. -/
theorem test_serXmitBw : goesTo (exec (.serXmitBw 0xA5) (tickDue .sync)) (fun t =>
    !t.ie && t.fg == .spin true 0 && t.txsr == 0xA5 && t.busy && t.xmode == .bw && t.out == []) = true := by decide

/-- Vector X6. -/
theorem test_serXmitBw_unconfigured : goesTo (exec (.serXmitBw 0xA5) (start .sync)) (fun t =>
    t.out == [.response 0x0500] && t.fg == .idle) = true := by decide

/-- Vector X13, its second command. -/
theorem test_serXmitIrq : goesTo (exec (.serXmitIrq 0x3C) (tickDue .sync)) (fun t =>
    t.ie && t.fg == .idle && t.txsr == 0x3C && t.xmode == .irq && t.out == [.response 0x0000]) = true := by decide

/-- Vector X8. -/
theorem test_serXmitIrq_busy : goesTo (exec (.serXmitIrq 0x3C) { spinning with fg := .idle }) (fun t =>
    t.txsr == 0xA5 && t.out == [.response 0x0400]) = true := by decide

/-- Vector X13, its first command. -/
theorem test_serSetHandler : goesTo (exec (.serSetHandler 2) transferDone) (fun t =>
    t.handler == .host && t.muxpend) = true := by decide

/-- Section 2.2: with `HALT = 1`, `0x700003` is answered 0x0300. -/
theorem test_serSetHandler_three : goesTo (step (frozen.withFetchWord 24 0x700003)) (fun t =>
    t.handler == .none && t.out == [.response 0x0300]) = true := by decide

/-- Vector Y5. -/
theorem test_intEnable : goesTo (exec .intEnable { tickDue .sync with ie := false }) (fun t =>
    t.ie && t.tickf) = true := by decide

/-- Vector Y6. -/
theorem test_intDisable : goesTo (exec .intDisable (tickDue .sync)) (fun t => !t.ie && t.tickf) = true := by decide

/-- Vectors Z5, Z6. -/
theorem test_reset : goesTo (exec .reset { frozen with fg := .writing 2 0 [] false, mem := [(0, 1)] }) (fun t =>
    !t.halt && !t.fltMuxOvr && t.fg == .idle && t.mem == [] && t.out == []) = true := by decide

/-- Vector Z1. -/
theorem test_tmrTick : goesTo (exec .tmrTick { start .sync with tickEn := true }) (fun t =>
    t.tickf && !t.fltTickLost) = true := by decide

/-- Vector Z2. -/
theorem test_tmrTick_lost : goesTo (exec .tmrTick (tickDue .sync)) (fun t =>
    t.tickf && t.fltTickLost && !t.halt) = true := by decide

/-- Vector M9: LSB-first; the pattern is shown all the same, and the line trace ends as in M1. -/
theorem test_irqTick_sync : goesTo
    (exec .irqTick { tickDue .sync with cfg := config .sync .lsb }) (fun t =>
      t.srs == 0x4F && t.seg == 0xF2 && t.en == 0b0010 && t.prev == some 1 && t.cur == 2 && t.ie &&
      t.out.take 6 == [.out .sdo false, .out .sck true, .out .sck false,
        .out .sdo true, .out .sck true, .out .sck false] &&
      t.out.drop 24 == [.out .latch true, .out .latch false, .out (.en 1) true, .out (.en 0) false]) = true := by
  decide

/-- Vectors A1, A6. -/
theorem test_irqTick_async :
    goesTo (exec .irqTick (tickDue .async)) (fun t =>
      t.handler == .mux && t.muxpend && t.txsr == 0xF2 && t.busy && t.xmode == .irq && t.cur == 1 &&
      t.en == 0b0001 && t.out == []) = true ∧
    goesTo (exec .irqTick { transferDone with tickf := true }) (fun t =>
      t.fltMuxOvr && t.halt && t.muxpend && t.cur == 0 && t.en == 0) = true := by decide

/-- Vector X1, steps 6 and 8. -/
theorem test_serStep_msb :
    goesTo (exec (.serStep true) { spinning with txsr := 0xA0, rxsr := 0x07, bitcnt := 5, srs := 0x14 }) (fun t =>
      t.sdo && t.txsr == 0x40 && t.rxsr == 0x0F && t.bitcnt == 6 && t.srs == 0x29 && t.busy) = true ∧
    goesTo (exec (.serStep false) { spinning with txsr := 0x80, rxsr := 0x1E, bitcnt := 7, srs := 0x52 }) (fun t =>
      t.txsr == 0x00 && t.rxb == 0x3C && t.bitcnt == 0 && t.srs == 0xA5 && !t.busy && t.done && !t.serf) = true := by
  decide

/-- Vector X2, step 1. -/
theorem test_serStep_lsb : goesTo (exec (.serStep true)
    { spinning with txsr := 0xA3, sercfg := some ⟨.controller, .lsb, false, false⟩ }) (fun t =>
      t.sdo && t.txsr == 0x51 && t.rxsr == 0x80) = true := by decide

/-- Vector A3. -/
theorem test_irqSer_mux : goesTo (exec .irqSer transferDone) (fun t =>
    !t.serf && !t.muxpend && t.seg == 0x66 && t.en == 0b0001 && t.prev == some 0 && t.cur == 1 && t.ie &&
    t.out == [.out .latch true, .out .latch false, .out (.en 0) true]) = true := by decide

/-- Vector A8. -/
theorem test_irqSer_host : goesTo (exec .irqSer { transferDone with handler := .host }) (fun t =>
    t.out == [.notifyHost] && t.muxpend && t.cur == 0 && t.handler == .host) = true := by decide

/-- Vectors A4, X18. -/
theorem test_serGlitch :
    goesTo (exec .serGlitch (start .async)) (fun t => t.serf && !t.busy) = true ∧
    exec .serGlitch spinning = .refused .eventNotEnabled := by
  refine ⟨by decide, rfl⟩

/-- Vector Y9, clocks 64 and 128. -/
theorem test_clk :
    goesTo (exec .clk { clocked with pre := 63 }) (fun t =>
      t.pre == 0 && t.tcnt == 1 && !t.tickf) = true ∧
    goesTo (exec .clk { clocked with pre := 63, tcnt := 1 }) (fun t =>
      t.pre == 0 && t.tcnt == 0 && t.tickf) = true := by decide

/-- 30_encoding.md R68: never both tick sources. -/
theorem test_one_tick_source :
    exec .tmrTick clocked = .refused .eventNotEnabled ∧ exec .clk (tickDue .sync) = .refused .eventNotEnabled := by
  refine ⟨rfl, rfl⟩

/-- Vector X10, its `FG_STEP`. -/
theorem test_fgStep_spin_end : goesTo (exec .fgStep { spinning with done := true, busy := false, rxb := 0x3C }) (fun t =>
    t.out == [.response 0x003C] && t.ie && !t.done && t.fg == .idle) = true := by decide

/-- Vector X12, poll 3. -/
theorem test_fgStep_timeout : goesTo (exec .fgStep { spinning with
    cfg := { config .sync .msb with bwLimit := some 2 }, fg := .spin true 2 }) (fun t =>
    t.out == [.response 0x0200] && t.fltTimeout && t.halt && t.ie && t.busy && t.fg == .idle) = true := by decide

/-- Vector Z7: the last store of a `DISP_VALUE` on a frozen block. -/
theorem test_fgStep_store : goesTo (exec .fgStep { frozen with fg := .writing 3 0x60 [] false }) (fun t =>
    t.pat 3 == some 0x60 && t.fg == .idle && t.out == [.response 0x0000]) = true := by decide

/-! ### For every obligation with hypotheses: states and operands that meet them, clause by clause -/

theorem witness_DecodeEncodeRoundTrip : WellFormed 16 (.serSetHandler 2) = true := rfl

theorem witness_EncodeDecodeRoundTrip : decode 16 (.command 0x30162E) = .ok (.dispValue 0 5678) := rfl

theorem witness_DecoderFollowsOpcodeTable :
    decode 16 (.event 0x41) = .ok (.serStep true) ∧
    fitsRow 16 (.patWrite 0 0) (.command 0x2200DB) ∧ PortWord.command 0x2200DB ≠ .command 0x700003 :=
  ⟨rfl, ⟨rfl, rfl⟩, by decide⟩

theorem witness_IllegalCommandWordsAreAnswered :
    (IllegalWord 16 0x700003 0 ∧ ((start .sync).withFetchWord 24 0x700003).trace = .command 0x700003 :: [] ∧
      ((start .sync).withFetchWord 24 0x700003).fg = .idle ∧ (start .sync).cfg.scaledWidth = 16) ∧ ¬ IllegalWord 16 0x3504D2 0 := by
  refine ⟨⟨?_, rfl, rfl, rfl⟩, ?_⟩ <;> unfold IllegalWord <;> decide

theorem witness_StepRunsDecodedOperation :
    ((tickDue .sync).withFetchWord 8 0x30).trace = .event 0x30 :: [] ∧ decode 16 (.event 0x30) = .ok .irqTick ∧
    decodeTableWord 24 0x100000 = some .dispInit ∧ 16 ≤ (tickDue .sync).cfg.scaledWidth :=
  ⟨rfl, rfl, rfl, by decide⟩

theorem witness_WordsThatAreNoStep :
    (start .sync).trace = [] ∧
    (((start .sync).withFetchWord 8 0x00).trace = .event 0x00 :: [] ∧ (0x00#8 >>> 4 = 0)) ∧
    (((start .sync).withFetchWord 8 0x90).trace = .event 0x90 :: [] ∧ (9 ≤ 0x90#8 >>> 4)) ∧
    (((start .sync).withFetchWord 8 0x11).trace = .event 0x11 :: [] ∧
      (0x11#8 >>> 4 ≠ 4 ∧ 0x11#8 &&& 0x0F ≠ 0)) ∧
    (((start .sync).withFetchWord 8 0x42).trace = .event 0x42 :: [] ∧ 0x42#8 &&& 0x0E ≠ 0) :=
  ⟨rfl, ⟨rfl, by decide⟩, ⟨rfl, by decide⟩, ⟨rfl, by decide⟩, ⟨rfl, by decide⟩⟩

theorem witness_CommandCheckOrder :
    ((frozen.withFetchWord 24 0x700003).trace = .command 0x700003 :: [] ∧ frozen.fg = .idle ∧ IllegalWord 16 0x700003 0) ∧
    ((frozen.withFetchWord 24 0x3504D2).trace = .command 0x3504D2 :: [] ∧ ¬ IllegalWord 16 0x3504D2 0 ∧
      frozen.halt = true) ∧
    (({ start .sync with busy := true } : State).halt = false ∧ ({ start .sync with busy := true } : State).sercfg = none ∧
      ({ start .sync with busy := true } : State).busy = true ∧ encode (.serXmitBw 0xA5) = .command 0x5000A5) ∧
    ((spinning.withFetchWord 24 0x800000).trace = .command 0x800000 :: [] ∧ spinning.fg ≠ .idle) := by
  refine ⟨⟨rfl, rfl, ?_⟩, ⟨rfl, ?_, rfl⟩, ⟨rfl, rfl, rfl, rfl⟩, ⟨rfl, by decide⟩⟩ <;> unfold IllegalWord <;> decide

theorem witness_OneResponsePerCommand :
    (∃ t, exec .intEnable (start .sync) = .next t ∧ t.fg = .idle) ∧
    (∃ t, exec (.serXmitBw 0) (tickDue .sync) = .next t ∧ t.fg ≠ .idle) ∧
    (∃ t, exec .fgStep { spinning with done := true } = .next t ∧ t.fg = .idle) ∧
    ∃ t, exec .irqTick (tickDue .sync) = .next t :=
  ⟨⟨_, rfl, rfl⟩, ⟨_, rfl, by decide⟩, ⟨_, rfl, rfl⟩, ⟨_, rfl⟩⟩

theorem witness_PatWriteStoresOneSlot :
    (start .sync).fg = .idle ∧ (start .sync).halt = false ∧ (0 : Slot) ≠ 3 := by decide

theorem witness_EncodeShowsLowFourDigits : (0 ≤ 4) ∧ (4 ≤ 4) := by decide

theorem witness_DecimalPointOnOneSlot : (3 ≤ 4) ∧ ((3 : Fin 4).val = 3) := by decide

theorem witness_DispValueWritesFourSlots :
    (start .sync).fg = .idle ∧ (start .sync).halt = false ∧
    (4 = (4 : BitVec 3).toNat ∧ (4 : BitVec 3).toNat ≤ 4) ∧
    (4 < (5 : BitVec 3).toNat ∧
      ({ config .sync .msb with decimalsPolicy := .clamp } : Config).decimalsPolicy = .clamp) ∧
    (4 < (7 : BitVec 3).toNat ∧ (start .sync).cfg.decimalsPolicy = .reject) := by decide

theorem witness_TornFrameAfterSomeStores :
    (start .sync).fg = .idle ∧ (start .sync).halt = false ∧ (4 : BitVec 3).toNat ≤ 4 ∧ 0 < 4 ∧ 3 < 4 := by decide

theorem witness_DisplayValueScalesExactly :
    (2 ≤ 4 ∧ (0 : Int) ≤ 99999 ∧ 0 < 1000 ∧
      (9999 * 1000 ≤ (99999 : Int).toNat * 10 ^ 2 ∧ (99999 : Int).toNat * 10 ^ 2 < (9999 + 1) * 1000)) ∧
    (4 ≤ 4 ∧ (0 : Int) ≤ 7 ∧ 0 < 1 ∧ (70000 * 1 ≤ (7 : Int).toNat * 10 ^ 4 ∧ (7 : Int).toNat * 10 ^ 4 < (70000 + 1) * 1)) ∧
    (4 < 5 ∧ (config .sync .msb).decimalsPolicy = .reject) ∧ (4 ≤ 4 ∧ (-15 : Int) < 0) := by decide

theorem witness_SerConfigStoresFields :
    (start .sync).fg = .idle ∧ (start .sync).halt = false ∧ (start .sync).busy = false ∧
    ({ spinning with fg := .idle } : State).halt = false ∧ ({ spinning with fg := .idle } : State).busy = true := by decide

theorem witness_SerXmitBwEntersCriticalSection :
    ((tickDue .sync).fg = .idle ∧ (tickDue .sync).halt = false ∧ (tickDue .sync).sercfg ≠ none ∧
      (tickDue .sync).busy = false) ∧
    ((start .sync).fg = .idle ∧ (start .sync).halt = false ∧ (start .sync).sercfg = none) ∧
    (({ spinning with fg := .idle } : State).sercfg ≠ none ∧ ({ spinning with fg := .idle } : State).busy = true) := by
  decide

theorem witness_SpinPollsUntilLimit :
    (spinning.fg = .spin true 0 ∧ spinning.done = false ∧ spinning.cfg.bwLimit = none) ∧
    (({ config .sync .msb with bwLimit := some 2 } : Config).bwLimit = some 2 ∧ 1 < 2 ∧ 2 ≤ 2) := by decide

theorem witness_BusyWaitReturnsReceivedByte :
    (({ spinning with done := true } : State).fg = .spin true 0 ∧ ({ spinning with done := true } : State).done = true) ∧
    spinning.xmode = .bw ∧ ∃ t, exec (.serStep true) spinning = .next t := ⟨⟨rfl, rfl⟩, rfl, _, rfl⟩

theorem witness_SerXmitIrqReturnsAtOnce :
    ((tickDue .async).fg = .idle ∧ (tickDue .async).halt = false ∧ (tickDue .async).sercfg ≠ none ∧
      (tickDue .async).busy = false) ∧
    (start .async).sercfg = none ∧
    (({ spinning with fg := .idle } : State).sercfg ≠ none ∧ ({ spinning with fg := .idle } : State).busy = true) := by
  decide

theorem witness_SerSetHandlerOverwrites :
    (transferDone.fg = .idle ∧ transferDone.halt = false) ∧ (frozen.fg = .idle ∧ frozen.halt = true) := by decide

theorem witness_DispInitStartsTimer :
    ((tickDue .sync).fg = .idle ∧ (tickDue .sync).halt = false ∧ (tickDue .sync).tickEn = true) ∧
    ((start .sync).tickEn = false ∧ (start .sync).cfg.variant = .sync) ∧
    (({ start .async with busy := true } : State).tickEn = false ∧ (start .async).cfg.variant = .async ∧
      ({ start .async with busy := true } : State).busy = true) ∧
    ((start .async).tickEn = false ∧ (start .async).busy = false) := by decide

theorem witness_IntEnableSetsIe :
    ({ tickDue .sync with ie := false } : State).fg = .idle ∧ ({ tickDue .sync with ie := false } : State).halt = false ∧
    ({ tickDue .sync with ie := false } : State).tickf = true ∧ transferDone.serf = true := by decide

theorem witness_IntDisableClearsIe :
    (tickDue .sync).fg = .idle ∧ (tickDue .sync).halt = false ∧ (tickDue .sync).tickEn = true ∧
    (tickDue .sync).cfg.tickSource = .event := by decide

theorem witness_TimerTickSetsPending :
    (({ start .sync with tickEn := true } : State).tickEn = true ∧ ({ start .sync with tickEn := true } : State).tickf = false) ∧
    ((tickDue .sync).tickEn = true ∧ (tickDue .sync).tickf = true) ∧ (tickDue .sync).cfg.tickSource = .event ∧
    (start .sync).tickEn = false ∧ clocked.cfg.tickSource = .clock := by decide

theorem witness_ClockDividesToTicks :
    (clocked.cfg.tickSource = .clock ∧ clocked.tickEn = true ∧ clocked.pre ≠ 63 ∧ clocked.pre = 0 ∧ clocked.tcnt = 0) ∧
    (({ clocked with pre := 63 } : State).pre = 63 ∧ (0 + 1) % clocked.cfg.timerPeriod ≠ 0) ∧
    (({ clocked with pre := 63, tcnt := 1 } : State).tcnt = 1 ∧ (1 + 1) % clocked.cfg.timerPeriod = 0) ∧
    127 < 64 * clocked.cfg.timerPeriod ∧ (start .sync).tickEn = false ∧ (tickDue .sync).cfg.tickSource = .event := by
  decide

theorem witness_ForegroundStepAlwaysEnabled :
    ({ frozen with fg := .writing 2 0 [(3, 1)] false } : State).fg = .writing 2 0 [(3, 1)] false ∧
    ({ frozen with fg := .writing 3 1 [] false } : State).fg = .writing 3 1 [] false ∧
    spinning.fg = .spin true 0 ∧ frozen.fg = .idle := by decide

theorem witness_SyncTickPresentsDigit :
    ((tickDue .sync).cfg.variant = .sync ∧ (tickDue .sync).ie = true ∧ (tickDue .sync).tickf = true ∧
      (tickDue .sync).halt = false ∧ (tickDue .sync).latch = false ∧ (tickDue .sync).busy = false ∧
      (tickDue .sync).pat (tickDue .sync).cur = some 0xF2) ∧
    ({ tickDue .sync with busy := true } : State).busy = true ∧
    ({ tickDue .sync with cur := 2 } : State).pat 2 = none := by decide

theorem witness_AsyncTickStartsTransfer :
    ((tickDue .async).cfg.variant = .async ∧ (tickDue .async).ie = true ∧ (tickDue .async).tickf = true ∧
      (tickDue .async).halt = false ∧ (tickDue .async).busy = false ∧ (tickDue .async).muxpend = false ∧
      (tickDue .async).pat (tickDue .async).cur = some 0xF2) ∧
    ({ transferDone with tickf := true } : State).muxpend = true ∧
    ({ tickDue .async with cur := 2 } : State).pat 2 = none := by decide

theorem witness_MuxDoneFinishesTick :
    (transferDone.ie = true ∧ transferDone.serf = true ∧ transferDone.halt = false ∧ transferDone.handler = .mux ∧
      transferDone.latch = false ∧ transferDone.muxpend = true) ∧
    ({ transferDone with muxpend := false } : State).muxpend = false := by decide

theorem witness_CompletionGoesToRegisteredTarget :
    (transferDone.ie = true ∧ transferDone.serf = true ∧ transferDone.halt = false ∧ transferDone.handler = .mux) ∧
    ({ transferDone with handler := .none } : State).handler = .none ∧
    ({ transferDone with handler := .host } : State).handler = .host ∧
    ¬ (spinning.ie = true ∧ spinning.serf = true ∧ spinning.halt = false) := by decide

theorem witness_GlitchSetsCompletionOnly :
    spinning.busy = true ∧
    (({ transferDone with muxpend := false } : State).busy = false ∧ transferDone.ie = true ∧ transferDone.halt = false ∧
      transferDone.handler = .mux ∧ ({ transferDone with muxpend := false } : State).muxpend = false) ∧
    ({ transferDone with handler := .host } : State).handler = .host := by decide

theorem witness_SerStepShiftsOneBit :
    spinning.busy = true ∧ spinning.sercfg = some ⟨.controller, .msb, false, false⟩ := by decide

theorem witness_BitTraceOfTheFourModes :
    spinning.busy = true ∧ spinning.sercfg = some ⟨.controller, .msb, false, false⟩ ∧ spinning.txsr.getLsbD 7 = true ∧
    ({ spinning with sercfg := some ⟨.peripheral, .lsb, true, true⟩ } : State).sercfg
      = some ⟨.peripheral, .lsb, true, true⟩ := by decide

theorem witness_RegisterShiftsOnRisingClock :
    spinning.busy = true ∧ spinning.sercfg = some ⟨.controller, .msb, false, false⟩ ∧
    ¬ ((⟨.controller, .msb, false, false⟩ : SerCfg).cpol = false ∧ (⟨.controller, .msb, false, false⟩ : SerCfg).cpha = true) := by
  decide

theorem witness_LatchCopiesShiftStage :
    ((start .sync).latch = false ∧ (start .sync).cfg.dispOrder = .msb) ∧
    (config .sync .lsb).dispOrder = .lsb ∧ ({ start .sync with latch := true } : State).latch = true := by decide

theorem witness_LinkShowsSentByte :
    (start .sync).latch = false ∧
    ([true, false, true, true, false, false, true, false].length = 8 ∧ spinning.busy = true ∧ spinning.bitcnt = 0 ∧
      spinning.sck = false ∧ spinning.latch = false ∧
      spinning.sercfg = some ⟨.controller, spinning.cfg.dispOrder, false, false⟩) := by decide

theorem witness_BitBangEqualsTransferTrace :
    spinning.busy = true ∧ spinning.bitcnt = 0 ∧ spinning.sck = false ∧
    spinning.sercfg = some ⟨.controller, spinning.cfg.dispOrder, false, false⟩ ∧
    ∃ t, runAll ([true, false, true, true, false, false, true, false].map .serStep) spinning = .next t :=
  ⟨rfl, rfl, rfl, rfl, _, rfl⟩

theorem witness_BusyWaitIsFullDuplex :
    [false, false, true, true, true, true, false, false].length = 8 ∧
    (tickDue .sync).fg = .idle ∧ (tickDue .sync).halt = false ∧
    (tickDue .sync).sercfg = some ⟨.controller, .msb, false, false⟩ ∧ (tickDue .sync).busy = false := by decide

/-! Invariants of the states above, for the statements about states that occur. -/

theorem inv_tickDue_sync : Machine.Inv (tickDue .sync) where
  memWf := rfl
  prevBehind := .inr rfl
  oneDigit := .inr ⟨0, rfl, rfl⟩
  muxAsync h := nomatch h
  idleCount _ := rfl
  busyConfigured h := nomatch h
  displayConfigured _ _ := rfl
  tickStarted _ := rfl
  spinSection _ _ h := nomatch h
  atomicSection _ _ _ _ h := nomatch h
  writesAscend := rfl
  latchLow := rfl
  tcntBound := by decide
  haltReason := rfl

theorem inv_tickDue_async : Machine.Inv (tickDue .async) where
  memWf := rfl
  prevBehind := .inr rfl
  oneDigit := .inr ⟨0, rfl, rfl⟩
  muxAsync h := nomatch h
  idleCount _ := rfl
  busyConfigured h := nomatch h
  displayConfigured _ _ := rfl
  tickStarted _ := rfl
  spinSection _ _ h := nomatch h
  atomicSection _ _ _ _ h := nomatch h
  writesAscend := rfl
  latchLow := rfl
  tcntBound := by decide
  haltReason := rfl

/-- The state of `witness_BusyWaitEndsUnderFairness`: a busy-wait whose transfer is done, a completion pending. -/
def waitOver : State := { spinning with busy := false, done := true, serf := true }

/-- What `waitOver`'s next `FG_STEP` leaves. -/
def waitDone : State := waitOver.spinEnd true

theorem inv_spinning : Machine.Inv spinning where
  memWf := rfl
  prevBehind := .inl rfl
  oneDigit := .inl rfl
  muxAsync h := nomatch h
  idleCount _ := rfl
  busyConfigured _ := rfl
  displayConfigured h := nomatch h
  tickStarted h := nomatch h
  spinSection _ _ _ := ⟨rfl, rfl, .inl rfl⟩
  atomicSection _ _ _ _ h := nomatch h
  writesAscend := rfl
  latchLow := rfl
  tcntBound := by decide
  haltReason := rfl

theorem inv_waitOver : Machine.Inv waitOver where
  memWf := rfl
  prevBehind := .inl rfl
  oneDigit := .inl rfl
  muxAsync h := nomatch h
  idleCount _ := rfl
  busyConfigured h := nomatch h
  displayConfigured h := nomatch h
  tickStarted h := nomatch h
  spinSection _ _ _ := ⟨rfl, rfl, .inr rfl⟩
  atomicSection _ _ _ _ h := nomatch h
  writesAscend := rfl
  latchLow := rfl
  tcntBound := by decide
  haltReason := rfl

theorem witness_StepsExactlyWhenEnabled : Machine.Inv (tickDue .sync) ∧ (tickDue .sync).enabled .irqTick = true ∧
    (tickDue .sync).enabled .irqSer = false := ⟨inv_tickDue_sync, rfl, rfl⟩

theorem witness_StepKeepsInvariant : Machine.Inv ((tickDue .sync).withFetchWord 8 0x30) ∧
    ∃ t, step ((tickDue .sync).withFetchWord 8 0x30) = .next t := by
  obtain ⟨a, b, c, d, e, f, g, h, i, j, k, l, m, n⟩ := inv_tickDue_sync
  exact ⟨⟨a, b, c, d, e, f, g, h, i, j, k, l, m, n⟩, _, rfl⟩

theorem witness_ParametersNeverChange : ∃ t, exec .irqTick (tickDue .sync) = .next t := ⟨_, rfl⟩

theorem witness_FaultFlagsAreSticky :
    (∃ t, exec .tmrTick { frozen with tickEn := true, fltTickLost := true, fltTimeout := true } = .next t) ∧
    Instr.tmrTick ≠ .reset ∧ frozen.fltMuxOvr = true ∧ frozen.halt = true := ⟨⟨_, rfl⟩, by decide, rfl, rfl⟩

theorem witness_HaltFreezesDisplay :
    (frozen.halt = true ∧ frozen.fg = .idle ∧ Instr.isCommand (.patWrite 1 0x60) = true ∧
      WellFormed 16 (.patWrite 1 0x60) = true ∧ frozen.busy = false) ∧
    (({ frozen with tickEn := true } : State).tickEn = true ∧ frozen.cfg.tickSource = .event ∧
      ∃ t, exec .tmrTick { frozen with tickEn := true } = .next t) ∧
    clocked.cfg.tickSource = .clock ∧
    (({ spinning with halt := true } : State).busy = true ∧ spinning.sercfg ≠ none ∧ spinning.fg ≠ .idle) ∧
    (∃ t, exec .irqTick { tickDue .sync with busy := true } = .next t ∧ t.halt = true) ∧
    (tickDue .sync).halt = false :=
  ⟨⟨rfl, rfl, rfl, rfl, rfl⟩, ⟨rfl, rfl, _, rfl⟩, rfl, ⟨rfl, by decide, by decide⟩, ⟨_, rfl, rfl⟩, rfl⟩

theorem witness_SequencerMovesOnlyInInterrupts :
    (∃ t, exec .irqTick (tickDue .sync) = .next t ∧ t.cur ≠ (tickDue .sync).cur) ∧
    (∃ t, exec .tmrTick (tickDue .sync) = .next t) ∧ Instr.tmrTick ≠ .irqTick ∧ Instr.tmrTick ≠ .irqSer :=
  ⟨⟨_, rfl, by decide⟩, ⟨_, rfl⟩, by decide, by decide⟩

theorem witness_SlotsWrittenByForegroundOnly :
    (∃ t, exec (.patWrite 0 0x60) (tickDue .sync) = .next t) ∧ (∃ t, exec (.patWrite 0 0x60) frozen = .next t) ∧
    ((tickDue .sync).pat 1).isSome = true ∧ (0 : Slot) ≠ 1 ∧
    (∃ t, exec .fgStep { frozen with fg := .writing 3 1 [] false } = .next t) ∧
    (∃ t, exec .fgStep spinning = .next t ∧ spinning.fg = .spin true 0) ∧
    (∃ t, exec .irqTick (tickDue .sync) = .next t) ∧ (∀ k b, Instr.irqTick ≠ .patWrite k b) ∧
    Instr.irqTick ≠ .fgStep ∧ Instr.irqTick ≠ .reset :=
  ⟨⟨_, rfl⟩, ⟨_, rfl⟩, rfl, by decide, ⟨_, rfl⟩, ⟨_, rfl, rfl⟩, ⟨_, rfl⟩, fun _ _ h => (nomatch h), by decide,
    by decide⟩

theorem witness_SegmentsChangeOnlyInInterrupts :
    (∃ t, exec (.serStep true) spinning = .next t) ∧ Instr.serStep true ≠ .reset ∧ Instr.serStep true ≠ .irqTick ∧
    Instr.serStep true ≠ .irqSer := ⟨⟨_, rfl⟩, by decide, by decide, by decide⟩

theorem witness_AtMostOneDigitShown : Machine.Inv (tickDue .sync) ∧
    ({ tickDue .sync with seg := 0x66 } : State).shown 0 ≠ 0x00 := ⟨inv_tickDue_sync, by decide⟩

theorem witness_CriticalSectionsHoldInterruptsOff : Machine.Inv spinning ∧ spinning.fg = .spin true 0 :=
  ⟨inv_spinning, rfl⟩

theorem witness_SyncTicksGoRoundRobin :
    Machine.Inv { tickDue .sync with tickf := false } ∧ (tickDue .sync).cfg.variant = .sync ∧
    (tickDue .sync).cfg.tickSource = .event ∧ (tickDue .sync).tickEn = true ∧
    (tickDue .sync).ie = true ∧ (tickDue .sync).halt = false ∧ (tickDue .sync).busy = false := by
  obtain ⟨a, b, c, d, e, f, g, _, i, j, k, l, m, n⟩ := inv_tickDue_sync
  exact ⟨⟨a, b, c, d, e, f, g, (fun h => nomatch h), i, j, k, l, m, n⟩, rfl, rfl, rfl, rfl, rfl, rfl⟩

theorem witness_AsyncTickShowsDigit :
    Machine.Inv (tickDue .async) ∧ [true, false, true, true, false, false, true, false].length = 8 ∧
    (tickDue .async).cfg.variant = .async ∧ (tickDue .async).ie = true ∧ (tickDue .async).tickf = true ∧
    (tickDue .async).halt = false ∧ (tickDue .async).busy = false ∧ (tickDue .async).muxpend = false ∧
    (tickDue .async).sck = false ∧ (tickDue .async).pat (tickDue .async).cur = some 0xF2 ∧
    (tickDue .async).sercfg = some ⟨.controller, (tickDue .async).cfg.dispOrder, false, false⟩ :=
  ⟨inv_tickDue_async, rfl, rfl, rfl, rfl, rfl, rfl, rfl, rfl, rfl, rfl⟩

theorem witness_OverwrittenHandlerLeadsToOverrun :
    transferDone.cfg.variant = .async ∧ transferDone.cfg.tickSource = .event ∧ transferDone.fg = .idle ∧ transferDone.halt = false ∧ transferDone.ie = true ∧
    transferDone.muxpend = true ∧ transferDone.serf = true ∧ transferDone.tickEn = true ∧ transferDone.tickf = false := by
  decide

theorem witness_ServedTicksAreNotLost :
    ticksServed (start .sync).tickf [.dispInit, .intEnable, .tmrTick, .irqTick, .tmrTick] = true ∧
    (start .sync).cfg.tickSource = .event ∧
    (start .sync).fltTickLost = false ∧
    ∃ t, runAll [.dispInit, .intEnable, .tmrTick, .irqTick, .tmrTick] (start .sync) = .next t :=
  ⟨rfl, rfl, rfl, _, rfl⟩

theorem witness_RunsUseOneTickSource :
    (∃ t, runAll [.dispInit, .intEnable, .tmrTick, .irqTick] (start .sync) = .next t ∧
      (start .sync).cfg.tickSource = .event) ∧
    ∃ t, runAll [.clk, .clk] clocked = .next t ∧ clocked.cfg.tickSource = .clock :=
  ⟨⟨_, rfl, rfl⟩, _, rfl, rfl⟩

/-- A display transfer that finishes before the next tick. -/
def finishedTransfer : List Instr :=
  [.irqTick, .serStep false, .serStep false, .serStep false, .serStep false, .serStep false, .serStep false,
    .serStep false, .serStep false, .irqSer, .tmrTick, .irqTick]

theorem witness_FinishedTransfersDoNotOverrun :
    Machine.Inv (tickDue .async) ∧ (tickDue .async).busy = false ∧ (tickDue .async).muxpend = false ∧
    (tickDue .async).fltMuxOvr = false ∧ (∀ b, .serXmitBw b ∉ finishedTransfer ∧ .serXmitIrq b ∉ finishedTransfer) ∧
    (∀ h, .serSetHandler h ∉ finishedTransfer) ∧ transfersFinish none (tickDue .async) finishedTransfer = true ∧
    ∃ t, runAll finishedTransfer (tickDue .async) = .next t := by
  refine ⟨inv_tickDue_async, rfl, rfl, rfl, fun b => ?_, fun h => ?_, rfl, _, rfl⟩
  · simp [finishedTransfer]
  · simp [finishedTransfer]

/-- A fair infinite run: the busy-wait ends, then completion signals repeat. -/
theorem witness_BusyWaitEndsUnderFairness :
    ∃ (r : Nat → State) (i : Nat → Instr), IsRun r i ∧ Machine.Inv (r 0) ∧ (r 0).fg = .spin true 0 ∧
      (r 0).cfg.bwLimit = none ∧ (r 0).cfg.serMayStall = false ∧
      (∃ c, (r 0).sercfg = some c ∧ c.role = .controller) ∧ (∀ m, i m ≠ .reset) ∧
      SerialFair r i ∧ ForegroundFair r i := by
  refine ⟨fun n => if n = 0 then waitOver else waitDone, fun n => if n = 0 then .fgStep else .serGlitch,
    fun n => ?_, inv_waitOver, rfl, rfl, rfl, ⟨_, rfl, rfl⟩, fun m => ?_, fun _ n h => ?_, fun n h => ?_⟩
  · cases n with
    | zero => rfl
    | succ n => rfl
  · cases m with
    | zero => exact fun h => nomatch h
    | succ m => exact fun h => nomatch h
  · exact absurd (h (n + 1) (Nat.le_succ n)) (by show ¬ waitDone.shiftsByItself = true; decide)
  · exact absurd (show waitDone.fg = .idle from rfl) (h (n + 1) (Nat.le_succ n))

end Sys2Proof.Tests
end

/-!
PROOF. When an operation is a step (30_encoding.md R67, R68). Each guard lets its body run exactly under its own
condition, and no body behind a guard is refused: an error is an answer, and so a next state. The one exception is
the bit step of an unconfigured serial unit, a state that the invariant rules out.
-/

namespace Sys2Proof.Machine

/-! ### The guards -/

theorem exists_acceptCommand_next_iff {s : State} {body : State → Result} (hbody : ∃ t, body s = .next t) :
    (∃ t, acceptCommand s body = .next t) ↔ s.fg = .idle := by
  constructor
  · rintro ⟨t, h⟩
    exact (acceptCommand_next h).1
  · intro hfg
    cases hh : s.halt
    · rwa [acceptCommand_idle hfg hh]
    · exact ⟨_, acceptCommand_halted hfg hh⟩

theorem exists_illegalCommand_next_iff {s : State} : (∃ t, illegalCommand s = .next t) ↔ s.fg = .idle := by
  constructor
  · rintro ⟨t, h⟩
    exact (illegalCommand_next h).1
  · intro hfg
    exact ⟨s.respond .illegalCommand 0, by simp only [illegalCommand, hfg, raiseError]⟩

theorem exists_whenEnabled_next_iff {e : Bool} {s : State} {body : State → Result}
    (hbody : e = true → ∃ t, body s = .next t) : (∃ t, whenEnabled e s body = .next t) ↔ e = true := by
  constructor
  · rintro ⟨t, h⟩
    exact (whenEnabled_next h).1
  · rintro rfl
    exact hbody rfl

theorem exists_takeInterrupt_next_iff {src : IrqSource} {f : State → State} {s : State} :
    (∃ t, takeInterrupt src f s = .next t) ↔ (s.ie && s.pending src && !s.halt) = true :=
  exists_whenEnabled_next_iff fun _ => ⟨_, rfl⟩

theorem exists_whenSerialReady_next {s : State} {body : State → Result} (hbody : ∃ t, body s = .next t) :
    ∃ t, whenSerialReady s body = .next t := by
  by_cases hc : s.sercfg = none
  · exact ⟨_, whenSerialReady_unconfigured hc⟩
  · cases hb : s.busy
    · rwa [whenSerialReady_ready hc hb]
    · exact ⟨_, whenSerialReady_busy hc hb⟩

/-! ### The commands -/

theorem exists_dispInit_next_iff {s : State} : (∃ t, exec .dispInit s = .next t) ↔ s.fg = .idle := by
  rw [exec_dispInit]
  refine exists_acceptCommand_next_iff ?_
  split
  · exact ⟨_, rfl⟩
  · split <;> exact ⟨_, rfl⟩

theorem exists_dispValue_next_iff {s : State} (n : BitVec 3) (v : Nat) :
    (∃ t, exec (.dispValue n v) s = .next t) ↔ s.fg = .idle := by
  rw [exec_dispValue]
  refine exists_acceptCommand_next_iff ?_
  split <;> exact ⟨_, rfl⟩

theorem exists_serConfig_next_iff {s : State} (r : Role) (q : BitOrder) (l p : Bool) :
    (∃ t, exec (.serConfig r q l p) s = .next t) ↔ s.fg = .idle := by
  cases r with
  | controller =>
    rw [exec_serConfig_controller]
    refine exists_acceptCommand_next_iff ?_
    split <;> exact ⟨_, rfl⟩
  | peripheral =>
    rw [exec_serConfig_peripheral]
    refine exists_acceptCommand_next_iff ?_
    split <;> exact ⟨_, rfl⟩

/-- The reserved handler id 3 is answered too, with `IllegalCommand` (30_encoding.md R65). -/
theorem exists_serSetHandler_next_iff {s : State} (h : BitVec 2) :
    (∃ t, exec (.serSetHandler h) s = .next t) ↔ s.fg = .idle := by
  cases ht : handlerOperand h with
  | none =>
    have e : exec (.serSetHandler h) s = illegalCommand s := by simp only [exec, execSerSetHandler, ht]
    rw [e]
    exact exists_illegalCommand_next_iff
  | some target =>
    rw [exec_serSetHandler s ht]
    exact exists_acceptCommand_next_iff ⟨_, rfl⟩

/-- 30_encoding.md R67: every command is a step exactly when `FG = IDLE`. -/
theorem exists_command_next_iff {s : State} {i : Instr} (hi : i.isCommand = true) :
    (∃ t, exec i s = .next t) ↔ s.fg = .idle := by
  cases i with
  | dispInit => exact exists_dispInit_next_iff
  | patWrite k b => rw [exec_patWrite]; exact exists_acceptCommand_next_iff ⟨_, rfl⟩
  | dispValue n v => exact exists_dispValue_next_iff n v
  | serConfig r q l p => exact exists_serConfig_next_iff r q l p
  | serXmitBw b => rw [exec_serXmitBw]; exact exists_acceptCommand_next_iff (exists_whenSerialReady_next ⟨_, rfl⟩)
  | serXmitIrq b => rw [exec_serXmitIrq]; exact exists_acceptCommand_next_iff (exists_whenSerialReady_next ⟨_, rfl⟩)
  | serSetHandler h => exact exists_serSetHandler_next_iff h
  | intEnable => rw [exec_intEnable]; exact exists_acceptCommand_next_iff ⟨_, rfl⟩
  | intDisable => rw [exec_intDisable]; exact exists_acceptCommand_next_iff ⟨_, rfl⟩
  | _ => cases hi

theorem State.enabled_command_iff {s : State} {i : Instr} (hi : i.isCommand = true) :
    s.enabled i = true ↔ s.fg = .idle := by
  cases i with
  | dispInit | patWrite | dispValue | serConfig | serXmitBw | serXmitIrq | serSetHandler | intEnable
  | intDisable => exact beq_iff_eq
  | _ => cases hi

/-! ### The events -/

theorem exists_serStep_next_iff {s : State} (hc : s.busy = true → s.sercfg.isSome = true) (sdi : Bool) :
    (∃ t, exec (.serStep sdi) s = .next t) ↔ s.busy = true := by
  rw [exec_serStep]
  refine exists_whenEnabled_next_iff fun hb => ?_
  obtain ⟨c, hcfg⟩ := Option.isSome_iff_exists.1 (hc hb)
  rw [hcfg]
  exact ⟨_, rfl⟩

theorem exists_fgStep_next_iff {s : State} : (∃ t, exec .fgStep s = .next t) ↔ s.fg ≠ .idle := by
  cases hfg : s.fg with
  | idle => simp [exec_fgStep_idle hfg]
  | writing k b rest saved => simp [exec_fgStep_writing hfg]
  | spin saved n =>
    cases hd : s.done
    · simp [exec_fgStep_poll hfg hd]
    · simp [exec_fgStep_end hfg hd]

/-- 30_encoding.md R68: an event is a step exactly when the table's condition holds. -/
theorem exists_event_next_iff {s : State} (hc : s.busy = true → s.sercfg.isSome = true) {i : Instr}
    (hi : i.isCommand = false) : (∃ t, exec i s = .next t) ↔ s.enabled i = true := by
  cases i with
  | reset => exact iff_of_true ⟨_, exec_reset s⟩ rfl
  | tmrTick => exact exists_whenEnabled_next_iff fun _ => ⟨_, rfl⟩
  | irqTick => exact exists_takeInterrupt_next_iff
  | serStep sdi => exact exists_serStep_next_iff hc sdi
  | irqSer => exact exists_takeInterrupt_next_iff
  | serGlitch => exact exists_whenEnabled_next_iff fun _ => ⟨_, rfl⟩
  | clk => exact exists_whenEnabled_next_iff fun _ => ⟨_, rfl⟩
  | fgStep => exact exists_fgStep_next_iff.trans bne_iff_ne.symm
  | _ => cases hi

/-- Settles O42: the commands by R67 and the events by R68, where the invariant gives a busy serial unit its
configuration. -/
theorem stepsExactlyWhenEnabled : Obligations.StepsExactlyWhenEnabled := by
  intro i s hinv
  cases hi : i.isCommand
  · exact exists_event_next_iff hinv.busyConfigured hi
  · exact (exists_command_next_iff hi).trans (State.enabled_command_iff hi).symm

end Sys2Proof.Machine

/-!
PROOF. The Digit Encoder and the pattern stores (40_encoder.md R80 to R83). The encoder is taken slot by slot; the four
micro-steps of a `DISP_VALUE` are a run of stores, proved for a list of any length.
-/

namespace Sys2Proof.Machine

/-! ### `PAT_WRITE` (40_encoder.md R80) -/

theorem exec_patWrite_accepted {s : State} (i : Slot) (b : Byte) (hfg : s.fg = .idle) (hh : s.halt = false) :
    exec (.patWrite i b) s = .next ((s.writeSlot i b).respond .ok 0x00) := by
  rw [exec_patWrite, acceptCommand_idle hfg hh]

@[simp] theorem State.pat_respond (s : State) (st : Status) (d : Byte) (j : Slot) :
    (s.respond st d).pat j = s.pat j := rfl

/-- Settles O10: the accepted command is one slot store and the answer, and a store is read at its own slot only. -/
theorem patWriteStoresOneSlot : Obligations.PatWriteStoresOneSlot := by
  refine ⟨fun s i b hfg hh => ⟨_, exec_patWrite_accepted i b hfg hh, rfl, ?_, fun j hj => ?_⟩, rfl⟩
  · rw [State.pat_respond, State.pat_writeSlot_same]
  · rw [State.pat_respond, State.pat_writeSlot_other s b hj]

/-! ### The argument check -/

theorem decimalsOperand_of_le (p : DecimalsPolicy) {n : Nat} (h : n ≤ 4) : decimalsOperand p n = some n :=
  if_pos h

theorem decimalsOperand_reject {n : Nat} (h : 4 < n) : decimalsOperand .reject n = none :=
  if_neg (Nat.not_le.2 h)

theorem decimalsOperand_clamp {n : Nat} (h : 4 < n) : decimalsOperand .clamp n = some 4 :=
  if_neg (Nat.not_le.2 h)

/-! ### `Encode` (40_encoder.md R81) -/

theorem encodeDigits_getElem (c : Config) (scaled decimals : Nat) (i : Fin 4) :
    (encodeDigits c scaled decimals)[i] = encodeSlot c scaled decimals i := by
  match i with
  | 0 | 1 | 2 | 3 => rfl

/-- Two values that agree in every slot are encoded alike. -/
theorem encodeDigits_congr {c : Config} {v w m n : Nat}
    (h : ∀ i : Fin 4, encodeSlot c v m i = encodeSlot c w n i) : encodeDigits c v m = encodeDigits c w n :=
  Vector.ext fun i hi =>
    (encodeDigits_getElem c v m ⟨i, hi⟩).trans ((h ⟨i, hi⟩).trans (encodeDigits_getElem c w n ⟨i, hi⟩).symm)

theorem encodeSlot_eq (c : Config) (scaled decimals i : Nat) : encodeSlot c scaled decimals i =
    segTable c (digit scaled i) ||| (if i = decimals ∧ decimals ≠ 0 then 0x01 else 0x00) := by
  unfold encodeSlot
  split
  · rfl
  · exact BitVec.or_zero.symm

/-- The low four digits do not see the ten thousands. -/
theorem digit_mod_10000 (scaled : Nat) (i : Fin 4) : digit (scaled % 10000) i = digit scaled i := by
  apply Fin.ext
  show scaled % 10000 / 10 ^ i.val % 10 = scaled / 10 ^ i.val % 10
  have hsplit : 10000 = 10 ^ i.val * 10 ^ (4 - i.val) := (pow_mul_pow_sub 10 i.isLt.le).symm
  rw [hsplit, Nat.mod_mul_right_div_self, Nat.mod_mod_of_dvd _ (dvd_pow_self 10 (by omega))]

theorem encodeSlot_mod_10000 (c : Config) (scaled decimals : Nat) (i : Fin 4) :
    encodeSlot c (scaled % 10000) decimals i = encodeSlot c scaled decimals i := by
  rw [encodeSlot, encodeSlot, digit_mod_10000]

/-- There is no slot 4 to carry the point, so `decimals` 4 lights none, as 0 does. -/
theorem encodeSlot_four (c : Config) (scaled : Nat) (i : Fin 4) :
    encodeSlot c scaled 4 i = encodeSlot c scaled 0 i := by
  rw [encodeSlot, encodeSlot, if_neg fun h => i.isLt.ne h.1, if_neg fun h => h.2 rfl]

/-- Settles O11, slot by slot. -/
theorem encodeShowsLowFourDigits : Obligations.EncodeShowsLowFourDigits := by
  intro c scaled decimals _
  refine ⟨fun i => ?_, ?_, ?_, rfl⟩
  · rw [encodeDigits_getElem, encodeSlot_eq]
  · exact encodeDigits_congr fun i => (encodeSlot_mod_10000 c scaled decimals i).symm
  · exact encodeDigits_congr (encodeSlot_four c scaled)

/-! ### Several stores -/

/-- The slot stores of a list, the first one first. -/
def State.writeSlots (s : State) : List (Slot × Byte) → State
  | [] => s
  | (i, b) :: rest => (s.writeSlot i b).writeSlots rest

theorem State.writeSlots_frame (s : State) (l : List (Slot × Byte)) :
    s.writeSlots l = { s with mem := (s.writeSlots l).mem } := by
  induction l generalizing s with
  | nil => rfl
  | cons x l ih => exact ih _

/-- The stores do not see the foreground's own state. -/
theorem State.writeSlots_setFg (s : State) (f : Fg) (l : List (Slot × Byte)) :
    ({ s with fg := f } : State).writeSlots l = { s.writeSlots l with fg := f } := by
  induction l generalizing s with
  | nil => rfl
  | cons x l ih => exact ih (s.writeSlot x.1 x.2)

theorem State.pat_writeSlots_other (s : State) {j : Slot} {l : List (Slot × Byte)} (h : j ∉ l.map Prod.fst) :
    (s.writeSlots l).pat j = s.pat j := by
  induction l generalizing s with
  | nil => rfl
  | cons x l ih =>
    obtain ⟨hx, hl⟩ := not_or.1 (mt List.mem_cons.2 h)
    exact (ih _ hl).trans (State.pat_writeSlot_other s x.2 hx)

/-- With no slot stored twice, each stored slot holds its byte. -/
theorem State.pat_writeSlots_of_mem (s : State) {j : Slot} {b : Byte} {l : List (Slot × Byte)}
    (hl : (l.map Prod.fst).Nodup) (h : (j, b) ∈ l) : (s.writeSlots l).pat j = some b := by
  induction l generalizing s with
  | nil => cases h
  | cons x l ih =>
    obtain ⟨hx, hl⟩ := List.nodup_cons.1 hl
    rcases List.mem_cons.1 h with rfl | h
    · exact (State.pat_writeSlots_other _ hx).trans (State.pat_writeSlot_same s j b)
    · exact ih _ hl h

/-! ### `DISP_VALUE` (40_encoder.md R82) -/

/-- As many micro-steps as there are stores make all of them and end the command. -/
theorem runAll_fgSteps_writing {saved : Bool} {rest : List (Slot × Byte)} {s : State} {i : Slot} {b : Byte}
    (h : s.fg = .writing i b rest saved) :
    runAll (List.replicate (rest.length + 1) .fgStep) s =
      .next ((s.writeSlots ((i, b) :: rest)).endWriting saved) := by
  induction rest generalizing s i b with
  | nil => simp only [List.replicate, List.length_nil, runAll, exec_fgStep_writing h]; rfl
  | cons x rest ih =>
    have hgo : ({ s.writeSlot i b with fg := .writing x.1 x.2 rest saved } : State).fg =
      .writing x.1 x.2 rest saved := rfl
    rw [List.replicate, runAll, exec_fgStep_writing h]
    refine (ih hgo).trans ?_
    rw [State.writeSlots_setFg]
    rfl

/-- The four stores of a `DISP_VALUE`. -/
def displayStores (e : Vector Byte 4) : List (Slot × Byte) := [(0, e[0]), (1, e[1]), (2, e[2]), (3, e[3])]

theorem displayStores_nodup (e : Vector Byte 4) : ((displayStores e).map Prod.fst).Nodup :=
  (by decide : [0#2, 1#2, 2#2, 3#2].Nodup)

theorem mem_displayStores (e : Vector Byte 4) (i : Fin 4) : (BitVec.ofFin i, e[i]) ∈ displayStores e := by
  match i with
  | 0 | 1 | 2 | 3 => simp [displayStores]

/-- The end of a command that began in `s` with `FG = IDLE`: `IE` is as before, whether or not it was held off. -/
theorem State.endWriting_beginWriting (s : State) (e : Vector Byte 4) (hfg : s.fg = .idle) :
    ((s.beginWriting e).writeSlots (displayStores e)).endWriting s.ie = { s with
      mem := ((s.beginWriting e).writeSlots (displayStores e)).mem
      out := s.out ++ [.response 0x0000] } := by
  rw [State.writeSlots_frame]
  cases ha : s.cfg.atomicUpdate <;>
    simp [State.endWriting, State.respond, State.emit, State.beginWriting, ha, hfg, responseWord, Status.code]

theorem exec_dispValue_accepted {s : State} {n : BitVec 3} {k : Nat} (v : Nat) (hfg : s.fg = .idle)
    (hh : s.halt = false) (hk : decimalsOperand s.cfg.decimalsPolicy n.toNat = some k) :
    exec (.dispValue n v) s = .next (s.beginWriting (encodeDigits s.cfg v k)) := by
  rw [exec_dispValue, acceptCommand_idle hfg hh]
  simp only [hk]

theorem exec_dispValue_invalid {s : State} {n : BitVec 3} (v : Nat) (hfg : s.fg = .idle)
    (hh : s.halt = false) (hn : decimalsOperand s.cfg.decimalsPolicy n.toNat = none) :
    exec (.dispValue n v) s = .next (s.respond .invalidArgument 0) := by
  rw [exec_dispValue, acceptCommand_idle hfg hh]
  simp only [hn, raiseError]

/-- An accepted `DISP_VALUE` with its four micro-steps. -/
theorem runAll_dispValue {s : State} {n : BitVec 3} {k : Nat} (v : Nat) (hfg : s.fg = .idle)
    (hh : s.halt = false) (hk : decimalsOperand s.cfg.decimalsPolicy n.toNat = some k) :
    runAll [.dispValue n v, .fgStep, .fgStep, .fgStep, .fgStep] s =
      .next (((s.beginWriting (encodeDigits s.cfg v k)).writeSlots
        (displayStores (encodeDigits s.cfg v k))).endWriting s.ie) := by
  rw [runAll, exec_dispValue_accepted v hfg hh hk]
  have hgo : (s.beginWriting (encodeDigits s.cfg v k)).fg = .writing 0 (encodeDigits s.cfg v k)[0]
    (displayStores (encodeDigits s.cfg v k)).tail s.ie := rfl
  exact runAll_fgSteps_writing hgo

/-- Settles O13: the argument check gives `k` or refuses, and the stores of an accepted command are a run of
micro-steps over four different slots. -/
theorem dispValueWritesFourSlots : Obligations.DispValueWritesFourSlots := by
  intro s n v hfg hh
  refine ⟨fun k hk => ?_, fun hn hp => ?_⟩
  · have hop : decimalsOperand s.cfg.decimalsPolicy n.toNat = some k := by
      rcases hk with ⟨rfl, hn⟩ | ⟨rfl, hn, hp⟩
      · exact decimalsOperand_of_le _ hn
      · rw [hp, decimalsOperand_clamp hn]
    refine ⟨exec_dispValue_accepted v hfg hh hop, _, runAll_dispValue v hfg hh hop,
      State.endWriting_beginWriting s _ hfg, fun i => ?_⟩
    exact State.pat_writeSlots_of_mem _ (displayStores_nodup _) (mem_displayStores _ i)
  · exact exec_dispValue_invalid v hfg hh (by rw [hp, decimalsOperand_reject hn])

/-! ### `display_value` (40_encoder.md R83) -/

/-- `SCALE_FN` is the floor of the exact product. -/
theorem scaleExact_eq {num den decimals k : Nat} (hlo : k * den ≤ num * 10 ^ decimals)
    (hhi : num * 10 ^ decimals < (k + 1) * den) : scaleExact num den decimals = k :=
  Nat.div_eq_of_lt_le hlo hhi

theorem displayValue_invalid {c : Config} (value : DisplayArgument) {decimals : Nat}
    (h : decimalsOperand c.decimalsPolicy decimals = none) : displayValue c value decimals = .invalidArgument := by
  simp only [displayValue, displayValueWith, h]

theorem displayValue_infinite (c : Config) {decimals : Nat} (h : decimals ≤ 4) :
    displayValue c .infinite decimals = .refusedCall := by
  simp only [displayValue, displayValueWith, decimalsOperand_of_le _ h]

theorem displayValue_notANumber (c : Config) {decimals : Nat} (h : decimals ≤ 4) :
    displayValue c .notANumber decimals = .refusedCall := by
  simp only [displayValue, displayValueWith, decimalsOperand_of_le _ h]

theorem displayValue_negative (c : Config) {decimals : Nat} (h : decimals ≤ 4) {num : Int} (den : Nat)
    (hn : num < 0) : displayValue c (.rational num den) decimals = .refusedCall := by
  simp only [displayValue, displayValueWith, decimalsOperand_of_le _ h, hn, true_or, if_true]

/-- A number is scaled, and refused when the result has more than `SCALED_WIDTH` bits. -/
theorem displayValue_rational (c : Config) {decimals : Nat} (h : decimals ≤ 4) {num : Int} {den : Nat}
    (hn : 0 ≤ num) (hd : 0 < den) : displayValue c (.rational num den) decimals =
      if scaleExact num.toNat den decimals < 2 ^ c.scaledWidth then
        .command (.dispValue (BitVec.ofNat 3 decimals) (scaleExact num.toNat den decimals))
      else .refusedCall := by
  have hok : ¬ (num < 0 ∨ den = 0) := by omega
  simp only [displayValue, displayValueWith, decimalsOperand_of_le _ h, hok, if_false]
  by_cases hw : scaleExact num.toNat den decimals < 2 ^ c.scaledWidth
  · rw [if_pos hw, if_neg (Nat.not_le.2 hw)]
  · rw [if_neg hw, if_pos (Nat.not_lt.1 hw)]

/-- Settles O15: the check of `decimals` comes first, then each kind of value by its own lemma. -/
theorem displayValueScalesExactly : Obligations.DisplayValueScalesExactly := by
  refine ⟨?_, ?_, ?_⟩
  · intro c num den decimals h hn hd k ⟨hlo, hhi⟩
    rw [displayValue_rational c h hn hd, scaleExact_eq hlo hhi]
  · intro c value decimals hp h
    exact displayValue_invalid value (by rw [hp, decimalsOperand_reject h])
  · intro c decimals h
    exact ⟨displayValue_infinite c h, displayValue_notANumber c h, fun _ den => displayValue_negative c h den⟩

end Sys2Proof.Machine

/-!
PROOF. The multiplexer's interrupts (41_multiplexer.md R90 to R95). Each branch of the two tick bodies and of the
completion continuation has its closed form; an interrupt taken adds only the clearing of its pending flag.
-/

namespace Sys2Proof.Machine

/-! ### The branches of the tick bodies (41_multiplexer.md R91, R94) -/

/-- Steps 4 and 5 of the transition, which are the whole of it for a `NONE` slot. -/
theorem State.skipSlot_eq (s : State) :
    s.deassertPrev.advance = { s with
      en := enWithout s.en s.prev
      prev := some s.cur
      cur := s.cur + 1
      out := s.out ++ deassertOut s.prev } := by
  rw [State.deassertPrev_eq, State.advance]

theorem State.tickBody_sync {s : State} (hv : s.cfg.variant = .sync) : s.tickBody = s.tickBodySync := by
  simp only [State.tickBody, hv]

theorem State.tickBody_async {s : State} (hv : s.cfg.variant = .async) : s.tickBody = s.tickBodyAsync := by
  simp only [State.tickBody, hv]

theorem State.tickBodySync_busy {s : State} (hb : s.busy = true) : s.tickBodySync = s.raiseMuxOverrun := by
  rw [State.tickBodySync, if_pos hb]

theorem State.tickBodySync_none {s : State} (hb : s.busy = false) (hp : s.pat s.cur = none) :
    s.tickBodySync = s.deassertPrev.advance := by
  simp only [State.tickBodySync, hb, hp, Bool.false_eq_true, if_false]

/-- The eight bits replace the shift stage, and the board's wiring undoes the sending order, so `SEG` takes `p`. -/
theorem State.tickBodySync_some {s : State} {p : Byte} (hl : s.latch = false) (hb : s.busy = false)
    (hp : s.pat s.cur = some p) : s.tickBodySync = { s with
      sck := false
      sdo := sendBit s.cfg.dispOrder p 7
      srs := latched s.cfg.dispOrder p
      seg := p
      en := enWithout (s.en ||| enMask s.cur) s.prev
      prev := some s.cur
      cur := s.cur + 1
      out := s.out ++ (if s.sck then [.out .sck false] else []) ++ bitBangOut s.cfg.dispOrder p ++
        presentOut s.cur ++ deassertOut s.prev } := by
  have hsend : s.tickBodySync = (s.bbXmit p).presentDigit := by
    simp only [State.tickBodySync, hb, hp, Bool.false_eq_true, if_false]
  rw [hsend, State.bbXmit_eq, foldl_shiftUp_bitsOut]
  refine Eq.trans (State.presentDigit_eq _ hl) ?_
  simp only [latched_latched]

theorem State.tickBodyAsync_inFlight {s : State} (h : s.busy = true ∨ s.muxpend = true) :
    s.tickBodyAsync = s.raiseMuxOverrun := by
  rw [State.tickBodyAsync, if_pos (Bool.or_eq_true_iff.2 h)]

theorem State.tickBodyAsync_none {s : State} (hb : s.busy = false) (hm : s.muxpend = false)
    (hp : s.pat s.cur = none) : s.tickBodyAsync = s.deassertPrev.advance := by
  simp only [State.tickBodyAsync, hb, hm, hp, Bool.or_self, Bool.false_eq_true, if_false]

theorem State.tickBodyAsync_some {s : State} {p : Byte} (hb : s.busy = false) (hm : s.muxpend = false)
    (hp : s.pat s.cur = some p) :
    s.tickBodyAsync = ({ s with handler := .mux, muxpend := true } : State).serStart p .irq := by
  simp only [State.tickBodyAsync, hb, hm, hp, Bool.or_self, Bool.false_eq_true, if_false]

/-! ### The completion continuation (41_multiplexer.md R95) -/

theorem State.dispatch_mux {s : State} (hk : s.handler = .mux) : s.dispatch = s.muxDone := by
  simp only [State.dispatch, hk]

theorem State.muxDone_pending {s : State} (hm : s.muxpend = true) :
    s.muxDone = ({ s with muxpend := false } : State).presentDigit := by
  rw [State.muxDone, if_pos hm]

/-- The guard of `MuxDone`: without `MUXPEND` a notification does nothing. -/
theorem State.muxDone_notPending {s : State} (hm : s.muxpend = false) : s.muxDone = s := by
  simp only [State.muxDone, hm, Bool.false_eq_true, if_false]

/-! ### Entry and return around a body (60_exceptions.md R160) -/

/-- An interrupt is taken with `IE = 1`, so `t`, the state after it, has `IE = 1` when the body ends in `t` with
`IE = 0`. -/
theorem takeInterrupt_of_body {src : IrqSource} {f : State → State} {s t : State} (hie : s.ie = true)
    (hp : s.pending src = true) (hh : s.halt = false) (ht : t.ie = true)
    (hbody : f (s.enterInterrupt src) = { t with ie := false }) : takeInterrupt src f s = .next t := by
  rw [takeInterrupt_taken hie hp hh, hbody, State.returnFromInterrupt, ← ht]

theorem exec_irqTick_sync {s t : State} (hv : s.cfg.variant = .sync) (hie : s.ie = true) (hp : s.tickf = true)
    (hh : s.halt = false) (ht : t.ie = true)
    (hbody : (s.enterInterrupt .tick).tickBodySync = { t with ie := false }) : exec .irqTick s = .next t :=
  takeInterrupt_of_body hie hp hh ht (.trans (State.tickBody_sync hv) hbody)

theorem exec_irqTick_async {s t : State} (hv : s.cfg.variant = .async) (hie : s.ie = true) (hp : s.tickf = true)
    (hh : s.halt = false) (ht : t.ie = true)
    (hbody : (s.enterInterrupt .tick).tickBodyAsync = { t with ie := false }) : exec .irqTick s = .next t :=
  takeInterrupt_of_body hie hp hh ht (.trans (State.tickBody_async hv) hbody)

theorem exec_irqSer_mux {s t : State} (hk : s.handler = .mux) (hie : s.ie = true) (hp : s.serf = true)
    (hh : s.halt = false) (ht : t.ie = true)
    (hbody : (s.enterInterrupt .ser).muxDone = { t with ie := false }) : exec .irqSer s = .next t :=
  takeInterrupt_of_body hie hp hh ht (.trans (State.dispatch_mux hk) hbody)

/-! ### The obligations -/

/-- Settles O29: an overrun, a `NONE` slot and a valid slot are the three branches of the `SYNC` body. -/
theorem syncTickPresentsDigit : Obligations.SyncTickPresentsDigit := by
  intro s hv hie ht hh hl
  refine ⟨fun hb => ?busy, fun hb hp => ?none, fun p hb hp => ?valid⟩
  case busy => exact exec_irqTick_sync hv hie ht hh hie (State.tickBodySync_busy hb)
  case none =>
    exact exec_irqTick_sync hv hie ht hh hie (.trans (State.tickBodySync_none hb hp) (State.skipSlot_eq _))
  case valid => exact exec_irqTick_sync hv hie ht hh hie (State.tickBodySync_some hl hb hp)

/-- Settles O30: the three branches of the `ASYNC` body; a valid slot's is `SerStart` in `IRQ` mode. -/
theorem asyncTickStartsTransfer : Obligations.AsyncTickStartsTransfer := by
  intro s hv hie ht hh
  refine ⟨fun h => ?inFlight, fun hb hm hp => ?none, fun p hb hm hp => ?valid⟩
  case inFlight => exact exec_irqTick_async hv hie ht hh hie (State.tickBodyAsync_inFlight h)
  case none =>
    exact exec_irqTick_async hv hie ht hh hie (.trans (State.tickBodyAsync_none hb hm hp) (State.skipSlot_eq _))
  case valid => exact exec_irqTick_async hv hie ht hh hie (State.tickBodyAsync_some hb hm hp)

/-- Settles O31: `MuxDone` presents the digit when `MUXPEND = 1`, and its guard stops it otherwise. -/
theorem muxDoneFinishesTick : Obligations.MuxDoneFinishesTick := by
  intro s hie ht hh hk hl
  refine ⟨fun hm => ?pending, fun hm => ?notPending⟩
  case pending =>
    exact exec_irqSer_mux hk hie ht hh hie (.trans (State.muxDone_pending hm) (State.presentDigit_eq _ hl))
  case notPending => exact exec_irqSer_mux hk hie ht hh hie (State.muxDone_notPending hm)

end Sys2Proof.Machine

/-!
PROOF. The serial unit (42_serial.md R110 to R125, 41_multiplexer.md R92). Each accepted command and each branch of a
micro-step has its closed form; the bit-banged byte and the transfer have the same line trace because both are the bits
of the byte in sending order.
-/

namespace Sys2Proof.Machine

/-! ### The bit-banged transmitter (42_serial.md R121) -/

/-- `State.bbXmit_eq` as a frame: `SDO` keeps the last bit sent, and of the shift stage nothing is said. -/
theorem State.bbXmit_frame {s : State} {b : Byte} {last : Bool} (hlast : sendBit s.cfg.dispOrder b 7 = last) :
    s.bbXmit b = { s with
      sck := false
      sdo := last
      srs := (s.bbXmit b).srs
      out := s.out ++ (if s.sck = true then [.out .sck false] else []) ++ bitBangOut s.cfg.dispOrder b } := by
  subst hlast
  rw [State.bbXmit_eq]

/-- The eight bit steps of a transfer in the display's configuration give the line trace of `BB_XMIT`. -/
theorem runAll_serSteps_out {s t : State} {order : BitOrder} {samples : List Bool} (hlen : samples.length = 8)
    (hb : s.busy = true) (hn : s.bitcnt = 0) (hs : s.sck = false)
    (hc : s.sercfg = some ⟨.controller, order, false, false⟩)
    (hrun : runAll (samples.map .serStep) s = .next t) : t.out = s.out ++ bitBangOut order s.txsr := by
  have hcount : s.bitcnt.toNat + samples.length = 8 := by rw [hn, hlen]; rfl
  have hne : samples ≠ [] := List.ne_nil_of_length_pos (by omega)
  obtain ⟨u, hu, -, -, hlines⟩ := runAll_serSteps _ samples s hb hc hcount hne
  obtain rfl : u = t := Host.Outcome.next.inj (hu.symm.trans hrun)
  obtain ⟨-, hout⟩ := hlines rfl hs
  rw [hout, hlen, sentBits_eight, bitBangOut]

/-- Settles O40: the bit-banged byte in closed form, and the run of bit steps, both over the bits in sending order. -/
theorem bitBangEqualsTransferTrace : Obligations.BitBangEqualsTransferTrace := by
  refine ⟨fun s b => State.bbXmit_frame ?_, fun s t samples hlen hb hn hs hc hrun => ?_⟩
  · cases s.cfg.dispOrder <;> rfl
  · exact runAll_serSteps_out hlen hb hn hs hc hrun

/-! ### `SER_CONFIG` (42_serial.md R110) -/

/-- A driven clock edge with `SDO` stable (42_serial.md R124). -/
theorem State.driveSck_eq (s : State) (v : Bool) : s.driveSck v = { s with
    sck := v
    srs := if s.sck = false ∧ v = true then shiftUp s.srs s.sdo else s.srs
    out := s.out ++ [.out .sck v] } := by
  cases hs : s.sck <;> cases v <;> simp [State.driveSck, State.setSck, State.risingTo, State.sampledBit, hs]

theorem exec_serConfig_busy {s : State} (r : Role) (q : BitOrder) (l p : Bool) (hfg : s.fg = .idle)
    (hh : s.halt = false) (hb : s.busy = true) :
    exec (.serConfig r q l p) s = .next (s.respond .serialBusy 0) := by
  cases r with
  | controller => rw [exec_serConfig_controller, acceptCommand_idle hfg hh, if_pos hb, raiseError]
  | peripheral => rw [exec_serConfig_peripheral, acceptCommand_idle hfg hh, if_pos hb, raiseError]

theorem exec_serConfig_controller_ready {s : State} (q : BitOrder) (l p : Bool) (hfg : s.fg = .idle)
    (hh : s.halt = false) (hb : s.busy = false) : exec (.serConfig .controller q l p) s =
      .next ((({ s with sercfg := some ⟨.controller, q, l, p⟩ } : State).driveSck l).respond .ok 0x00) := by
  rw [exec_serConfig_controller, acceptCommand_idle hfg hh, if_neg (Bool.eq_false_iff.1 hb)]

theorem exec_serConfig_peripheral_ready {s : State} (q : BitOrder) (l p : Bool) (hfg : s.fg = .idle)
    (hh : s.halt = false) (hb : s.busy = false) : exec (.serConfig .peripheral q l p) s =
      .next (({ s with sercfg := some ⟨.peripheral, q, l, p⟩ } : State).respond .ok 0x00) := by
  rw [exec_serConfig_peripheral, acceptCommand_idle hfg hh, if_neg (Bool.eq_false_iff.1 hb)]

/-- Settles O16: the two roles of an idle unit, and the busy unit. -/
theorem serConfigStoresFields : Obligations.SerConfigStoresFields := by
  intro s r q l p hfg hh
  refine ⟨?controller, ?peripheral, fun hb => exec_serConfig_busy r q l p hfg hh hb, rfl⟩
  case controller =>
    rintro hb rfl
    rw [exec_serConfig_controller_ready q l p hfg hh hb, State.driveSck_eq]
    simp only [State.respond, State.emit, List.append_assoc]
    rfl
  case peripheral =>
    rintro hb rfl
    exact exec_serConfig_peripheral_ready q l p hfg hh hb

/-! ### The transmit commands (42_serial.md R113, R118) -/

section Transmit

variable {s : State} {body : State → Result}

theorem acceptTransmit_unconfigured (hfg : s.fg = .idle) (hh : s.halt = false) (hc : s.sercfg = none) :
    (acceptCommand s fun s => whenSerialReady s body) = .next (s.respond .notConfigured 0) := by
  rw [acceptCommand_idle hfg hh, whenSerialReady_unconfigured hc]

theorem acceptTransmit_busy (hfg : s.fg = .idle) (hh : s.halt = false) (hc : s.sercfg ≠ none)
    (hb : s.busy = true) : (acceptCommand s fun s => whenSerialReady s body) = .next (s.respond .serialBusy 0) := by
  rw [acceptCommand_idle hfg hh, whenSerialReady_busy hc hb]

theorem acceptTransmit_ready (hfg : s.fg = .idle) (hh : s.halt = false) (hc : s.sercfg ≠ none)
    (hb : s.busy = false) : (acceptCommand s fun s => whenSerialReady s body) = body s := by
  rw [acceptCommand_idle hfg hh, whenSerialReady_ready hc hb]

end Transmit

/-- With `IE = 0` no interrupt is taken (60_exceptions.md R157, R158). -/
theorem takeInterrupt_disabled (src : IrqSource) (f : State → State) {s : State} (hie : s.ie = false) :
    takeInterrupt src f s = .refused .eventNotEnabled := by
  rw [takeInterrupt, hie, Bool.false_and, Bool.false_and, whenEnabled_false]

theorem exec_irqTick_disabled {s : State} (hie : s.ie = false) : exec .irqTick s = .refused .eventNotEnabled :=
  takeInterrupt_disabled .tick _ hie

theorem exec_irqSer_disabled {s : State} (hie : s.ie = false) : exec .irqSer s = .refused .eventNotEnabled :=
  takeInterrupt_disabled .ser _ hie

/-- Settles O17: the issue step leaves `IE = 0`, which is why no interrupt is a step after it. -/
theorem serXmitBwEntersCriticalSection : Obligations.SerXmitBwEntersCriticalSection := by
  intro s b hfg hh
  refine ⟨fun hc hb => ?ready, fun hc => ?unconfigured, fun hc hb => ?busy, rfl⟩
  case ready =>
    exact ⟨_, (exec_serXmitBw s b).trans (acceptTransmit_ready hfg hh hc hb), rfl,
      exec_irqTick_disabled rfl, exec_irqSer_disabled rfl⟩
  case unconfigured => exact (exec_serXmitBw s b).trans (acceptTransmit_unconfigured hfg hh hc)
  case busy => exact (exec_serXmitBw s b).trans (acceptTransmit_busy hfg hh hc hb)

/-- Settles O20: the three outcomes of a transmit command, with `SerStart` in `IRQ` mode for the ready unit. -/
theorem serXmitIrqReturnsAtOnce : Obligations.SerXmitIrqReturnsAtOnce := by
  intro s b hfg hh
  refine ⟨fun hc hb => ?ready, fun hc => ?unconfigured, fun hc hb => ?busy, rfl⟩
  case ready => exact (exec_serXmitIrq s b).trans (acceptTransmit_ready hfg hh hc hb)
  case unconfigured => exact (exec_serXmitIrq s b).trans (acceptTransmit_unconfigured hfg hh hc)
  case busy => exact (exec_serXmitIrq s b).trans (acceptTransmit_busy hfg hh hc hb)

/-! ### The busy-wait (42_serial.md R114, R115) -/

theorem limitReached_none (n : Nat) : limitReached none n = false := rfl

theorem limitReached_some_iff {l n : Nat} : limitReached (some l) n = true ↔ l ≤ n := decide_eq_true_iff

theorem limitReached_eq_false {limit : Option Nat} {n : Nat} (h : limit = none ∨ ∃ l, limit = some l ∧ n < l) :
    limitReached limit n = false := by
  rcases h with rfl | ⟨l, rfl, hn⟩
  · exact limitReached_none n
  · exact Bool.eq_false_iff.2 fun hl => Nat.not_le.2 hn (limitReached_some_iff.1 hl)

theorem State.spinPoll_counts {s : State} (saved : Bool) {n : Nat} (h : limitReached s.cfg.bwLimit n = false) :
    s.spinPoll saved n = { s with fg := .spin saved (n + 1) } := by
  rw [State.spinPoll, if_neg (Bool.eq_false_iff.1 h)]

theorem State.spinPoll_timeout {s : State} (saved : Bool) {n : Nat} (h : limitReached s.cfg.bwLimit n = true) :
    s.spinPoll saved n =
      ({ s.raiseTimeout with ie := saved, fg := .idle } : State).respond .hardwareTimeout 0x00 := by
  rw [State.spinPoll, if_pos h]

/-- Settles O18: the poll is below the bound or has reached it. -/
theorem spinPollsUntilLimit : Obligations.SpinPollsUntilLimit := by
  intro s saved n hfg hd
  rw [exec_fgStep_poll hfg hd]
  refine ⟨fun hlim => ?counts, fun l hl hn => ?timeout⟩
  case counts => rw [State.spinPoll_counts saved (limitReached_eq_false hlim)]
  case timeout =>
    have hreached : limitReached s.cfg.bwLimit n = true := by rw [hl]; exact limitReached_some_iff.2 hn
    rw [State.spinPoll_timeout saved hreached]
    rfl

/-- Only a transfer in `IRQ` mode raises the completion (42_serial.md R115, R117). -/
theorem exec_serStep_serf_of_bw {s t : State} {sdi : Bool} (hx : s.xmode = .bw)
    (hstep : exec (.serStep sdi) s = .next t) : t.serf = s.serf := by
  cases Effect.ofSerStep hstep with
  | answered _ hcommand => cases hcommand
  | serStep => simp [hx]

/-- Settles O19: the poll that ends the busy-wait, and the bit step of a `BW` transfer. -/
theorem busyWaitReturnsReceivedByte : Obligations.BusyWaitReturnsReceivedByte := by
  exact ⟨fun _ _ _ => exec_fgStep_end, fun _ _ _ => exec_serStep_serf_of_bw⟩

/-! ### `SER_SET_HANDLER` (42_serial.md R116) -/

theorem exec_serSetHandler_accepted {s : State} {h : BitVec 2} {target : Handler}
    (ht : handlerOperand h = some target) (hfg : s.fg = .idle) (hh : s.halt = false) :
    exec (.serSetHandler h) s = .next (({ s with handler := target } : State).respond .ok 0x00) := by
  rw [exec_serSetHandler s ht, acceptCommand_idle hfg hh]

theorem illegalCommand_idle {s : State} (hfg : s.fg = .idle) :
    illegalCommand s = .next (s.respond .illegalCommand 0) := by
  simp only [illegalCommand, hfg, raiseError]

/-- Settles O21: the three handler values, and the reserved one, which is checked before `HALT`. -/
theorem serSetHandlerOverwrites : Obligations.SerSetHandlerOverwrites := by
  intro s hfg
  refine ⟨fun hh => ⟨?none, ?mux, ?host⟩, ?reserved, rfl⟩
  case none => exact exec_serSetHandler_accepted (h := 0) (target := .none) rfl hfg hh
  case mux => exact exec_serSetHandler_accepted (h := 1) (target := .mux) rfl hfg hh
  case host => exact exec_serSetHandler_accepted (h := 2) (target := .host) rfl hfg hh
  case reserved => exact (exec_serSetHandler_three s).trans (illegalCommand_idle hfg)

/-! ### `SER_GLITCH` (42_serial.md R120) -/

theorem exec_serGlitch_busy {s : State} (hb : s.busy = true) : exec .serGlitch s = .refused .eventNotEnabled := by
  rw [exec_serGlitch, hb, Bool.not_true, whenEnabled_false]

theorem exec_serGlitch_idle {s : State} (hb : s.busy = false) :
    exec .serGlitch s = .next { s with serf := true } := by
  have he : (!s.busy) = true := by rw [hb, Bool.not_false]
  rw [exec_serGlitch, he, whenEnabled_true]

theorem State.dispatch_host {s : State} (hk : s.handler = .host) : s.dispatch = s.emit .notifyHost := by
  simp only [State.dispatch, hk]

/-- A glitch makes the completion pending, so with `IE = 1` the interrupt is taken; `t` is the state after it when the
completion continuation ends in `t` with `IE = 0`. -/
theorem runAll_serGlitch_irqSer {s t : State} (hb : s.busy = false) (hie : s.ie = true) (hh : s.halt = false)
    (ht : t.ie = true) (hbody : ({ s with serf := false, ie := false } : State).dispatch = { t with ie := false }) :
    runAll [.serGlitch, .irqSer] s = .next t := by
  have hser : exec .irqSer { s with serf := true } = .next t :=
    takeInterrupt_of_body (src := .ser) hie rfl hh ht hbody
  simp only [runAll, exec_serGlitch_idle hb, hser]

/-- Settles O33: a glitch on a busy and on an idle unit, and what the two targets make of the completion. -/
theorem glitchSetsCompletionOnly : Obligations.GlitchSetsCompletionOnly := by
  intro s
  refine ⟨exec_serGlitch_busy, fun hb => ⟨exec_serGlitch_idle hb, fun hie hh => ⟨fun hk hm => ?mux, fun hk => ?host⟩⟩⟩
  case mux => exact runAll_serGlitch_irqSer hb hie hh hie (.trans (State.dispatch_mux hk) (State.muxDone_notPending hm))
  case host => exact runAll_serGlitch_irqSer hb hie hh hie (State.dispatch_host hk)

/-! ### The line trace of one bit (42_serial.md R112, R122) -/

theorem State.shiftBit_sdo (s : State) (c : SerCfg) (sdi : Bool) :
    (s.shiftBit c sdi).sdo = nextBit c.order s.txsr := by
  rw [shiftBit_closed]

theorem State.shiftBit_rxsr (s : State) (c : SerCfg) (sdi : Bool) :
    (s.shiftBit c sdi).rxsr = rxAfter c.order s.rxsr sdi := by
  rw [shiftBit_closed]

theorem State.shiftBit_out (s : State) (c : SerCfg) (sdi : Bool) :
    (s.shiftBit c sdi).out = s.out ++ bitTraceOut c (nextBit c.order s.txsr) := by
  rw [shiftBit_closed]

/-- Settles O35: the bit step gives out `bitTraceOut`, which is taken role by role and edge by edge. -/
theorem bitTraceOfTheFourModes : Obligations.BitTraceOfTheFourModes := by
  intro s role order cpol cpha sdi bit hb hc hbit
  have hnext : nextBit order s.txsr = bit := by cases order <;> exact hbit.symm
  have hout : (s.shiftBit ⟨role, order, cpol, cpha⟩ sdi).out =
      s.out ++ bitTraceOut ⟨role, order, cpol, cpha⟩ bit := by
    rw [State.shiftBit_out, hnext]
  refine ⟨_, exec_serStep_configured sdi hb hc, (State.shiftBit_sdo ..).trans hnext, State.shiftBit_rxsr ..,
    ?_, ?_, ?_, ?_⟩ <;>
  · rintro rfl rfl
    exact hout

/-! ### The latch (42_serial.md R125, 41_multiplexer.md R92) -/

theorem getLsbD_bitReverse (b : Byte) {k : Nat} (hk : k < 8) : (bitReverse b).getLsbD k = b.getLsbD (7 - k) := by
  rw [bitReverse, BitVec.getLsbD_reverse, BitVec.getMsbD, decide_eq_true hk, Bool.true_and]

theorem State.latchPulse_order {s : State} {order : BitOrder} (hl : s.latch = false) (ho : s.cfg.dispOrder = order) :
    s.latchPulse = { s with
      seg := latched order s.srs, out := s.out ++ [.out .latch true, .out .latch false] } := by
  rw [State.latchPulse_eq s hl, ho]

theorem State.driveLatch_seg_of_noRise {s : State} {v : Bool} (h : s.latch = true ∨ v = false) :
    (s.driveLatch v).seg = s.seg := by
  rw [State.driveLatch_seg]
  rcases h with hl | rfl
  · rw [hl, Bool.not_true, Bool.false_and, if_neg Bool.false_ne_true]
  · rw [Bool.and_false, if_neg Bool.false_ne_true]

/-- Settles O37: the pulse from a low latch in both wirings, and the changes that are no rising latch edge. -/
theorem latchCopiesShiftStage : Obligations.LatchCopiesShiftStage := by
  intro s
  refine ⟨fun hl ho => ?msb, fun hl ho => ?lsb, fun v => State.driveLatch_seg_of_noRise, State.setSck_seg s⟩
  case msb => exact State.latchPulse_order hl ho
  case lsb => exact ⟨bitReverse s.srs, State.latchPulse_order hl ho, fun k => getLsbD_bitReverse s.srs⟩

end Sys2Proof.Machine

/-!
PROOF. The system operations (43_system.md R140 to R143). Each branch of `DISP_INIT` has its closed form; what
`INT_ENABLE` and `INT_DISABLE` mean for the interrupts is read off the enabling condition of an interrupt.
-/

namespace Sys2Proof.Machine

/-! ### `DISP_INIT` (43_system.md R140) -/

theorem State.configureDisplay_sync {s : State} (hv : s.cfg.variant = .sync) : s.configureDisplay = s := by
  simp only [State.configureDisplay, hv]

theorem State.configureDisplay_async {s : State} (hv : s.cfg.variant = .async) :
    s.configureDisplay = { s with
      sercfg := some ⟨.controller, s.cfg.dispOrder, false, false⟩
      sck := false
      out := s.out ++ if s.sck = true then [.out .sck false] else [] } := by
  simp only [State.configureDisplay, hv, State.sckToIdle_eq]

theorem exec_dispInit_running {s : State} (hfg : s.fg = .idle) (hh : s.halt = false) (ht : s.tickEn = true) :
    exec .dispInit s = .next (s.respond .ok 0x00) := by
  rw [exec_dispInit, acceptCommand_idle hfg hh, if_pos ht]

/-- Only the `ASYNC` variant needs the serial unit, so only there a busy unit is an error. -/
theorem exec_dispInit_busy {s : State} (hfg : s.fg = .idle) (hh : s.halt = false) (ht : s.tickEn = false)
    (hv : s.cfg.variant = .async) (hb : s.busy = true) :
    exec .dispInit s = .next (s.respond .serialBusy 0) := by
  have hbusy : (s.cfg.variant == .async && s.busy) = true := by rw [hv, hb]; rfl
  rw [exec_dispInit, acceptCommand_idle hfg hh, if_neg (Bool.eq_false_iff.1 ht), if_pos hbusy, raiseError]

theorem exec_dispInit_starts {s : State} (hfg : s.fg = .idle) (hh : s.halt = false) (ht : s.tickEn = false)
    (hfree : s.cfg.variant = .sync ∨ s.busy = false) :
    exec .dispInit s = .next (s.startTimer.configureDisplay.respond .ok 0x00) := by
  have hready : ¬ (s.cfg.variant == .async && s.busy) = true := by
    rcases hfree with hv | hb
    · rw [hv]; exact Bool.false_ne_true
    · rw [hb, Bool.and_false]; exact Bool.false_ne_true
  rw [exec_dispInit, acceptCommand_idle hfg hh, if_neg (Bool.eq_false_iff.1 ht), if_neg hready]

/-- Settles O22: the repeat, the first `DISP_INIT` in each variant, and the busy unit of the `ASYNC` variant. -/
theorem dispInitStartsTimer : Obligations.DispInitStartsTimer := by
  intro s hfg hh
  refine ⟨fun ht => ?running, fun ht hv => ?sync, fun ht hv hb => ?busy, fun ht hv hb => ?async, rfl⟩
  case running => exact exec_dispInit_running hfg hh ht
  case sync =>
    rw [exec_dispInit_starts hfg hh ht (.inl hv), State.configureDisplay_sync (s := s.startTimer) hv]
    rfl
  case busy => exact exec_dispInit_busy hfg hh ht hv hb
  case async =>
    rw [exec_dispInit_starts hfg hh ht (.inr hb), State.configureDisplay_async (s := s.startTimer) hv]
    rfl

/-! ### `INT_ENABLE` and `INT_DISABLE` (43_system.md R142, R143) -/

theorem exec_intEnable_accepted {s : State} (hfg : s.fg = .idle) (hh : s.halt = false) :
    exec .intEnable s = .next (({ s with ie := true } : State).respond .ok 0x00) := by
  rw [exec_intEnable, acceptCommand_idle hfg hh]

theorem exec_intDisable_accepted {s : State} (hfg : s.fg = .idle) (hh : s.halt = false) :
    exec .intDisable s = .next (({ s with ie := false } : State).respond .ok 0x00) := by
  rw [exec_intDisable, acceptCommand_idle hfg hh]

/-- Settles O23: the state left has `IE = 1` and `HALT = 0`, so a pending source is all an interrupt still needs. -/
theorem intEnableSetsIe : Obligations.IntEnableSetsIe := by
  intro s hfg hh
  refine ⟨_, exec_intEnable_accepted hfg hh, rfl, fun htick => ?tick, fun hser => ?ser, rfl⟩
  case tick => exact ⟨_, exec_irqTick_taken rfl htick hh⟩
  case ser => exact ⟨_, exec_irqSer_taken rfl hser hh⟩

theorem State.timerFires_tickf (s : State) : s.timerFires.tickf = true := rfl

theorem State.timerFires_ie (s : State) : s.timerFires.ie = s.ie := by
  rw [State.timerFires_eq]

/-- Settles O24: `IE = 0` refuses the interrupt, and the timer's tick sets `TICKF` without touching `IE`. -/
theorem intDisableClearsIe : Obligations.IntDisableClearsIe := by
  intro s hfg hh
  refine ⟨_, exec_intDisable_accepted hfg hh, rfl, exec_irqTick_disabled rfl, fun ht hsrc => ?held, rfl⟩
  case held =>
    exact ⟨_, exec_tmrTick_enabled ht hsrc, State.timerFires_tickf _,
      exec_irqTick_disabled (State.timerFires_ie _)⟩

end Sys2Proof.Machine

/-!
PROOF. The timer and `HALT` (60_exceptions.md R153 to R156, R171). The two counters of the timer are one clock number in
base 64, so a run of clocks is followed by that number; `HALT` is read off the guards for the steps it forbids and off
the effects for the elements it freezes.
-/

namespace Sys2Proof

theorem Config.timerPeriod_pos (c : Config) : 0 < c.timerPeriod := Nat.succ_pos c.timerLast

end Sys2Proof

namespace Sys2Proof.Machine

/-! ### The free tick (60_exceptions.md R153, R155) -/

theorem State.ticksFrom_eq_false {s : State} {src : TickSource} (h : s.tickEn = false ∨ s.cfg.tickSource ≠ src) :
    s.ticksFrom src = false := by
  refine Bool.eq_false_iff.2 fun hticks => ?_
  obtain ⟨hen, hsrc⟩ := State.ticksFrom_iff.1 hticks
  rcases h with hoff | hother
  · exact Bool.eq_false_iff.1 hoff hen
  · exact hother hsrc

theorem exec_tmrTick_disabled {s : State} (h : s.tickEn = false ∨ s.cfg.tickSource ≠ .event) :
    exec .tmrTick s = .refused .eventNotEnabled := by
  rw [exec_tmrTick, State.ticksFrom_eq_false h, whenEnabled_false]

theorem exec_clk_disabled {s : State} (h : s.tickEn = false ∨ s.cfg.tickSource ≠ .clock) :
    exec .clk s = .refused .eventNotEnabled := by
  rw [exec_clk, State.ticksFrom_eq_false h, whenEnabled_false]

theorem State.timerFires_notPending {s : State} (h : s.tickf = false) : s.timerFires = { s with tickf := true } := by
  rw [State.timerFires_eq, h, Bool.or_false]

/-- `TICKF` stays 1, and of the fault only its flag is new. -/
theorem State.timerFires_pending {s : State} (h : s.tickf = true) : s.timerFires = s.raiseTickLost := by
  rw [State.timerFires_eq, State.raiseTickLost, h, Bool.or_true]

/-- Settles O26: the timer fires with and without a tick pending, and each half of its enabling condition is needed. -/
theorem timerTickSetsPending : Obligations.TimerTickSetsPending := by
  intro s
  refine ⟨fun hsrc hen htick => ?notPending, fun hsrc hen htick => ?pending,
    fun hoff => exec_tmrTick_disabled (.inl hoff), fun hsrc => exec_tmrTick_disabled (.inr ?clocks)⟩
  case notPending => rw [exec_tmrTick_enabled hen hsrc, State.timerFires_notPending htick]
  case pending => rw [exec_tmrTick_enabled hen hsrc, State.timerFires_pending htick, State.raiseTickLost]
  case clocks => rw [hsrc]; decide

/-! ### One clock (60_exceptions.md R156) -/

theorem prescaler_wraps_iff {x : BitVec 6} : x + 1 = 0 ↔ x = 63 := by
  bv_omega

theorem State.clockTimer_counts {s : State} (hp : s.pre ≠ 63) : s.clockTimer = { s with pre := s.pre + 1 } := by
  obtain ⟨-, h⟩ | ⟨hwrap, -⟩ | ⟨hwrap, -⟩ := s.clockTimer_cases
  · exact h
  · exact absurd (prescaler_wraps_iff.1 hwrap) hp
  · exact absurd (prescaler_wraps_iff.1 hwrap) hp

theorem State.clockTimer_wraps {s : State} (hp : s.pre = 63) (ht : (s.tcnt + 1) % s.cfg.timerPeriod ≠ 0) :
    s.clockTimer = { s with pre := 0, tcnt := (s.tcnt + 1) % s.cfg.timerPeriod } := by
  obtain ⟨hcount, -⟩ | ⟨-, -, h⟩ | ⟨-, hfire, -⟩ := s.clockTimer_cases
  · exact absurd (prescaler_wraps_iff.2 hp) hcount
  · exact h
  · exact absurd hfire ht

theorem State.clockTimer_fires {s : State} (hp : s.pre = 63) (ht : (s.tcnt + 1) % s.cfg.timerPeriod = 0) :
    s.clockTimer = { s with pre := 0, tcnt := 0, tickf := true, fltTickLost := s.fltTickLost || s.tickf } := by
  obtain ⟨hcount, -⟩ | ⟨-, hwrap, -⟩ | ⟨-, -, h⟩ := s.clockTimer_cases
  · exact absurd (prescaler_wraps_iff.2 hp) hcount
  · exact absurd ht hwrap
  · exact h

/-! ### A run of clocks (60_exceptions.md R156) -/

/-- `s` with the counters at clock number `n` of a tick's `64 × TIMER_PERIOD`. -/
def State.atClock (s : State) (n : Nat) : State := { s with pre := BitVec.ofNat 6 n, tcnt := n / 64 }

theorem State.atClock_zero {s : State} (hp : s.pre = 0) (ht : s.tcnt = 0) : s.atClock 0 = s := by
  cases s
  cases hp
  cases ht
  rfl

theorem prescaler_full_iff {n : Nat} : BitVec.ofNat 6 n = 63 ↔ n % 64 = 63 := by
  rw [← BitVec.toNat_inj, BitVec.toNat_ofNat]
  rfl

/-- Before the last clock of a tick only the clock number moves: the carry from the prescaler is the carry of `n + 1`
in base 64. -/
theorem State.clockTimer_atClock {s : State} {n : Nat} (hn : n + 1 < 64 * s.cfg.timerPeriod) :
    (s.atClock n).clockTimer = s.atClock (n + 1) := by
  by_cases hfull : n % 64 = 63
  · have hquot : n / 64 + 1 = (n + 1) / 64 := by omega
    have hmod : (n / 64 + 1) % s.cfg.timerPeriod = (n + 1) / 64 := by
      rw [hquot]
      exact Nat.mod_eq_of_lt (Nat.div_lt_of_lt_mul hn)
    have hwrap : (n / 64 + 1) % s.cfg.timerPeriod ≠ 0 := by omega
    have hpre : BitVec.ofNat 6 (n + 1) = 0 := by bv_omega
    rw [State.clockTimer_wraps (s := s.atClock n) (prescaler_full_iff.2 hfull) hwrap]
    simp only [State.atClock, hmod, hpre]
  · have hquot : n / 64 = (n + 1) / 64 := by omega
    have hpre : BitVec.ofNat 6 n + 1 = BitVec.ofNat 6 (n + 1) := (BitVec.ofNat_add ..).symm
    rw [State.clockTimer_counts (s := s.atClock n) fun h => hfull (prescaler_full_iff.1 h)]
    simp only [State.atClock, hquot, hpre]

/-- The last clock of a tick carries out of both counters. -/
theorem State.clockTimer_atLastClock {s : State} {n : Nat} (hn : n + 1 = 64 * s.cfg.timerPeriod) :
    (s.atClock n).clockTimer = { s with
      pre := 0, tcnt := 0, tickf := true, fltTickLost := s.fltTickLost || s.tickf } := by
  have hfull : n % 64 = 63 := by omega
  have hquot : n / 64 + 1 = s.cfg.timerPeriod := by omega
  have hfire : (n / 64 + 1) % s.cfg.timerPeriod = 0 := by rw [hquot, Nat.mod_self]
  exact State.clockTimer_fires (s := s.atClock n) (prescaler_full_iff.2 hfull) hfire

section Clocks

variable {s : State} (hsrc : s.cfg.tickSource = .clock) (hen : s.tickEn = true) (hp : s.pre = 0) (ht : s.tcnt = 0)
include hsrc hen

theorem exec_clk_atClock (n : Nat) : exec .clk (s.atClock n) = .next (s.atClock n).clockTimer :=
  exec_clk_enabled (s := s.atClock n) hen hsrc

theorem runAll_clocks_succ {k : Nat} (hk : runAll (List.replicate k .clk) s = .next (s.atClock k)) :
    runAll (List.replicate (k + 1) .clk) s = .next (s.atClock k).clockTimer := by
  rw [List.replicate_succ', runAll_append _ _ _ _ hk]
  simp only [runAll, exec_clk_atClock hsrc hen]

include hp ht

theorem runAll_clocks (k : Nat) (hk : k < 64 * s.cfg.timerPeriod) :
    runAll (List.replicate k .clk) s = .next (s.atClock k) := by
  induction k with
  | zero => rw [State.atClock_zero hp ht, List.replicate_zero, runAll]
  | succ k ih =>
    rw [runAll_clocks_succ hsrc hen (ih (Nat.lt_of_succ_lt hk)), State.clockTimer_atClock hk]

theorem runAll_clocks_tick : runAll (List.replicate (64 * s.cfg.timerPeriod) .clk) s =
    .next { s with tickf := true, fltTickLost := s.fltTickLost || s.tickf } := by
  obtain ⟨n, hn⟩ := Nat.exists_eq_add_one.2 (Nat.mul_pos (by decide : 0 < 64) s.cfg.timerPeriod_pos)
  rw [hn, runAll_clocks_succ hsrc hen (runAll_clocks hsrc hen hp ht n (by omega)),
    State.clockTimer_atLastClock hn.symm, ← hp, ← ht]

end Clocks

/-- Settles O27: a clock counts, wraps or fires, and a run of clocks from cleared counters is followed by its clock
number. -/
theorem clockDividesToTicks : Obligations.ClockDividesToTicks := by
  refine ⟨fun s hsrc hen => ⟨fun hp => ?counts, fun hp ht => ?wraps, fun hp ht => ?fires⟩,
    fun s hoff => exec_clk_disabled (hoff.imp_right ?events),
    fun s hsrc hen hp ht => ⟨fun k hk => ?before, runAll_clocks_tick hsrc hen hp ht⟩⟩
  case counts => rw [exec_clk_enabled hen hsrc, State.clockTimer_counts hp]
  case wraps => rw [exec_clk_enabled hen hsrc, State.clockTimer_wraps hp ht]
  case fires => rw [exec_clk_enabled hen hsrc, State.clockTimer_fires hp ht]
  case events => intro hsrc; rw [hsrc]; decide
  case before => exact ⟨s.atClock k, runAll_clocks hsrc hen hp ht k hk, rfl⟩

/-! ### `HALT` (60_exceptions.md R154, R171) -/

theorem takeInterrupt_halted (src : IrqSource) (f : State → State) {s : State} (hh : s.halt = true) :
    takeInterrupt src f s = .refused .eventNotEnabled := by
  rw [takeInterrupt, hh, Bool.not_true, Bool.and_false, whenEnabled_false]

theorem exec_irqTick_halted {s : State} (hh : s.halt = true) : exec .irqTick s = .refused .eventNotEnabled :=
  takeInterrupt_halted .tick _ hh

theorem exec_irqSer_halted {s : State} (hh : s.halt = true) : exec .irqSer s = .refused .eventNotEnabled :=
  takeInterrupt_halted .ser _ hh

theorem handlerOperand_isSome : ∀ h : BitVec 2, h ≠ 3 → (handlerOperand h).isSome = true := by
  decide

/-- Every well-formed command is accepted before its own rule is looked at, and acceptance answers `Halted`. -/
theorem exec_command_halted {s : State} (hfg : s.fg = .idle) (hh : s.halt = true) {i : Instr}
    (hi : i.isCommand = true) (hwf : WellFormed s.cfg.scaledWidth i = true) :
    exec i s = .next (s.respond .halted 0) := by
  have haccept (body : State → Result) : acceptCommand s body = .next (s.respond .halted 0) :=
    acceptCommand_halted hfg hh
  cases i with
  | dispInit => rw [exec_dispInit, haccept]
  | patWrite k b => rw [exec_patWrite, haccept]
  | dispValue n v => rw [exec_dispValue, haccept]
  | serConfig r q l p =>
    cases r with
    | controller => rw [exec_serConfig_controller, haccept]
    | peripheral => rw [exec_serConfig_peripheral, haccept]
  | serXmitBw b => rw [exec_serXmitBw, haccept]
  | serXmitIrq b => rw [exec_serXmitIrq, haccept]
  | serSetHandler h =>
    obtain ⟨target, ht⟩ := Option.isSome_iff_exists.1 (handlerOperand_isSome h (bne_iff_ne.1 hwf))
    rw [exec_serSetHandler s ht, haccept]
  | intEnable => rw [exec_intEnable, haccept]
  | intDisable => rw [exec_intDisable, haccept]
  | _ => cases hi

/-- The display moves in an interrupt only, and with `HALT = 1` none is taken. -/
theorem exec_display_of_halted {i : Instr} {s t : State} (hh : s.halt = true) (hstep : exec i s = .next t)
    (hi : i ≠ .reset) :
    t.cur = s.cur ∧ t.prev = s.prev ∧ t.en = s.en ∧ t.latch = s.latch ∧ t.seg = s.seg ∧ t.halt = true := by
  cases exec_effect hstep with
  | reset => exact absurd rfl hi
  | tickOverrun | tickSkipped | tickSync | tickAsync => rw [exec_irqTick_halted hh] at hstep; cases hstep
  | serIdle | serHost | serMux => rw [exec_irqSer_halted hh] at hstep; cases hstep
  | spinTimeout => exact ⟨rfl, rfl, rfl, rfl, rfl, rfl⟩
  | _ => exact ⟨rfl, rfl, rfl, rfl, rfl, hh⟩

/-- Of all effects only the tick's overrun and the busy-wait's timeout write a 1 to `HALT` (rules R152, R167). -/
theorem exec_sets_halt {i : Instr} {s t : State} (hstep : exec i s = .next t) (hs : s.halt = false)
    (ht : t.halt = true) : (i = .irqTick ∧ t.fltMuxOvr = true) ∨ (i = .fgStep ∧ t.fltTimeout = true) := by
  cases exec_effect hstep with
  | tickOverrun => exact .inl ⟨rfl, rfl⟩
  | spinTimeout => exact .inr ⟨rfl, rfl⟩
  | reset => exact absurd ht Bool.false_ne_true
  | _ => exact absurd ht (Bool.eq_false_iff.1 hs)

/-- Settles O47: the guards refuse the interrupts and answer the commands, no other effect touches the display, and the
other events do not ask for `HALT`. -/
theorem haltFreezesDisplay : Obligations.HaltFreezesDisplay := by
  refine ⟨fun s hh => ⟨exec_irqTick_halted hh, exec_irqSer_halted hh, fun hfg i => exec_command_halted hfg hh,
    fun i t => exec_display_of_halted hh, fun hen => ⟨fun hsrc => ?tick, fun hsrc => ?clock⟩,
    fun hb hc sdi => ?bit, fun hb => ?glitch, exists_fgStep_next_iff.2⟩, fun i s t => exec_sets_halt⟩
  case tick => exact ⟨_, exec_tmrTick_enabled hen hsrc⟩
  case clock => exact ⟨_, exec_clk_enabled hen hsrc⟩
  case bit =>
    obtain ⟨c, hcfg⟩ := Option.ne_none_iff_exists'.1 hc
    exact ⟨_, exec_serStep_configured sdi hb hcfg⟩
  case glitch => exact ⟨_, exec_serGlitch_idle hb⟩

end Sys2Proof.Machine

/-!
PROOF. The encoding (30_encoding.md R60 to R65, R68). A word is its fields, and a field is its zero bits and its
operand, so each format is decoded and encoded by the same equations.
-/

namespace Sys2Proof

/-! ### Operands and their fields -/

@[simp] theorem slotField_append (i : Slot) : slotField (0#2 ++ i) = i := extract_low 0#2 i

@[simp] theorem decimalsField_append (n : BitVec 3) : decimalsField (0#1 ++ n) = n := extract_low 0#1 n

@[simp] theorem byteField_append (b : Byte) : byteField (0#8 ++ b) = b := extract_low 0#8 b

@[simp] theorem handlerField_append (h : BitVec 2) : handlerField (0#14 ++ h) = h := extract_low 0#14 h

@[simp] theorem slotBits_high (i : Slot) : (0#2 ++ i : BitVec 4).extractLsb' 2 2 = 0#2 := extract_high 0#2 i

@[simp] theorem decimalsBits_high (n : BitVec 3) : (0#1 ++ n : BitVec 4).extractLsb' 3 1 = 0#1 := extract_high 0#1 n

@[simp] theorem byteBits_high (b : Byte) : (0#8 ++ b : BitVec 16).extractLsb' 8 8 = 0#8 := extract_high 0#8 b

@[simp] theorem handlerBits_high (h : BitVec 2) : (0#14 ++ h : BitVec 16).extractLsb' 2 14 = 0#14 :=
  extract_high 0#14 h

/-- A word whose upper part is 0 is 0 bits above its lower part. -/
theorem zero_append_low {m n : Nat} {x : BitVec (m + n)} (h : x.extractLsb' n m = 0#m) :
    0#m ++ x.extractLsb' 0 n = x := by
  rw [← h]
  exact append_extract x

theorem append_slotField {a : BitVec 4} (h : a.extractLsb' 2 2 = 0#2) : 0#2 ++ slotField a = a :=
  zero_append_low (m := 2) (n := 2) h

theorem append_decimalsField {a : BitVec 4} (h : a.extractLsb' 3 1 = 0#1) : 0#1 ++ decimalsField a = a :=
  zero_append_low (m := 1) (n := 3) h

theorem append_byteField {d : BitVec 16} (h : d.extractLsb' 8 8 = 0#8) : 0#8 ++ byteField d = d :=
  zero_append_low (m := 8) (n := 8) h

theorem append_handlerField {d : BitVec 16} (h : d.extractLsb' 2 14 = 0#14) : 0#14 ++ handlerField d = d :=
  zero_append_low (m := 14) (n := 2) h

/-- The four configuration bits, read and written back. -/
theorem serConfigBits_low : ∀ x : BitVec 4, serConfigBits (roleField (0#12 ++ x)) (orderField (0#12 ++ x))
    ((0#12 ++ x).getLsbD 1) ((0#12 ++ x).getLsbD 0) = 0#12 ++ x := by
  decide

theorem serConfigBits_fields {d : BitVec 16} (h : d.extractLsb' 4 12 = 0#12) :
    serConfigBits (roleField d) (orderField d) (d.getLsbD 1) (d.getLsbD 0) = d := by
  rw [← zero_append_low (m := 12) (n := 4) h]
  exact serConfigBits_low _

/-! ### Decoding a word that the encoder made -/

theorem whenZero_true (i : Instr) : whenZero true i = .ok i := rfl

theorem decode_encode_patWrite (width : Nat) (i : Slot) (b : Byte) :
    decode width (encode (.patWrite i b)) = .ok (.patWrite i b) := by
  simp [decode, encode, decodeFields, whenZero_true]

theorem decode_encode_dispValue {width : Nat} (n : BitVec 3) {v : Nat} (hv : v < 2 ^ width) :
    decode width (encode (.dispValue n v)) = .ok (.dispValue n v) := by
  rw [encode, decode, decodeCommand_commandWord]
  show whenZero _ _ = _
  rw [scaledField_split, decimalsField_append, decimalsBits_high, decide_eq_true hv]
  rfl

theorem decode_encode_serConfig (width : Nat) (r : Role) (q : BitOrder) (l p : Bool) :
    decode width (encode (.serConfig r q l p)) = .ok (.serConfig r q l p) := by
  cases r <;> cases q <;> cases l <;> cases p <;> rfl

theorem decode_encode_serXmitBw (width : Nat) (b : Byte) :
    decode width (encode (.serXmitBw b)) = .ok (.serXmitBw b) := by
  simp [decode, encode, decodeFields, whenZero_true]

theorem decode_encode_serXmitIrq (width : Nat) (b : Byte) :
    decode width (encode (.serXmitIrq b)) = .ok (.serXmitIrq b) := by
  simp [decode, encode, decodeFields, whenZero_true]

theorem decode_encode_serSetHandler (width : Nat) {h : BitVec 2} (hh : h ≠ 3) :
    decode width (encode (.serSetHandler h)) = .ok (.serSetHandler h) := by
  simpa [decode, encode, decodeFields, handlerCommand] using hh

/-- Settles O1, operation by operation; only the scaled value and the handler id have values to exclude. -/
theorem decodeEncodeRoundTrip : Obligations.DecodeEncodeRoundTrip := by
  intro width i hwf
  cases i with
  | patWrite i b => exact decode_encode_patWrite width i b
  | dispValue n v => exact decode_encode_dispValue n (of_decide_eq_true hwf)
  | serConfig r q l p => exact decode_encode_serConfig width r q l p
  | serXmitBw b => exact decode_encode_serXmitBw width b
  | serXmitIrq b => exact decode_encode_serXmitIrq width b
  | serSetHandler h => exact decode_encode_serSetHandler width (bne_iff_ne.1 hwf)
  | serStep s => cases s <;> rfl
  | dispInit | intEnable | intDisable | reset | tmrTick | irqTick | irqSer | serGlitch | clk | fgStep => rfl

/-! ### Encoding what a word decodes to -/

theorem whenZero_eq_ok {z : Bool} {i j : Instr} (h : whenZero z i = .ok j) : z = true ∧ i = j := by
  cases z with
  | false => cases h
  | true => exact ⟨rfl, Except.ok.inj h⟩

theorem handlerCommand_eq_ok {h : BitVec 2} {i : Instr} (hd : handlerCommand h = .ok i) :
    h ≠ 3 ∧ .serSetHandler h = i := by
  rw [handlerCommand] at hd
  split at hd
  · cases hd
  · next h3 => exact ⟨h3, Except.ok.inj hd⟩

theorem whenNoArgument_eq_ok {w : EventWord} {i j : Instr} (h : whenNoArgument w i = .ok j) :
    w.extractLsb' 0 4 = 0 ∧ i = j := by
  rw [whenNoArgument] at h
  split at h
  · next h0 => exact ⟨h0, Except.ok.inj h⟩
  · cases h

/-- `op` from the number the decoder dispatches on. -/
theorem field_of_toNat {n k : Nat} {x : BitVec n} (h : x.toNat = k) : x = BitVec.ofNat n k := by
  rw [← h, BitVec.ofNat_toNat, BitVec.setWidth_eq]

/-- The zero bits of a format lie in `a`, in `d` and above bit 15. -/
theorem zeroBits_eq {m n k : Nat} {a : BitVec m} {d : BitVec n} (h : (a == 0 && d == 0 && k == 0) = true) :
    a = 0 ∧ d = 0 ∧ k = 0 := by
  simpa [and_assoc] using h

/-- The fields of a word that decodes are those of the encoder's word, format by format. -/
theorem encode_of_decodeFields {width : Nat} {op a : BitVec 4} {d : BitVec 16} {high : Nat} {i : Instr}
    (h : decodeFields width op a d high = .ok i) :
    encode i = .command (commandWord op a d) high ∧ WellFormed width i = true := by
  unfold decodeFields at h
  split at h
  case h_1 hop | h_8 hop | h_9 hop =>
    obtain ⟨hz, rfl⟩ := whenZero_eq_ok h
    obtain ⟨rfl, rfl, rfl⟩ := zeroBits_eq hz
    rw [field_of_toNat hop]
    exact ⟨rfl, rfl⟩
  case h_2 hop =>
    obtain ⟨hz, rfl⟩ := whenZero_eq_ok h
    obtain ⟨ha, hd, rfl⟩ := zeroBits_eq hz
    rw [field_of_toNat hop, encode, append_slotField ha, append_byteField hd]
    exact ⟨rfl, rfl⟩
  case h_3 hop =>
    obtain ⟨hz, rfl⟩ := whenZero_eq_ok h
    obtain ⟨ha, hv⟩ := Bool.and_eq_true_iff.1 hz
    rw [field_of_toNat hop, encode, append_decimalsField (eq_of_beq ha), scaledField_low, scaledField_high]
    exact ⟨rfl, hv⟩
  case h_4 hop =>
    obtain ⟨hz, rfl⟩ := whenZero_eq_ok h
    obtain ⟨rfl, hd, rfl⟩ := zeroBits_eq hz
    rw [field_of_toNat hop, encode, serConfigBits_fields hd]
    exact ⟨rfl, rfl⟩
  case h_5 hop | h_6 hop =>
    obtain ⟨hz, rfl⟩ := whenZero_eq_ok h
    obtain ⟨rfl, hd, rfl⟩ := zeroBits_eq hz
    rw [field_of_toNat hop, encode, append_byteField hd]
    exact ⟨rfl, rfl⟩
  case h_7 hop =>
    split at h
    · next hz =>
      obtain ⟨rfl, hd, rfl⟩ := zeroBits_eq hz
      obtain ⟨h3, rfl⟩ := handlerCommand_eq_ok h
      rw [field_of_toNat hop, encode, append_handlerField hd]
      exact ⟨rfl, bne_iff_ne.2 h3⟩
    · cases h
  case h_10 => cases h

/-- An event word is its code and its argument. -/
theorem eventWord_fields (w : EventWord) : eventWord (w.extractLsb' 4 4) (w.extractLsb' 0 4) = w :=
  append_extract (m := 4) (n := 4) w

/-- The lowest bit of a word, as a field. -/
theorem ofBool_lowBit {n : Nat} (w : BitVec n) : BitVec.ofBool (w.getLsbD 0) = w.extractLsb' 0 1 := by
  apply BitVec.eq_of_getLsbD_eq
  intro k hk
  obtain rfl : k = 0 := by omega
  simp

/-- `SER_STEP`'s argument is its sample, below three zero bits. -/
theorem serStepArgument {w : EventWord} (h : w.extractLsb' 1 3 = 0) :
    0#3 ++ BitVec.ofBool (w.getLsbD 0) = w.extractLsb' 0 4 := by
  rw [ofBool_lowBit, ← extract_split w 0 3 1, h]
  rfl

theorem encode_of_decodeEvent {w : EventWord} {i : Instr} (h : decodeEvent w = .ok i) :
    encode i = .event w ∧ i.isCommand = false := by
  rw [← eventWord_fields w]
  unfold decodeEvent at h
  split at h
  case h_4 hcode =>
    split at h
    · next harg =>
      cases h
      rw [field_of_toNat hcode, encode, serStepArgument harg]
      exact ⟨rfl, rfl⟩
    · cases h
  case h_9 => cases h
  all_goals
    next hcode =>
    obtain ⟨harg, rfl⟩ := whenNoArgument_eq_ok h
    rw [field_of_toNat hcode, harg]
    exact ⟨rfl, rfl⟩

theorem wellFormed_event (width : Nat) {i : Instr} (hi : i.isCommand = false) : WellFormed width i = true := by
  cases i with
  | reset | tmrTick | irqTick | serStep | irqSer | serGlitch | clk | fgStep => rfl
  | _ => cases hi

/-- Settles O2: the fields of a word that decodes are those of the encoder's word, and they are the word. -/
theorem encodeDecodeRoundTrip : Obligations.EncodeDecodeRoundTrip := by
  intro width w i h
  cases w with
  | command w high =>
    rw [← commandWord_fields w]
    exact encode_of_decodeFields h
  | event w =>
    obtain ⟨he, hi⟩ := encode_of_decodeEvent h
    exact ⟨he, wellFormed_event width hi⟩

end Sys2Proof

/-!
PROOF. The step and the invariant (00_scope.md R8, 10_state.md section 9). Each clause of the invariant is read off the
effects a step can have: the operations that write the element are named, every other one leaves it.
-/

namespace Sys2Proof.Machine

/-! ### The step -/

theorem step_of_decode {s : State} {w : PortWord} {rest : List PortWord} {i : Instr} (htrace : s.trace = w :: rest)
    (hw : decode s.cfg.scaledWidth w = .ok i) : step s = exec i { s with trace := rest } := by
  simp only [step, State.takeWord, htrace, hw]

theorem step_of_reject {s : State} {w : PortWord} {rest : List PortWord} {e : DecodeError}
    (htrace : s.trace = w :: rest) (hw : decode s.cfg.scaledWidth w = .error e) :
    step s = rejectWord w { s with trace := rest } := by
  simp only [step, State.takeWord, htrace, hw]

theorem step_of_noWord {s : State} (htrace : s.trace = []) : step s = .refused .noWord := by
  simp only [step, State.takeWord, htrace]

/-- A word that is no operation and takes a step was an illegal command. -/
theorem rejectWord_next {w : PortWord} {s t : State} (h : rejectWord w s = .next t) :
    s.fg = .idle ∧ t = s.respond .illegalCommand 0 := by
  cases w with
  | command w high => exact illegalCommand_next h
  | event w => cases h

/-- A step takes a word, and runs the operation or answers the illegal command. -/
theorem step_next {s t : State} (h : step s = .next t) : ∃ rest : List PortWord,
    (∃ i, exec i { s with trace := rest } = .next t) ∨
      t = ({ s with trace := rest } : State).respond .illegalCommand 0 := by
  cases htrace : s.trace with
  | nil => rw [step_of_noWord htrace] at h; cases h
  | cons w rest =>
    refine ⟨rest, ?_⟩
    cases hw : decode s.cfg.scaledWidth w with
    | ok i => exact .inl ⟨i, (step_of_decode htrace hw).symm.trans h⟩
    | error e => exact .inr (rejectWord_next ((step_of_reject htrace hw).symm.trans h)).2

/-! ### Digit-enable masks -/

theorem getLsbD_enMask : ∀ p j : Slot, (enMask p).getLsbD j.toNat = decide (j = p) := by
  decide

theorem enMask_without_behind : ∀ c : Slot, enMask c &&& ~~~ enMask (c + 3) = enMask c := by
  decide

theorem enWithout_or (a b : BitVec 4) (prev : Option Slot) :
    enWithout (a ||| b) prev = enWithout a prev ||| enWithout b prev := by
  cases prev with
  | none => rfl
  | some p => exact BitVec.and_or_distrib_right

/-- The line of the previous digit is the only one that can be high, so without it none is. -/
theorem enWithout_eq_zero {en : BitVec 4} {prev : Option Slot}
    (h : en = 0 ∨ ∃ p, prev = some p ∧ en = enMask p) : enWithout en prev = 0 := by
  rcases h with rfl | ⟨p, rfl, rfl⟩
  · cases prev with
    | none => rfl
    | some p => exact BitVec.zero_and
  · exact BitVec.and_not_self _

/-- The digit before `CUR` is another one, so its line does not darken `CUR`. -/
theorem enWithout_enMask {cur : Slot} {prev : Option Slot} (h : prev = none ∨ prev = some (cur + 3)) :
    enWithout (enMask cur) prev = enMask cur := by
  rcases h with rfl | rfl
  · rfl
  · exact enMask_without_behind cur

theorem enWithout_present {en : BitVec 4} {cur : Slot} {prev : Option Slot}
    (hprev : prev = none ∨ prev = some (cur + 3)) (hone : en = 0 ∨ ∃ p, prev = some p ∧ en = enMask p) :
    enWithout (en ||| enMask cur) prev = enMask cur := by
  rw [enWithout_or, enWithout_eq_zero hone, enWithout_enMask hprev]
  exact BitVec.zero_or

/-! ### The invariant, clause by clause -/

/-- A tail of the four slots goes on as the tail of its second slot. -/
theorem Fg.ascending_next {k j : Slot} {b c : Byte} {rest : List (Slot × Byte)} {saved : Bool}
    (h : (Fg.writing k b ((j, c) :: rest) saved).ascending = true) : (Fg.writing j c rest saved).ascending = true := by
  have htail : k :: j :: rest.map Prod.fst = [0#2, 1#2, 2#2, 3#2].drop k.toNat := eq_of_beq h
  refine beq_iff_eq.2 ?_
  match k with
  | 0 | 1 | 2 =>
    obtain ⟨rfl, hrest⟩ := List.cons.inj (List.cons.inj htail).2
    exact congrArg (List.cons _) hrest
  | 3 => cases (List.cons.inj htail).2

section Clauses

variable {s t : State} {i : Instr} (hinv : Inv s) (he : Effect s i t)
include hinv he

theorem Effect.keeps_memWf : Memory.wf t.mem = true := by
  cases he with
  | patWrite | store | lastStore => exact Memory.wf_write _ _ _ hinv.memWf
  | reset => exact Memory.wf_reset
  | _ => exact hinv.memWf

/-- The index that advances is the one left behind (R27 (a)). -/
theorem Effect.keeps_prevBehind : t.prev = none ∨ t.prev = some (t.cur + 3) := by
  cases he with
  | tickSkipped | tickSync | serMux => exact .inr (congrArg some (by bv_omega))
  | reset => exact .inl rfl
  | _ => exact hinv.prevBehind

/-- A skipped slot leaves every line low, a presented digit its own line alone (R27 (b)). -/
theorem Effect.keeps_oneDigit : t.en = 0 ∨ ∃ p, t.prev = some p ∧ t.en = enMask p := by
  cases he with
  | tickSkipped => exact .inl (enWithout_eq_zero hinv.oneDigit)
  | tickSync | serMux => exact .inr ⟨s.cur, rfl, enWithout_present hinv.prevBehind hinv.oneDigit⟩
  | reset => exact .inl rfl
  | _ => exact hinv.oneDigit

theorem Effect.keeps_muxAsync : t.muxpend = true → t.cfg.variant = .async := by
  cases he with
  | tickAsync _ _ _ _ _ _ hv => exact fun _ => hv
  | serMux => exact nofun
  | reset => exact nofun
  | _ => exact hinv.muxAsync

theorem Effect.keeps_idleCount : t.busy = false → t.bitcnt = 0 := by
  cases he with
  | serStep _ _ hb =>
    cases hl : s.lastBit with
    | true => exact fun _ => rfl
    | false => exact fun hidle => absurd hb (Bool.eq_false_iff.1 hidle)
  | xmitBw | xmitIrq | tickAsync => exact nofun
  | reset => exact fun _ => rfl
  | _ => exact hinv.idleCount

theorem Effect.keeps_busyConfigured : t.busy = true → t.sercfg.isSome = true := by
  cases he with
  | serStep _ _ _ hc => exact fun _ => Option.isSome_of_eq_some hc
  | initAsync | configController | configPeripheral => exact fun _ => rfl
  | xmitBw _ _ _ hc | xmitIrq _ _ _ hc => exact fun _ => hc
  | tickAsync _ _ hp _ _ _ hv => exact fun _ => hinv.displayConfigured (hinv.tickStarted hp) hv
  | reset => exact nofun
  | _ => exact hinv.busyConfigured

theorem Effect.keeps_displayConfigured : t.tickEn = true → t.cfg.variant = .async → t.sercfg.isSome = true := by
  cases he with
  | initSync _ _ _ hv => exact fun _ hasync => nomatch hv.symm.trans hasync
  | initAsync | configController | configPeripheral => exact fun _ _ => rfl
  | reset => exact nofun
  | _ => exact hinv.displayConfigured

theorem Effect.keeps_tickStarted : t.tickf = true → t.tickEn = true := by
  cases he with
  | initSync | initAsync => exact fun _ => rfl
  | tmrTick ht | clkFires ht => exact fun _ => ht
  | tickOverrun | tickSkipped | tickSync | tickAsync | reset => exact nofun
  | _ => exact hinv.tickStarted

/-- Inside the busy-wait no command and no interrupt is a step, and a bit step ends in a transfer in flight or done. -/
theorem Effect.keeps_spinSection (saved : Bool) (n : Nat) (hspin : t.fg = .spin saved n) :
    t.ie = false ∧ t.xmode = .bw ∧ (t.busy = true ∨ t.done = true) := by
  cases he with
  | xmitBw => exact ⟨rfl, rfl, .inl rfl⟩
  | serStep _ _ hb =>
    obtain ⟨hie, hx, -⟩ := hinv.spinSection saved n hspin
    refine ⟨hie, hx, ?_⟩
    cases hl : s.lastBit with
    | true => exact .inr rfl
    | false => exact .inl hb
  | spinPoll saved n hfg => exact hinv.spinSection saved n hfg
  | xmitIrq _ hfg | intEnable hfg | intDisable hfg => cases hfg.symm.trans hspin
  | tickOverrun hie | tickSkipped hie | tickSync _ hie | tickAsync _ hie | serIdle hie | serHost hie | serMux hie =>
    exact absurd hie (Bool.eq_false_iff.1 (hinv.spinSection saved n hspin).1)
  | dispValue | store | lastStore | spinEnd | spinTimeout | reset => cases hspin
  | _ => exact hinv.spinSection saved n hspin

theorem Effect.keeps_atomicSection (k : Slot) (b : Byte) (rest : List (Slot × Byte)) (saved : Bool)
    (hwriting : t.fg = .writing k b rest saved) (hatomic : t.cfg.atomicUpdate = true) : t.ie = false := by
  cases he with
  | dispValue => exact if_pos hatomic
  | store _ _ _ _ _ _ hfg => exact hinv.atomicSection _ _ _ _ hfg hatomic
  | intEnable hfg => cases hfg.symm.trans hwriting
  | intDisable => rfl
  | tickOverrun hie | tickSkipped hie | tickSync _ hie | tickAsync _ hie | serIdle hie | serHost hie | serMux hie =>
    exact absurd hie (Bool.eq_false_iff.1 (hinv.atomicSection k b rest saved hwriting hatomic))
  | xmitBw | lastStore | spinEnd | spinPoll | spinTimeout | reset => cases hwriting
  | _ => exact hinv.atomicSection k b rest saved hwriting hatomic

theorem Effect.keeps_writesAscend : t.fg.ascending = true := by
  cases he with
  | store _ _ _ _ _ _ hfg => exact Fg.ascending_next (hfg ▸ hinv.writesAscend)
  | dispValue | xmitBw | lastStore | spinEnd | spinPoll | spinTimeout | reset => rfl
  | _ => exact hinv.writesAscend

theorem Effect.keeps_latchLow : t.latch = false := by
  cases he with
  | tickSync | serMux | reset => rfl
  | _ => exact hinv.latchLow

theorem Effect.keeps_tcntBound : t.tcnt < t.cfg.timerPeriod := by
  cases he with
  | initSync | initAsync | clkFires | reset => exact s.cfg.timerPeriod_pos
  | clkWraps => exact Nat.mod_lt _ s.cfg.timerPeriod_pos
  | _ => exact hinv.tcntBound

theorem Effect.keeps_haltReason : t.halt = (t.fltMuxOvr || t.fltTimeout) := by
  cases he with
  | spinTimeout => exact (Bool.or_true _).symm
  | tickOverrun | reset => rfl
  | _ => exact hinv.haltReason

end Clauses

theorem Effect.keeps_inv {s t : State} {i : Instr} (hinv : Inv s) (he : Effect s i t) : Inv t where
  memWf := he.keeps_memWf hinv
  prevBehind := he.keeps_prevBehind hinv
  oneDigit := he.keeps_oneDigit hinv
  muxAsync := he.keeps_muxAsync hinv
  idleCount := he.keeps_idleCount hinv
  busyConfigured := he.keeps_busyConfigured hinv
  displayConfigured := he.keeps_displayConfigured hinv
  tickStarted := he.keeps_tickStarted hinv
  spinSection := he.keeps_spinSection hinv
  atomicSection := he.keeps_atomicSection hinv
  writesAscend := he.keeps_writesAscend hinv
  latchLow := he.keeps_latchLow hinv
  tcntBound := he.keeps_tcntBound hinv
  haltReason := he.keeps_haltReason hinv

theorem exec_keeps_inv {i : Instr} {s t : State} (hinv : Inv s) (h : exec i s = .next t) : Inv t :=
  (exec_effect h).keeps_inv hinv

/-- The invariant says nothing of the coming inputs and the outputs given. -/
theorem Inv.of_trace_out {s : State} (hinv : Inv s) (trace : List PortWord) (out : List Output) :
    Inv { s with trace := trace, out := out } := by
  cases hinv
  constructor <;> assumption

/-- Settles O44: every effect keeps every clause, and an illegal word is only answered. -/
theorem stepKeepsInvariant : Obligations.StepKeepsInvariant := by
  intro s t hinv hstep
  obtain ⟨rest, ⟨i, hexec⟩ | rfl⟩ := step_next hstep
  · exact exec_keeps_inv (hinv.of_trace_out rest s.out) hexec
  · exact hinv.of_trace_out rest _

/-- Settles O43, clause by clause. -/
theorem resetMeetsInvariant : Obligations.ResetMeetsInvariant where
  memWf := Memory.wf_reset
  prevBehind := .inl rfl
  oneDigit := .inl rfl
  muxAsync := nofun
  idleCount := fun _ => rfl
  busyConfigured := nofun
  displayConfigured := nofun
  tickStarted := nofun
  spinSection := nofun
  atomicSection := nofun
  writesAscend := rfl
  latchLow := rfl
  tcntBound := Config.initial.timerPeriod_pos
  haltReason := rfl

end Sys2Proof.Machine

/-!
PROOF. The words of the ports (30_encoding.md R64 to R68). A word fits a row of the opcode table when its fields have
the row's zero bits, which is what the decoder checks; the illegal words are the ones it finds no row for.
-/

namespace Sys2Proof

/-! ### Masks and fields -/

/-- The converse of `fitsMask`: the mask of a row says the fields of the words that fit it. -/
theorem fields_of_fitsMask {w : CommandWord} {op ma : BitVec 4} {md : BitVec 16} {mask matched : CommandWord}
    (h : w &&& mask = matched) (hmask : mask = commandWord 0xF ma md) (hmatch : matched = commandWord op 0 0) :
    opField w = op ∧ aField w &&& ma = 0 ∧ dField w &&& md = 0 := by
  have hfields : commandWord (opField w &&& 0xF) (aField w &&& ma) (dField w &&& md) = commandWord op 0 0 := by
    rw [← commandWord_and, commandWord_fields, ← hmask, ← hmatch, h]
  have hop := congrArg opField hfields
  have ha := congrArg aField hfields
  have hd := congrArg dField hfields
  simp only [opField_commandWord, aField_commandWord, dField_commandWord] at hop ha hd
  exact ⟨BitVec.and_allOnes.symm.trans hop, ha, hd⟩

/-- A mask of ones above zeros keeps the upper field. -/
theorem extract_high_of_mask {m n : Nat} {x : BitVec (m + n)} (h : x &&& (BitVec.allOnes m ++ 0#n) = 0) :
    x.extractLsb' n m = 0 := by
  rw [← append_extract x, BitVec.and_append, BitVec.and_allOnes] at h
  have hhigh := congrArg (BitVec.extractLsb' n m) h
  rw [extract_high] at hhigh
  exact hhigh.trans BitVec.extractLsb'_zero

theorem eq_zero_of_allOnes {n : Nat} {x : BitVec n} (h : x &&& BitVec.allOnes n = 0) : x = 0 :=
  BitVec.and_allOnes.symm.trans h

/-! ### The rows of the opcode table (30_encoding.md R64, R68) -/

/-- Every well-formed operation's word fits its row. -/
theorem encode_fitsRow {width : Nat} (i : Instr) (hwf : WellFormed width i = true) : fitsRow width i (encode i) := by
  cases i with
  | dispInit => exact Laws.EncodeFitsRow.dispInit width hwf
  | patWrite k b => exact Laws.EncodeFitsRow.patWrite k b width hwf
  | dispValue n v => exact Laws.EncodeFitsRow.dispValue n v width hwf
  | serConfig r q l p => exact Laws.EncodeFitsRow.serConfig r q l p width hwf
  | serXmitBw b => exact Laws.EncodeFitsRow.serXmitBw b width hwf
  | serXmitIrq b => exact Laws.EncodeFitsRow.serXmitIrq b width hwf
  | serSetHandler h => exact Laws.EncodeFitsRow.serSetHandler h width hwf
  | intEnable => exact Laws.EncodeFitsRow.intEnable width hwf
  | intDisable => exact Laws.EncodeFitsRow.intDisable width hwf
  | reset => exact Laws.EncodeFitsRow.reset width hwf
  | tmrTick => exact Laws.EncodeFitsRow.tmrTick width hwf
  | irqTick => exact Laws.EncodeFitsRow.irqTick width hwf
  | serStep s => exact Laws.EncodeFitsRow.serStep s width hwf
  | irqSer => exact Laws.EncodeFitsRow.irqSer width hwf
  | serGlitch => exact Laws.EncodeFitsRow.serGlitch width hwf
  | clk => exact Laws.EncodeFitsRow.clk width hwf
  | fgStep => exact Laws.EncodeFitsRow.fgStep width hwf

/-- The words that fit a command's row are the encoder's words of the row's operation, but for the reserved handler. -/
theorem encode_of_fitsRow_command {width : Nat} {w : CommandWord} {high : Nat} {i : Instr}
    (h : fitsRow width i (.command w high)) (hw : PortWord.command w high ≠ .command 0x700003) :
    ∃ j, encode j = .command w high ∧ WellFormed width j = true ∧ j.mnemonic = i.mnemonic := by
  cases i with
  | dispInit | intEnable | intDisable =>
    obtain ⟨hmask, rfl⟩ := h
    obtain rfl := BitVec.and_allOnes.symm.trans hmask
    exact ⟨_, rfl, rfl, rfl⟩
  | patWrite =>
    obtain ⟨hmask, rfl⟩ := h
    obtain ⟨hop, ha, hd⟩ := fields_of_fitsMask (op := 2) (ma := 0xC) (md := 0xFF00) hmask rfl rfl
    refine ⟨.patWrite (slotField (aField w)) (byteField (dField w)), ?_, rfl, rfl⟩
    rw [encode, append_slotField (extract_high_of_mask (m := 2) ha),
      append_byteField (extract_high_of_mask (m := 8) hd), ← hop, commandWord_fields]
  | dispValue =>
    obtain ⟨hmask, hv⟩ := h
    obtain ⟨hop, ha, -⟩ := fields_of_fitsMask (op := 3) (ma := 0x8) (md := 0) hmask rfl rfl
    refine ⟨.dispValue (decimalsField (aField w)) (scaledField (dField w) high), ?_, ?_, rfl⟩
    · rw [encode, append_decimalsField (extract_high_of_mask (m := 1) ha), scaledField_low, scaledField_high,
        ← hop, commandWord_fields]
    · rw [dField_number] at hv
      exact decide_eq_true hv
  | serConfig =>
    obtain ⟨hmask, rfl⟩ := h
    obtain ⟨hop, ha, hd⟩ := fields_of_fitsMask (op := 4) (ma := 0xF) (md := 0xFFF0) hmask rfl rfl
    refine ⟨.serConfig (roleField (dField w)) (orderField (dField w)) ((dField w).getLsbD 1) ((dField w).getLsbD 0),
      ?_, rfl, rfl⟩
    rw [encode, serConfigBits_fields (extract_high_of_mask (m := 12) hd), ← eq_zero_of_allOnes ha, ← hop,
      commandWord_fields]
  | serXmitBw =>
    obtain ⟨hmask, rfl⟩ := h
    obtain ⟨hop, ha, hd⟩ := fields_of_fitsMask (op := 5) (ma := 0xF) (md := 0xFF00) hmask rfl rfl
    refine ⟨.serXmitBw (byteField (dField w)), ?_, rfl, rfl⟩
    rw [encode, append_byteField (extract_high_of_mask (m := 8) hd), ← eq_zero_of_allOnes ha, ← hop,
      commandWord_fields]
  | serXmitIrq =>
    obtain ⟨hmask, rfl⟩ := h
    obtain ⟨hop, ha, hd⟩ := fields_of_fitsMask (op := 6) (ma := 0xF) (md := 0xFF00) hmask rfl rfl
    refine ⟨.serXmitIrq (byteField (dField w)), ?_, rfl, rfl⟩
    rw [encode, append_byteField (extract_high_of_mask (m := 8) hd), ← eq_zero_of_allOnes ha, ← hop,
      commandWord_fields]
  | serSetHandler =>
    obtain ⟨hmask, rfl⟩ := h
    obtain ⟨hop, ha, hd⟩ := fields_of_fitsMask (op := 7) (ma := 0xF) (md := 0xFFFC) hmask rfl rfl
    have hword : encode (.serSetHandler (handlerField (dField w))) = .command w 0 := by
      rw [encode, append_handlerField (extract_high_of_mask (m := 14) hd), ← eq_zero_of_allOnes ha, ← hop,
        commandWord_fields]
    refine ⟨_, hword, bne_iff_ne.2 fun h3 => hw ?_, rfl⟩
    rw [← hword, h3]
    rfl
  | reset | tmrTick | irqTick | serStep | irqSer | serGlitch | clk | fgStep => exact h.elim

theorem serStep_words : ∀ w : EventWord, w &&& 0xFE = 0x40 → w = 0x40 ∨ w = 0x41 := by
  decide

/-- The words that fit an event's row are the encoder's words of the row's event. -/
theorem encode_of_fitsRow_event {width : Nat} {w : EventWord} {i : Instr} (h : fitsRow width i (.event w)) :
    ∃ j, encode j = .event w ∧ WellFormed width j = true ∧ j.mnemonic = i.mnemonic := by
  cases i with
  | serStep s =>
    rcases serStep_words w h with rfl | rfl
    · exact ⟨.serStep false, rfl, rfl, rfl⟩
    · exact ⟨.serStep true, rfl, rfl, rfl⟩
  | reset | tmrTick | irqTick | irqSer | serGlitch | clk | fgStep =>
    obtain rfl := BitVec.and_allOnes.symm.trans h
    exact ⟨_, rfl, rfl, rfl⟩
  | _ => exact h.elim

/-- Settles O3: a word that decodes is the encoder's, and the words that fit a row are the encoder's too. -/
theorem decoderFollowsOpcodeTable : Obligations.DecoderFollowsOpcodeTable := by
  refine ⟨fun width w i h => ?decodes, fun width w i h hw => ?fits, fun _ => rfl⟩
  case decodes =>
    obtain ⟨rfl, hwf⟩ := encodeDecodeRoundTrip width w i h
    exact encode_fitsRow i hwf
  case fits =>
    have hword : ∃ j, encode j = w ∧ WellFormed width j = true ∧ j.mnemonic = i.mnemonic := by
      cases w with
      | command w high => exact encode_of_fitsRow_command h hw
      | event w => exact encode_of_fitsRow_event h
    obtain ⟨j, rfl, hwf, hj⟩ := hword
    exact ⟨j, decodeEncodeRoundTrip width j hwf, hj⟩

/-! ### Illegal command words (30_encoding.md R65) -/

theorem whenZero_eq_error_iff {z : Bool} {i : Instr} : (∃ e, whenZero z i = .error e) ↔ z = false := by
  cases z with
  | false => exact iff_of_true ⟨_, rfl⟩ rfl
  | true => exact iff_of_false nofun nofun

theorem handlerFormat_eq_error_iff {z : Prop} [Decidable z] {h : BitVec 2} :
    (∃ e, (if z then handlerCommand h else .error .nonzeroReservedBits) = Except.error e) ↔ ¬ z ∨ h = 3 := by
  by_cases hz : z
  · rw [if_pos hz]
    by_cases h3 : h = 3
    · exact iff_of_true ⟨_, if_pos h3⟩ (.inr h3)
    · exact iff_of_false (fun ⟨_, he⟩ => nomatch (if_neg h3).symm.trans he) (fun hor => hor.elim (· hz) h3)
  · exact iff_of_true ⟨_, if_neg hz⟩ (.inl hz)

/-- The words without an operation are those of the spec's list. For one `op` only that format's line of the list is
left, and it says that one of the zero bits the decoder checks is 1. -/
theorem decodeCommand_eq_error_iff {width : Nat} {w : CommandWord} {high : Nat} :
    (∃ e, decodeCommand width w high = .error e) ↔ Machine.IllegalWord width w high := by
  rw [decodeCommand, Machine.IllegalWord, ← handlerField, ← scaledField]
  generalize opField w = op, aField w = a, dField w = d
  obtain ⟨k, rfl⟩ : ∃ k : Fin 16, op = BitVec.ofFin k := ⟨op.toFin, rfl⟩
  fin_cases k <;>
    simp [decodeFields, whenZero_eq_error_iff, handlerFormat_eq_error_iff] <;>
    tauto

theorem isCommand_of_encode {i : Instr} {w : CommandWord} {high : Nat} (h : encode i = .command w high) :
    i.isCommand = true := by
  cases i with
  | reset | tmrTick | irqTick | serStep | irqSer | serGlitch | clk | fgStep => cases h
  | _ => rfl

/-- Every other word is a well-formed command. -/
theorem decodeCommand_of_legal {width : Nat} {w : CommandWord} {high : Nat}
    (h : ¬ Machine.IllegalWord width w high) :
    ∃ i, decodeCommand width w high = .ok i ∧ i.isCommand = true ∧ WellFormed width i = true := by
  cases hd : decodeCommand width w high with
  | error e => exact absurd (decodeCommand_eq_error_iff.1 ⟨e, hd⟩) h
  | ok i =>
    obtain ⟨hword, hwf⟩ := encodeDecodeRoundTrip width (.command w high) i hd
    exact ⟨i, rfl, isCommand_of_encode hword, hwf⟩

end Sys2Proof

namespace Sys2Proof.Machine

/-- An illegal word with the foreground ready is answered 0x0300, before `HALT` is looked at. -/
theorem step_illegal {s : State} {w : CommandWord} {high : Nat} {rest : List PortWord}
    (htrace : s.trace = .command w high :: rest) (hfg : s.fg = .idle)
    (hw : IllegalWord s.cfg.scaledWidth w high) :
    step s = .next { s with trace := rest, out := s.out ++ [.response 0x0300] } := by
  obtain ⟨e, he⟩ := decodeCommand_eq_error_iff.2 hw
  exact (step_of_reject htrace he).trans (illegalCommand_idle (s := { s with trace := rest }) hfg)

/-- Settles O4. -/
theorem illegalCommandWordsAreAnswered : Obligations.IllegalCommandWordsAreAnswered := by
  intro width w high
  refine ⟨fun hw => ⟨decodeCommand_eq_error_iff.2 hw, ?_⟩, decodeCommand_of_legal⟩
  rintro s rest rfl htrace hfg
  exact step_illegal htrace hfg hw

/-! ### The step over the next word (00_scope.md R8, 30_encoding.md R67, R68) -/

/-- A wider model decodes every word that a narrower one decodes, and to the same operation. -/
theorem decode_of_le {m n : Nat} {w : PortWord} {i : Instr} (hmn : m ≤ n) (h : decode m w = .ok i) :
    decode n w = .ok i := by
  obtain ⟨rfl, hwf⟩ := encodeDecodeRoundTrip m w i h
  refine decodeEncodeRoundTrip n i ?_
  cases i with
  | dispValue k v =>
    exact decide_eq_true (Nat.lt_of_lt_of_le (of_decide_eq_true hwf) (Nat.pow_le_pow_right (by decide) hmn))
  | _ => exact hwf

theorem decode_of_decodeTableWord {nbits w : Nat} {i : Instr} (h : decodeTableWord nbits w = some i) :
    decode 16 (tableWord nbits w) = .ok i := by
  rw [decodeTableWord] at h
  split at h
  · next hd => rw [hd, Option.some.inj h]
  · cases h

/-- Settles O6: a word of the table decodes at every width that holds its operand. -/
theorem stepRunsDecodedOperation : Obligations.StepRunsDecodedOperation := by
  refine ⟨fun s w rest i => step_of_decode, fun s nbits w i h hwidth => ?table⟩
  case table =>
    have hd : decode s.cfg.scaledWidth (tableWord nbits w) = .ok i :=
      decode_of_le hwidth (decode_of_decodeTableWord h)
    exact step_of_decode (s := s.withFetchWord nbits w) (rest := s.trace) rfl hd

/-- The encoder's event words have a code from 1 to 8, and an argument in `SER_STEP`'s lowest bit only. -/
theorem eventWord_legal {i : Instr} {w : EventWord} (h : encode i = .event w) :
    ¬ (w >>> 4 = 0 ∨ 9 ≤ w >>> 4 ∨ (w >>> 4 ≠ 4 ∧ w &&& 0x0F ≠ 0) ∨ w &&& 0x0E ≠ 0) := by
  cases i with
  | serStep sdi => cases h; cases sdi <;> decide
  | reset | tmrTick | irqTick | irqSer | serGlitch | clk | fgStep => cases h; decide
  | _ => cases h

/-- Settles O7: an event word that decodes is the encoder's, so one that the encoder cannot make is rejected. -/
theorem wordsThatAreNoStep : Obligations.WordsThatAreNoStep := by
  refine ⟨fun s => step_of_noWord, fun s w rest htrace hw => ?event⟩
  case event =>
    cases hd : decode s.cfg.scaledWidth (.event w) with
    | ok i => exact absurd hw (eventWord_legal (encodeDecodeRoundTrip _ _ i hd).1)
    | error e => exact step_of_reject htrace hd

theorem illegalCommand_busy {s : State} (hfg : s.fg ≠ .idle) : illegalCommand s = .refused .foregroundBusy := by
  unfold illegalCommand
  split
  · next h => exact absurd h hfg
  · rfl
  · rfl

/-- A command that arrives inside another one is not accepted. -/
theorem exec_command_busy {s : State} {i : Instr} (hi : i.isCommand = true) (hfg : s.fg ≠ .idle) :
    exec i s = .refused .foregroundBusy := by
  have hrefuse (body : State → Result) : acceptCommand s body = .refused .foregroundBusy := acceptCommand_busy hfg
  cases i with
  | dispInit => rw [exec_dispInit, hrefuse]
  | patWrite k b => rw [exec_patWrite, hrefuse]
  | dispValue n v => rw [exec_dispValue, hrefuse]
  | serConfig r q l p =>
    cases r with
    | controller => rw [exec_serConfig_controller, hrefuse]
    | peripheral => rw [exec_serConfig_peripheral, hrefuse]
  | serXmitBw b => rw [exec_serXmitBw, hrefuse]
  | serXmitIrq b => rw [exec_serXmitIrq, hrefuse]
  | serSetHandler h =>
    cases ht : handlerOperand h with
    | none => simp only [exec, execSerSetHandler, ht, illegalCommand_busy hfg]
    | some target => rw [exec_serSetHandler s ht, hrefuse]
  | intEnable => rw [exec_intEnable, hrefuse]
  | intDisable => rw [exec_intDisable, hrefuse]
  | _ => cases hi

/-- Settles O8: the answers of O4 and O47, the first error of a transmit command, and the guard on `FG`. -/
theorem commandCheckOrder : Obligations.CommandCheckOrder := by
  intro s w high rest htrace
  refine ⟨fun hfg => ⟨step_illegal htrace hfg, fun hw hh => ?halted, fun hh hc hb hx => ?unconfigured⟩,
    fun hfg => ?busy⟩
  case halted =>
    obtain ⟨i, hd, hi, hwf⟩ := decodeCommand_of_legal hw
    exact (step_of_decode htrace hd).trans (exec_command_halted (s := { s with trace := rest }) hfg hh hi hwf)
  case unconfigured =>
    obtain ⟨b, hword | hword⟩ := hx
    · have hd := hword ▸ decodeEncodeRoundTrip s.cfg.scaledWidth (.serXmitBw b) rfl
      exact (step_of_decode htrace hd).trans (acceptTransmit_unconfigured (s := { s with trace := rest }) hfg hh hc)
    · have hd := hword ▸ decodeEncodeRoundTrip s.cfg.scaledWidth (.serXmitIrq b) rfl
      exact (step_of_decode htrace hd).trans (acceptTransmit_unconfigured (s := { s with trace := rest }) hfg hh hc)
  case busy =>
    cases hd : decode s.cfg.scaledWidth (.command w high) with
    | ok i =>
      have hi := isCommand_of_encode (encodeDecodeRoundTrip _ _ i hd).1
      exact (step_of_decode htrace hd).trans (exec_command_busy (s := { s with trace := rest }) hi hfg)
    | error e => exact (step_of_reject htrace hd).trans (illegalCommand_busy (s := { s with trace := rest }) hfg)

/-- Settles O5: the decoder computes each of the eight words. -/
theorem formatWordsDecode : Obligations.FormatWordsDecode :=
  ⟨rfl, rfl, rfl, rfl, rfl, rfl, rfl, rfl⟩

end Sys2Proof.Machine

/-!
PROOF. What the operations leave unchanged (10_state.md sections 2 and 7, 20_memory.md sections 1, 3 and 5, 42_serial.md
R127, 30_encoding.md R66), what `RESET`, `FG_STEP` and `IRQ_SER` do, and the lines of the display. The frames are read
off the effects: the operations that write an element are named.
-/

namespace Sys2Proof.Machine

/-! ### Frames -/

/-- Settles O45: no effect writes the configuration. -/
theorem parametersNeverChange : Obligations.ParametersNeverChange := by
  intro i s t h
  cases exec_effect h <;> rfl

/-- Settles O46: an effect that writes a fault element writes a 1, or the old value or a new 1. -/
theorem faultFlagsAreSticky : Obligations.FaultFlagsAreSticky := by
  intro i s t h hi
  cases exec_effect h with
  | reset => exact absurd rfl hi
  | tmrTick | clkFires => exact ⟨fun hlost => Bool.or_eq_true_iff.2 (.inl hlost), id, id, id⟩
  | tickOverrun => exact ⟨id, fun _ => rfl, id, fun _ => rfl⟩
  | spinTimeout => exact ⟨id, id, fun _ => rfl, fun _ => rfl⟩
  | _ => exact ⟨id, id, id, id⟩

/-- Settles O48: three effects advance the sequencer, all of them interrupts. -/
theorem sequencerMovesOnlyInInterrupts : Obligations.SequencerMovesOnlyInInterrupts := by
  intro i s t h hi
  cases exec_effect h with
  | reset => exact absurd rfl hi
  | tickSkipped | tickSync => exact ⟨fun htick _ => absurd rfl htick, .inr ⟨rfl, rfl⟩⟩
  | serMux => exact ⟨fun _ hser => absurd rfl hser, .inr ⟨rfl, rfl⟩⟩
  | _ => exact ⟨fun _ _ => ⟨rfl, rfl, rfl⟩, .inl ⟨rfl, rfl, rfl⟩⟩

/-- Settles O50: two effects pulse the latch, both of them interrupts. -/
theorem segmentsChangeOnlyInInterrupts : Obligations.SegmentsChangeOnlyInInterrupts := by
  intro i s t h hi htick hser
  cases exec_effect h with
  | reset => exact absurd rfl hi
  | tickSync => exact absurd rfl htick
  | serMux => exact absurd rfl hser
  | _ => exact ⟨rfl, rfl⟩

/-! ### The pattern memory (20_memory.md R41, R45) -/

theorem Memory.isSome_read_write {m : List Host.Cell} {a c : Nat} (b : Byte)
    (h : (Memory.read m c).isSome = true) : (Memory.read (Memory.write m a b) c).isSome = true := by
  by_cases hc : c = a
  · rw [hc, Memory.read_write_same]; rfl
  · rwa [Memory.read_write_other m b hc]

theorem exec_keeps_mem {i : Instr} {s t : State} (h : exec i s = .next t) (hi : i ≠ .reset)
    (hpat : ∀ k b, i ≠ .patWrite k b) (hfg : i ≠ .fgStep) : t.mem = s.mem := by
  cases exec_effect h with
  | reset => exact absurd rfl hi
  | patWrite k b => exact absurd rfl (hpat k b)
  | store | lastStore => exact absurd rfl hfg
  | _ => rfl

theorem exec_patWrite_mem {k : Slot} {b : Byte} {s t : State} (h : exec (.patWrite k b) s = .next t) :
    t.mem = if s.halt then s.mem else (s.writeSlot k b).mem := by
  rw [exec_patWrite] at h
  obtain ⟨-, ⟨hh, rfl⟩ | ⟨hh, hb⟩⟩ := acceptCommand_next h
  · rw [hh]; rfl
  · cases hb
    rw [hh]; rfl

theorem State.storeStep_mem (s : State) (k : Slot) (b : Byte) (rest : List (Slot × Byte)) (saved : Bool) :
    (s.storeStep k b rest saved).mem = (s.writeSlot k b).mem := by
  cases rest <;> rfl

theorem exec_fgStep_writing_mem {k : Slot} {b : Byte} {rest : List (Slot × Byte)} {saved : Bool} {s t : State}
    (h : exec .fgStep s = .next t) (hfg : s.fg = .writing k b rest saved) : t.mem = (s.writeSlot k b).mem := by
  rw [exec_fgStep_writing hfg] at h
  cases h
  exact State.storeStep_mem s k b rest saved

theorem exec_fgStep_spin_mem {saved : Bool} {n : Nat} {s t : State} (h : exec .fgStep s = .next t)
    (hfg : s.fg = .spin saved n) : t.mem = s.mem := by
  cases Effect.ofFgStep h with
  | store _ _ _ _ _ _ hwriting | lastStore _ _ _ hwriting => cases hfg.symm.trans hwriting
  | _ => rfl

/-- Slots are read from the memory alone. -/
theorem State.pat_of_mem {s t : State} (h : t.mem = s.mem) (j : Slot) : t.pat j = s.pat j := by
  rw [State.pat, State.pat, h]

theorem State.pat_of_writeSlot {s t : State} {k j : Slot} {b : Byte} (h : t.mem = (s.writeSlot k b).mem)
    (hj : j ≠ k) : t.pat j = s.pat j :=
  (State.pat_of_mem h j).trans (State.pat_writeSlot_other s b hj)

theorem exec_keeps_valid {i : Instr} {s t : State} (h : exec i s = .next t) (hi : i ≠ .reset) {j : Slot}
    (hj : (s.pat j).isSome = true) : (t.pat j).isSome = true := by
  cases exec_effect h with
  | reset => exact absurd rfl hi
  | patWrite _ b | store _ b | lastStore _ b => exact Memory.isSome_read_write b hj
  | _ => exact hj

/-- Settles O49: the store of `PAT_WRITE`, the store of a micro-step, and no store in any other step. -/
theorem slotsWrittenByForegroundOnly : Obligations.SlotsWrittenByForegroundOnly := by
  intro i s t h hi
  refine ⟨exec_keeps_mem h hi, ?patWrite, ?store, ?poll, fun j => exec_keeps_valid h hi⟩
  case patWrite =>
    rintro k b rfl
    have hmem := exec_patWrite_mem h
    refine ⟨hmem, fun j hj => ?_⟩
    split at hmem
    · exact State.pat_of_mem hmem j
    · exact State.pat_of_writeSlot hmem hj
  case store =>
    rintro k b rest saved rfl hfg
    have hmem := exec_fgStep_writing_mem h hfg
    exact ⟨hmem, fun j => State.pat_of_writeSlot hmem⟩
  case poll =>
    rintro saved n rfl hfg
    exact exec_fgStep_spin_mem h hfg

/-! ### Responses (30_encoding.md R66) -/

theorem responses_sckToIdle (sck : Bool) :
    responses (if sck then [.out .sck false] else []) = [] := by
  cases sck <;> rfl

theorem responses_deassertOut (prev : Option Slot) : responses (deassertOut prev) = [] := by
  cases prev <;> rfl

/-- The outputs of a step hold one response if it ends a command, and none otherwise. -/
def AnswersOnce (i : Instr) (s t : State) : Prop :=
  ∃ new, t.out = s.out ++ new ∧
    (responses new).length = if (i.isCommand = true ∨ i = .fgStep) ∧ t.fg = .idle then 1 else 0

theorem AnswersOnce.of_end {i : Instr} {s t : State} (lines : List Output) (word : ResponseWord)
    (hout : t.out = s.out ++ (lines ++ [.response word])) (hlines : responses lines = [])
    (hi : i.isCommand = true ∨ i = .fgStep) (hfg : t.fg = .idle) : AnswersOnce i s t := by
  refine ⟨lines ++ [.response word], hout, ?_⟩
  rw [if_pos ⟨hi, hfg⟩, responses_append, hlines]
  rfl

theorem AnswersOnce.of_silent {i : Instr} {s t : State} (lines : List Output) (hout : t.out = s.out ++ lines)
    (hlines : responses lines = []) (h : ¬ ((i.isCommand = true ∨ i = .fgStep) ∧ t.fg = .idle)) :
    AnswersOnce i s t :=
  ⟨lines, hout, by rw [if_neg h, hlines]; rfl⟩

theorem Effect.answersOnce {i : Instr} {s t : State} (he : Effect s i t) : AnswersOnce i s t := by
  have hnone : s.out = s.out ++ [] := (List.append_nil _).symm
  cases he with
  | answered _ hi hfg => exact .of_end [] _ rfl rfl (.inl hi) hfg
  | initSync hfg | patWrite _ _ hfg | configPeripheral _ _ _ hfg | xmitIrq _ hfg | setHandler _ _ hfg
  | intEnable hfg | intDisable hfg => exact .of_end [] _ rfl rfl (.inl rfl) hfg
  | initAsync hfg =>
    exact .of_end (if s.sck then [.out .sck false] else []) _ (List.append_assoc ..) (responses_sckToIdle s.sck)
      (.inl rfl) hfg
  | configController _ l _ hfg => exact .of_end [.out .sck l] _ (List.append_assoc ..) rfl (.inl rfl) hfg
  | lastStore | spinTimeout | spinEnd => exact .of_end [] _ rfl rfl (.inr rfl) rfl
  | dispValue | xmitBw | store | spinPoll => exact .of_silent [] hnone rfl nofun
  | reset | tmrTick | tickOverrun | tickAsync | serIdle | serGlitch | clkCounts | clkWraps | clkFires =>
    exact .of_silent [] hnone rfl nofun
  | tickSkipped => exact .of_silent _ rfl (responses_deassertOut s.prev) nofun
  | tickSync p =>
    refine .of_silent ((if s.sck then [.out .sck false] else []) ++ bitBangOut s.cfg.dispOrder p ++
      presentOut s.cur ++ deassertOut s.prev) (by simp only [List.append_assoc]) ?_ nofun
    rw [responses_append, responses_append, responses_append, responses_sckToIdle, responses_deassertOut]
    rfl
  | serMux =>
    refine .of_silent (presentOut s.cur ++ deassertOut s.prev) (List.append_assoc ..) ?_ nofun
    rw [responses_append, responses_deassertOut]
    rfl
  | serHost => exact .of_silent [.notifyHost] rfl rfl nofun
  | serStep c => exact .of_silent _ rfl (responses_bitTrace c _) nofun

/-- Settles O9, effect by effect. -/
theorem oneResponsePerCommand : Obligations.OneResponsePerCommand :=
  fun _ _ _ h => (exec_effect h).answersOnce

/-! ### The digit shown (10_state.md R25, 41_multiplexer.md R93, R97) -/

/-- A position that shows anything has its line high. -/
theorem State.line_of_shown {s : State} {i : Slot} (h : s.shown i ≠ 0) : s.en.getLsbD i.toNat = true := by
  by_contra hlow
  exact h (if_neg hlow)

theorem State.shown_of_low {s : State} {i : Slot} (h : s.en.getLsbD i.toNat = false) : s.shown i = 0 :=
  if_neg (Bool.eq_false_iff.1 h)

/-- Settles O51: the only line that can be high is the one of `PREV`. -/
theorem atMostOneDigitShown : Obligations.AtMostOneDigitShown := by
  intro s hinv i hi
  have hline := State.line_of_shown hi
  rcases hinv.oneDigit with hen | ⟨p, hprev, hen⟩
  · rw [hen] at hline
    exact absurd (BitVec.getLsbD_zero.symm.trans hline) Bool.false_ne_true
  · rw [hen, getLsbD_enMask, decide_eq_true_iff] at hline
    subst hline
    refine ⟨hprev, fun j hj => State.shown_of_low ?_⟩
    rw [hen, getLsbD_enMask, decide_eq_false hj]

/-- Settles O38, with the mask of a digit bit by bit. -/
theorem enableLinesSetOneBit : Obligations.EnableLinesSetOneBit := by
  intro s i
  refine ⟨rfl, rfl, fun j => ⟨?assert, ?deassert⟩⟩
  case assert =>
    rw [State.enAssert_en, BitVec.getLsbD_or, getLsbD_enMask]
    by_cases hj : j = i <;> simp [hj]
  case deassert =>
    rw [State.enDeassert_en, BitVec.getLsbD_and, BitVec.getLsbD_not, getLsbD_enMask, decide_eq_true j.isLt]
    by_cases hj : j = i <;> simp [hj]

/-! ### Critical sections (20_memory.md R48) -/

theorem Inv.ie_of_critical {s : State} (hinv : Inv s)
    (h : (∃ saved n, s.fg = .spin saved n) ∨
      (s.cfg.atomicUpdate = true ∧ ∃ i b rest saved, s.fg = .writing i b rest saved)) : s.ie = false := by
  rcases h with ⟨saved, n, hfg⟩ | ⟨hatomic, i, b, rest, saved, hfg⟩
  · exact (hinv.spinSection saved n hfg).1
  · exact hinv.atomicSection i b rest saved hfg hatomic

/-- Settles O52: both sections hold `IE = 0`. -/
theorem criticalSectionsHoldInterruptsOff : Obligations.CriticalSectionsHoldInterruptsOff := by
  intro s hinv h
  have hie := hinv.ie_of_critical h
  exact ⟨exec_irqTick_disabled hie, exec_irqSer_disabled hie⟩

/-! ### `RESET` (70_reset_and_hazards.md R180) -/

theorem State.afterReset_values (s : State) : ResetValues s.afterReset := by
  constructor <;> intros <;> rfl

/-- Settles O25. -/
theorem resetGivesResetValues : Obligations.ResetGivesResetValues := by
  refine ⟨?initial, fun s => ⟨_, exec_reset s, State.afterReset_values s, rfl, rfl, rfl⟩⟩
  case initial => constructor <;> intros <;> rfl

/-! ### `FG_STEP` (43_system.md R144) -/

theorem exec_fgStep_spin {s : State} {saved : Bool} {n : Nat} (hfg : s.fg = .spin saved n) :
    ∃ t, exec .fgStep s = .next t ∧ (t.fg = .idle ∨ t.fg = .spin saved (n + 1)) := by
  cases hd : s.done with
  | true => exact ⟨_, exec_fgStep_end hfg hd, .inl rfl⟩
  | false =>
    refine ⟨_, exec_fgStep_poll hfg hd, ?_⟩
    obtain ⟨-, h⟩ | ⟨-, h⟩ := s.spinPoll_cases saved n
    · exact .inr (by rw [h])
    · exact .inl (by rw [h])

/-- Settles O28: the next store, the next poll, and the idle foreground. -/
theorem foregroundStepAlwaysEnabled : Obligations.ForegroundStepAlwaysEnabled := by
  refine ⟨fun s i b rest saved hfg => ?writing, fun s saved n => exec_fgStep_spin, fun s => exec_fgStep_idle⟩
  case writing =>
    have hmem := State.storeStep_mem s i b rest saved
    refine ⟨_, exec_fgStep_writing hfg, ?_, fun j => State.pat_of_writeSlot hmem, ?_, ?_⟩
    · exact (State.pat_of_mem (s := s.writeSlot i b) hmem i).trans (State.pat_writeSlot_same s i b)
    · rintro j c rest' rfl
      rfl
    · rintro rfl
      rfl

/-! ### `IRQ_SER` (42_serial.md R119, 60_exceptions.md R158) -/

theorem State.dispatch_none {s : State} (hk : s.handler = .none) : s.dispatch = s := by
  simp only [State.dispatch, hk]

theorem takeInterrupt_refused {src : IrqSource} (f : State → State) {s : State}
    (h : ¬ (s.ie = true ∧ s.pending src = true ∧ s.halt = false)) :
    takeInterrupt src f s = .refused .eventNotEnabled := by
  have he : (s.ie && s.pending src && !s.halt) = false := by
    refine Bool.eq_false_iff.2 fun he => h ?_
    simpa [and_assoc] using he
  rw [takeInterrupt, he, whenEnabled_false]

/-- The completion of a tick, which is what `MUX` makes of the interrupt. -/
theorem exec_irqSer_mux_next {s : State} (hk : s.handler = .mux) (hie : s.ie = true) (hp : s.serf = true)
    (hh : s.halt = false) : ∃ t, exec .irqSer s = .next t ∧ t.serf = false ∧ t.ie = true ∧
      t.handler = s.handler ∧ t.muxpend = false ∧ t.cur = if s.muxpend = true then s.cur + 1 else s.cur := by
  obtain ⟨t, ht⟩ : ∃ t, exec .irqSer s = .next t := ⟨_, exec_irqSer_taken hie hp hh⟩
  refine ⟨t, ht, ?_⟩
  cases Effect.ofIrqSer ht with
  | answered _ hi => cases hi
  | serIdle _ _ _ hnone =>
    have hm : s.muxpend = false := hnone.elim (fun h => nomatch h.symm.trans hk) And.right
    exact ⟨rfl, rfl, rfl, hm, (if_neg (Bool.eq_false_iff.1 hm)).symm⟩
  | serHost _ _ _ hhost => cases hhost.symm.trans hk
  | serMux _ _ _ _ hm => exact ⟨rfl, rfl, rfl, rfl, (if_pos hm).symm⟩

/-- Settles O32: the three targets, and the guard. -/
theorem completionGoesToRegisteredTarget : Obligations.CompletionGoesToRegisteredTarget := by
  intro s
  refine ⟨fun hie hp hh => ?taken, takeInterrupt_refused (src := .ser) _⟩
  case taken =>
    cases hk : s.handler with
    | none =>
      refine ⟨{ s with serf := false }, takeInterrupt_of_body hie hp hh hie (State.dispatch_none hk), rfl, hie, hk,
        fun _ => by rw [hk], nofun, nofun⟩
    | host =>
      refine ⟨{ s with serf := false, out := s.out ++ [.notifyHost] },
        takeInterrupt_of_body hie hp hh hie (State.dispatch_host hk), rfl, hie, hk, nofun, nofun,
        fun _ => by rw [hk]⟩
    | mux =>
      obtain ⟨t, ht, hserf, htie, hhandler, hpend, hcur⟩ := exec_irqSer_mux_next hk hie hp hh
      exact ⟨t, ht, hserf, htie, hhandler.trans hk, nofun, fun _ => ⟨hpend, hcur⟩, nofun⟩

end Sys2Proof.Machine

/-!
PROOF. The torn frame (20_memory.md R47), the decimal point (40_encoder.md R85), and what a transfer leaves: one bit
of it (42_serial.md R117, R124), the byte it shows (R126) and the byte it receives (R123).
-/

namespace Sys2Proof.Machine

/-! ### The decimal point (40_encoder.md R85) -/

theorem segTable_point (c : Config) (d : Fin 10) : (segTable c d).getLsbD 0 = false := by
  rw [segTable, BitVec.getLsbD_append]
  rfl

theorem encodeSlot_point_iff (c : Config) (scaled decimals i : Nat) :
    (encodeSlot c scaled decimals i).getLsbD 0 = true ↔ (i = decimals ∧ decimals ≠ 0) := by
  rw [encodeSlot_eq, BitVec.getLsbD_or, segTable_point, Bool.false_or]
  split
  · next h => exact iff_of_true rfl h
  · next h => exact iff_of_false Bool.false_ne_true h

theorem encodeSlot_table (c : Config) (scaled decimals i : Nat) :
    ∃ d, encodeSlot c scaled decimals i = segTable c d ∨ encodeSlot c scaled decimals i = segTable c d ||| 0x01 := by
  refine ⟨digit scaled i, ?_⟩
  rw [encodeSlot]
  split
  · exact .inr rfl
  · exact .inl rfl

/-- Settles O12, slot by slot. -/
theorem decimalPointOnOneSlot : Obligations.DecimalPointOnOneSlot := by
  intro c scaled decimals _ i
  rw [encodeDigits_getElem]
  exact ⟨encodeSlot_table c scaled decimals i, encodeSlot_point_iff c scaled decimals i⟩

/-! ### The torn frame (20_memory.md R47) -/

/-- The foreground with the stores of a list still to make. -/
def Fg.storing (saved : Bool) : List (Slot × Byte) → Fg
  | [] => .idle
  | (i, b) :: rest => .writing i b rest saved

theorem Fg.storing_ne_idle {saved : Bool} {l : List (Slot × Byte)} (h : l ≠ []) : Fg.storing saved l ≠ .idle := by
  cases l with
  | nil => exact absurd rfl h
  | cons x l => exact nofun

theorem exec_fgStep_storing {saved : Bool} {x : Slot × Byte} {l : List (Slot × Byte)} {s : State}
    (h : s.fg = .storing saved (x :: l)) (hl : l ≠ []) :
    exec .fgStep s = .next { s.writeSlot x.1 x.2 with fg := .storing saved l } := by
  rw [exec_fgStep_writing h]
  cases l with
  | nil => exact absurd rfl hl
  | cons y l => rfl

/-- Fewer micro-steps than there are stores make the first ones and leave the others to come. -/
theorem runAll_fgSteps_storing {saved : Bool} {k : Nat} {l : List (Slot × Byte)} {s : State}
    (h : s.fg = .storing saved l) (hk : k < l.length) : runAll (List.replicate k .fgStep) s =
      .next { s.writeSlots (l.take k) with fg := .storing saved (l.drop k) } := by
  induction k generalizing l s with
  | zero => rw [List.take_zero, List.drop_zero, ← h]; rfl
  | succ k ih =>
    cases l with
    | nil => cases hk
    | cons x l =>
      have hk : k < l.length := Nat.lt_of_succ_lt_succ hk
      rw [List.replicate_succ, runAll, exec_fgStep_storing h (List.ne_nil_of_length_pos (Nat.zero_lt_of_lt hk))]
      refine (ih rfl hk).trans ?_
      rw [State.writeSlots_setFg]
      rfl

/-- The store of slot `i`. -/
def displayStore (e : Vector Byte 4) (i : Fin 4) : Slot × Byte := (BitVec.ofFin i, e[i])

theorem displayStores_eq_map (e : Vector Byte 4) : displayStores e = (List.finRange 4).map (displayStore e) := rfl

theorem mem_take_finRange : ∀ k i : Fin 4, i ∈ (List.finRange 4).take k ↔ i.val < k.val := by
  decide

/-- The first `k` stores make the slots below `k` new and no other. -/
theorem State.pat_writeSlots_take (s : State) (e : Vector Byte 4) (k i : Fin 4) :
    (s.writeSlots ((displayStores e).take k)).pat (BitVec.ofFin i) =
      if i.val < k.val then some e[i] else s.pat (BitVec.ofFin i) := by
  have hnodup : (((displayStores e).take k).map Prod.fst).Nodup :=
    (displayStores_nodup e).sublist ((List.take_sublist _ _).map _)
  rw [displayStores_eq_map, ← List.map_take] at hnodup ⊢
  split
  · next hi =>
    exact State.pat_writeSlots_of_mem s hnodup (List.mem_map.2 ⟨i, (mem_take_finRange k i).2 hi, rfl⟩)
  · next hi =>
    refine State.pat_writeSlots_other s fun hmem => hi ?_
    rw [List.map_map, List.mem_map] at hmem
    obtain ⟨i', hi', heq⟩ := hmem
    obtain rfl : i' = i := BitVec.ofFin.inj heq
    exact (mem_take_finRange k i').1 hi'

/-- An accepted `DISP_VALUE` with `k` of its four micro-steps. -/
theorem runAll_dispValue_partial {s : State} {n : BitVec 3} {k : Nat} (v : Nat) (hfg : s.fg = .idle)
    (hh : s.halt = false) (hn : n.toNat ≤ 4) (hk : k < 4) :
    runAll (.dispValue n v :: List.replicate k .fgStep) s = .next {
      (s.beginWriting (encodeDigits s.cfg v n.toNat)).writeSlots
        ((displayStores (encodeDigits s.cfg v n.toNat)).take k) with
      fg := .storing s.ie ((displayStores (encodeDigits s.cfg v n.toNat)).drop k) } := by
  rw [runAll, exec_dispValue_accepted v hfg hh (decimalsOperand_of_le _ hn)]
  exact runAll_fgSteps_storing (l := displayStores (encodeDigits s.cfg v n.toNat)) rfl hk

/-- Settles O14: the stores made so far are the first `k` of the four. -/
theorem tornFrameAfterSomeStores : Obligations.TornFrameAfterSomeStores := by
  intro s n v k hfg hh hn hk
  refine ⟨_, runAll_dispValue_partial v hfg hh hn hk, ?busy, ?out, fun i => ?slots⟩
  case busy => exact Fg.storing_ne_idle (List.ne_nil_of_length_pos (List.length_drop ▸ Nat.sub_pos_of_lt hk))
  case out => rw [State.writeSlots_frame]; rfl
  case slots => exact State.pat_writeSlots_take _ _ ⟨k, hk⟩ i

/-! ### One bit (42_serial.md R117, R124) -/

/-- The sample comes in at the right end and the other bits move one place. -/
theorem getLsbD_rxAfter (order : BitOrder) (rx : Byte) (sdi : Bool) {k : Nat} (hk : k < 8) :
    (rxAfter order rx sdi).getLsbD k = match order with
      | .msb => if k = 0 then sdi else rx.getLsbD (k - 1)
      | .lsb => if k = 7 then sdi else rx.getLsbD (k + 1) := by
  cases order with
  | msb => rw [rxAfter, getLsbD_shiftUp, decide_eq_true hk, Bool.true_and]
  | lsb => exact getLsbD_shiftDown rx sdi k hk

/-- `shiftBit_closed` for a unit that is busy: before the eighth bit only the count goes on, and the eighth ends the
transfer. -/
theorem State.shiftBit_busy {s : State} (c : SerCfg) (sdi : Bool) (hb : s.busy = true) : s.shiftBit c sdi = { s with
      sdo := nextBit c.order s.txsr
      sck := c.cpol
      txsr := txAfter c.order s.txsr
      rxsr := (s.shiftBit c sdi).rxsr
      bitcnt := if s.bitcnt = 7 then 0 else s.bitcnt + 1
      busy := decide (s.bitcnt ≠ 7)
      done := s.done || decide (s.bitcnt = 7)
      rxb := if s.bitcnt = 7 then (s.shiftBit c sdi).rxsr else s.rxb
      serf := s.serf || decide (s.bitcnt = 7 ∧ s.xmode = .irq)
      srs := (s.shiftBit c sdi).srs
      draws := (s.shiftBit c sdi).draws
      out := s.out ++ bitTraceOut c (nextBit c.order s.txsr) } := by
  rw [shiftBit_closed]
  simp [hb, Bool.or_comm]

/-- Settles O34, for the two bit orders. -/
theorem serStepShiftsOneBit : Obligations.SerStepShiftsOneBit := by
  intro s c sdi hb hc
  refine ⟨_, exec_serStep_configured sdi hb hc, ?state, fun k hk => ?bits⟩
  case state =>
    refine (State.shiftBit_busy c sdi hb).trans ?_
    cases ho : c.order <;> rfl
  case bits =>
    rw [State.shiftBit_rxsr]
    exact getLsbD_rxAfter _ _ _ hk

theorem State.shiftBit_srs (s : State) (c : SerCfg) (sdi : Bool) : (s.shiftBit c sdi).srs =
    if c.cpol = true ∨ s.sck = false then
      shiftUp s.srs (if !c.cpol && c.cpha then Config.freeBit s.draws else nextBit c.order s.txsr)
    else s.srs := by
  rw [shiftBit_closed]
  simp only [Bool.or_eq_true, Bool.not_eq_true']

/-- Settles O36: the closed forms of a driven edge and of a bit step; only in mode (0,1) the bit taken is a draw. -/
theorem registerShiftsOnRisingClock : Obligations.RegisterShiftsOnRisingClock := by
  refine ⟨fun s v => ?driven, fun s c sdi hb hc => ?bit⟩
  case driven => rw [State.driveSck_eq]; rfl
  case bit =>
    refine ⟨_, _, exec_serStep_configured sdi hb hc, fun hmode => ?_, State.shiftBit_srs s c sdi⟩
    rw [State.shiftBit_sdo, if_neg]
    simpa using hmode

/-! ### The byte shown (42_serial.md R126) -/

theorem State.latchPulse_seg {s : State} (hl : s.latch = false) :
    s.latchPulse.seg = latched s.cfg.dispOrder s.srs := by
  rw [State.latchPulse_eq s hl]

theorem State.bbXmit_latched (s : State) (b : Byte) (hl : s.latch = false) : ((s.bbXmit b).latchPulse).seg = b := by
  rw [State.bbXmit_eq, foldl_shiftUp_bitsOut]
  refine (State.latchPulse_seg ?_).trans (latched_latched _ _)
  exact hl

/-- The eight bit steps of a transfer in `order` from an idle low clock: the unit is done, and the shift stage holds the
byte as that order sends it; of the rest only what a bit step writes has changed. -/
theorem runAll_serSteps_display {s : State} {order : BitOrder} {samples : List Bool} (hlen : samples.length = 8)
    (hb : s.busy = true) (hn : s.bitcnt = 0) (hs : s.sck = false)
    (hc : s.sercfg = some ⟨.controller, order, false, false⟩) :
    ∃ sdo draws out tx rx, runAll (samples.map .serStep) s = .next { s with
      sck := false, sdo := sdo, srs := latched order s.txsr, draws := draws, out := out, txsr := tx, rxsr := rx
      bitcnt := 0, busy := false, done := true, rxb := samples.foldl (rxAfter order) s.rxsr
      serf := s.serf || s.xmode == .irq } := by
  have hcount : s.bitcnt.toNat + samples.length = 8 := by rw [hn, hlen]; rfl
  have hne : samples ≠ [] := List.ne_nil_of_length_pos (by omega)
  obtain ⟨t, ht, hstate, -, hlines⟩ := runAll_serSteps _ samples s hb hc hcount hne
  obtain ⟨hsrs, -⟩ := hlines rfl hs
  rw [hlen, sentBits_eight, foldl_shiftUp_bitsOut] at hsrs
  rw [hsrs] at hstate
  exact ⟨t.sdo, t.draws, t.out, t.txsr, t.rxsr, ht.trans (congrArg _ hstate)⟩

/-- Settles O39: eight bits in the display's order replace the shift stage, whoever sends them. -/
theorem linkShowsSentByte : Obligations.LinkShowsSentByte := by
  refine ⟨State.bbXmit_latched, fun s samples hlen hb hn hs hl hc => ?transfer⟩
  case transfer =>
    obtain ⟨sdo, draws, out, tx, rx, hrun⟩ := runAll_serSteps_display hlen hb hn hs hc
    refine ⟨_, hrun, ?_⟩
    refine (State.latchPulse_seg ?_).trans (latched_latched _ _)
    exact hl

/-! ### The byte received (42_serial.md R123) -/

/-- From the issue step on: the bit steps, and the poll that finds `DONE = 1`. -/
theorem runAll_busyWait {s : State} {c : SerCfg} {saved : Bool} {n : Nat} {samples : List Bool}
    (hfg : s.fg = .spin saved n) (hb : s.busy = true) (hc : s.sercfg = some c) (hn : s.bitcnt = 0)
    (hrx : s.rxsr = 0) (hx : s.xmode = .bw) (hlen : samples.length = 8) :
    ∃ t, runAll (samples.map .serStep ++ [.fgStep]) s = .next t ∧
      t.fg = .idle ∧ t.ie = saved ∧ t.busy = false ∧ t.done = false ∧ t.serf = s.serf ∧
      ∃ traced, responses traced = [] ∧
        t.out = s.out ++ traced ++ [.response (0x00#8 ++ assembled c.order samples)] := by
  have hcount : s.bitcnt.toNat + samples.length = 8 := by rw [hn, hlen]; rfl
  have hne : samples ≠ [] := List.ne_nil_of_length_pos (by omega)
  obtain ⟨u, hu, hstate, ⟨traced, hsilent, hout⟩, -⟩ := runAll_serSteps c samples s hb hc hcount hne
  have hufg : u.fg = .spin saved n := by rw [hstate]; exact hfg
  have hudone : u.done = true := by rw [hstate]
  have hubusy : u.busy = false := by rw [hstate]
  have huserf : u.serf = s.serf := by rw [hstate, hx]; exact Bool.or_false _
  have hurxb : u.rxb = assembled c.order samples := by rw [hstate, hrx]; rfl
  refine ⟨u.spinEnd saved, ?run, rfl, rfl, hubusy, rfl, huserf, traced, hsilent, ?out⟩
  case run =>
    rw [runAll_append _ _ _ _ hu, runAll, exec_fgStep_end hufg hudone]
    rfl
  case out =>
    rw [← hout, ← hurxb]
    rfl

/-- Settles O41: the issue step enters the busy-wait with `IE` saved, and its end restores it. -/
theorem busyWaitIsFullDuplex : Obligations.BusyWaitIsFullDuplex := by
  intro s c b samples hlen hfg hh hc hb
  have hissue := (exec_serXmitBw s b).trans (acceptTransmit_ready hfg hh (hc ▸ nofun) hb)
  rw [runAll, hissue]
  exact runAll_busyWait rfl rfl hc rfl rfl rfl hlen

end Sys2Proof.Machine

/-!
PROOF. Runs (70_reset_and_hazards.md R183, R184, R187, 41_multiplexer.md R94 to R96, 42_serial.md R114, R117). A premise on
a run is followed step by step beside the state; what one step does to both is said once, from the effects.
-/

namespace Sys2Proof.Machine

/-! ### One step of a run -/

theorem runAll_cons {i : Instr} {is : List Instr} {s u : State} (h : exec i s = .next u) :
    runAll (i :: is) s = runAll is u := by
  simp only [runAll, h]

/-- A run that completes makes its first step. -/
theorem runAll_cons_next {i : Instr} {is : List Instr} {s t : State} (h : runAll (i :: is) s = .next t) :
    ∃ u, exec i s = .next u ∧ runAll is u = .next t := by
  rw [runAll] at h
  split at h
  · next u hu => exact ⟨u, hu, h⟩
  · cases h
  · cases h

/-- Every operation of a run that completes is a step somewhere, in the same configuration. -/
theorem exec_of_mem_run {i : Instr} {is : List Instr} {s t : State} (h : runAll is s = .next t) (hi : i ∈ is) :
    ∃ u v, exec i u = .next v ∧ u.cfg = s.cfg := by
  induction is generalizing s with
  | nil => cases hi
  | cons j is ih =>
    obtain ⟨u, hu, hrest⟩ := runAll_cons_next h
    rcases List.mem_cons.1 hi with rfl | hi
    · exact ⟨s, u, hu, rfl⟩
    · obtain ⟨v, w, hvw, hcfg⟩ := ih hrest hi
      exact ⟨v, w, hvw, hcfg.trans (parametersNeverChange j s u hu)⟩

theorem runAll_keeps_inv {is : List Instr} {s t : State} (hinv : Inv s) (h : runAll is s = .next t) : Inv t := by
  induction is generalizing s with
  | nil => cases h; exact hinv
  | cons i is ih =>
    obtain ⟨u, hu, hrest⟩ := runAll_cons_next h
    exact ih (exec_keeps_inv hinv hu) hrest

/-! ### One tick source (30_encoding.md R68) -/

theorem tickSource_of_clk {s t : State} (h : exec .clk s = .next t) : s.cfg.tickSource = .clock := by
  rw [exec_clk] at h
  exact (State.ticksFrom_iff.1 (whenEnabled_next h).1).2

theorem tickSource_of_tmrTick {s t : State} (h : exec .tmrTick s = .next t) : s.cfg.tickSource = .event := by
  rw [exec_tmrTick] at h
  exact (State.ticksFrom_iff.1 (whenEnabled_next h).1).2

/-- Settles O59: an event in a completed run was a step, so the model takes its ticks from it. -/
theorem runsUseOneTickSource : Obligations.RunsUseOneTickSource := by
  intro is s t h
  have hclk : s.cfg.tickSource = .event → .clk ∉ is := fun hsrc hmem => by
    obtain ⟨u, v, huv, hcfg⟩ := exec_of_mem_run h hmem
    cases hsrc.symm.trans (hcfg ▸ tickSource_of_clk huv)
  have htick : s.cfg.tickSource = .clock → .tmrTick ∉ is := fun hsrc hmem => by
    obtain ⟨u, v, huv, hcfg⟩ := exec_of_mem_run h hmem
    cases hsrc.symm.trans (hcfg ▸ tickSource_of_tmrTick huv)
  refine ⟨hclk, htick, ?_⟩
  cases hsrc : s.cfg.tickSource with
  | event => simp [oneTickSource, hclk hsrc]
  | clock => simp [oneTickSource, htick hsrc]

/-! ### Served ticks (70_reset_and_hazards.md R183) -/

theorem ticksServed_command {waiting : Bool} {i : Instr} {is : List Instr} (hi : i.isCommand = true)
    (h : ticksServed waiting (i :: is) = true) : ticksServed waiting is = true := by
  cases i with
  | reset | tmrTick | irqTick | serStep | irqSer | serGlitch | clk | fgStep => cases hi
  | _ => exact h

/-- `TICKF` is what the premise calls a tick that waits, so a tick that fires finds none pending. -/
theorem Effect.keeps_ticksServed {i : Instr} {is : List Instr} {s t : State} (he : Effect s i t)
    (hserved : ticksServed s.tickf (i :: is) = true) (hsrc : s.cfg.tickSource = .event)
    (hlost : s.fltTickLost = false) : ticksServed t.tickf is = true ∧ t.fltTickLost = false := by
  cases he with
  | answered _ hi => exact ⟨ticksServed_command hi hserved, hlost⟩
  | tmrTick =>
    obtain ⟨hwait, hrest⟩ := Bool.and_eq_true_iff.1 hserved
    have hnone : s.tickf = false := by simpa using hwait
    exact ⟨hrest, Bool.or_eq_false_iff.2 ⟨hlost, hnone⟩⟩
  | clkCounts _ hclk | clkWraps _ hclk | clkFires _ hclk => cases hclk.symm.trans hsrc
  | reset => exact ⟨hserved, rfl⟩
  | _ => exact ⟨hserved, hlost⟩

/-- Settles O56, along the run. -/
theorem servedTicksAreNotLost : Obligations.ServedTicksAreNotLost := by
  intro is
  induction is with
  | nil =>
    intro s t _ _ hlost h
    cases h
    exact hlost
  | cons i is ih =>
    intro s t hserved hsrc hlost h
    obtain ⟨u, hu, hrest⟩ := runAll_cons_next h
    obtain ⟨hserved, hlost⟩ := (exec_effect hu).keeps_ticksServed hserved hsrc hlost
    exact ih u t hserved ((congrArg Config.tickSource (parametersNeverChange i s u hu)).trans hsrc) hlost hrest

/-! ### Finished transfers (70_reset_and_hazards.md R184) -/

/-- What the premise of R184 says is owed, in the terms of the state: nothing is in flight, or so many bits of the
display's transfer are, or only its completion. -/
inductive Owes (s : State) : Option Nat → Prop where
  | nothing (hb : s.busy = false) (hm : s.muxpend = false) : Owes s none
  | bits (n : Nat) (hk : s.handler = .mux) (hb : s.busy = true) (hn : s.bitcnt.toNat + (n + 1) = 8) :
      Owes s (some (n + 1))
  | delivery (hk : s.handler = .mux) (hb : s.busy = false) : Owes s (some 0)

theorem Owes.congr {s t : State} {owed : Option Nat} (h : Owes s owed) (hb : t.busy = s.busy)
    (hm : t.muxpend = s.muxpend) (hk : t.handler = s.handler) (hn : t.bitcnt = s.bitcnt) : Owes t owed := by
  cases h with
  | nothing hb' hm' => exact .nothing (hb.trans hb') (hm.trans hm')
  | bits n hk' hb' hn' => exact .bits n (hk.trans hk') (hb.trans hb') (hn ▸ hn')
  | delivery hk' hb' => exact .delivery (hk.trans hk') (hb.trans hb')

/-- What is owed after one more step, as `transfersFinish` counts it. -/
def owedAfter (owed : Option Nat) (s : State) : Instr → Option Nat
  | .irqTick => if s.startsTransfer then some 8 else none
  | .serStep _ => owed.map (· - 1)
  | .irqSer => if owed = some 0 then none else owed
  | .reset => none
  | _ => owed

theorem transfersFinish_cons {owed : Option Nat} {s u : State} {i : Instr} {is : List Instr}
    (hu : exec i s = .next u) (h : transfersFinish owed s (i :: is) = true) :
    transfersFinish (owedAfter owed s i) u is = true ∧ (i = .irqTick → owed = none) := by
  rw [transfersFinish, hu] at h
  cases i with
  | irqTick =>
    obtain ⟨hnone, hrest⟩ := Bool.and_eq_true_iff.1 h
    exact ⟨hrest, fun _ => Option.isNone_iff_eq_none.1 hnone⟩
  | _ => exact ⟨h, nofun⟩

theorem owedAfter_command (owed : Option Nat) (s : State) {i : Instr} (hi : i.isCommand = true) :
    owedAfter owed s i = owed := by
  cases i with
  | reset | tmrTick | irqTick | serStep | irqSer | serGlitch | clk | fgStep => cases hi
  | _ => rfl

theorem State.startsTransfer_none {s : State} (hs : s.pat s.cur = none) : s.startsTransfer = false := by
  rw [State.startsTransfer, hs]
  exact Bool.and_false _

theorem State.startsTransfer_sync {s : State} (hv : s.cfg.variant = .sync) : s.startsTransfer = false := by
  rw [State.startsTransfer, hv]
  rfl

theorem State.startsTransfer_async {s : State} {p : Byte} (hv : s.cfg.variant = .async) (hb : s.busy = false)
    (hm : s.muxpend = false) (hs : s.pat s.cur = some p) : s.startsTransfer = true := by
  rw [State.startsTransfer, hv, hb, hm, hs]
  rfl

/-- One bit less is owed; the eighth bit, and no earlier one, ends the transfer. -/
theorem Owes.serStep {s t : State} {owed : Option Nat} {sdi : Bool} (ho : Owes s owed)
    (h : exec (.serStep sdi) s = .next t) : Owes t (owed.map (· - 1)) := by
  cases Effect.ofSerStep h with
  | answered _ hi => cases hi
  | serStep c _ hb =>
    cases ho with
    | nothing hidle => cases hb.symm.trans hidle
    | delivery _ hidle => cases hb.symm.trans hidle
    | bits n hk _ hn =>
      cases n with
      | zero =>
        have hlast : s.lastBit = true := beq_iff_eq.2 (by bv_omega)
        exact .delivery hk (by simp [hlast])
      | succ n =>
        have hlast : s.lastBit = false := beq_false_of_ne (by bv_omega)
        exact .bits n hk (by simp [hlast, hb]) (by simp only [hlast, Bool.false_eq_true, if_false]; bv_omega)

/-- A completion finishes the multiplexer's tick, and the transfer when its bits are all shifted. -/
theorem Owes.irqSer {s t : State} {owed : Option Nat} (ho : Owes s owed) (h : exec .irqSer s = .next t) :
    Owes t (if owed = some 0 then none else owed) := by
  cases Effect.ofIrqSer h with
  | answered _ hi => cases hi
  | serIdle _ _ _ hk =>
    cases ho with
    | nothing hb hm => exact .nothing hb hm
    | bits n hmux hb hn => exact .bits n hmux hb hn
    | delivery hmux hb =>
      exact .nothing hb (hk.elim (fun hnone => nomatch hnone.symm.trans hmux) And.right)
  | serHost _ _ _ hk =>
    cases ho with
    | nothing hb hm => exact .nothing hb hm
    | bits _ hmux | delivery hmux => cases hk.symm.trans hmux
  | serMux =>
    cases ho with
    | nothing hb | delivery _ hb => exact .nothing hb rfl
    | bits n hmux hb hn => exact .bits n hmux hb hn

/-- With nothing owed a tick finds nothing in flight, so it does not overrun, and it starts what the premise counts. -/
theorem Owes.irqTick {s t : State} (ho : Owes s none) (hover : s.fltMuxOvr = false) (h : exec .irqTick s = .next t) :
    Owes t (if s.startsTransfer then some 8 else none) ∧ t.fltMuxOvr = false := by
  obtain ⟨hb, hm⟩ : s.busy = false ∧ s.muxpend = false := by cases ho; exact ⟨‹_›, ‹_›⟩
  cases Effect.ofIrqTick h with
  | answered _ hi => cases hi
  | tickOverrun _ _ _ hflight =>
    rcases hflight with hbusy | ⟨-, hpend⟩
    · cases hb.symm.trans hbusy
    · cases hm.symm.trans hpend
  | tickSkipped _ _ _ _ _ hs =>
    rw [State.startsTransfer_none hs]
    exact ⟨.nothing hb hm, hover⟩
  | tickSync _ _ _ _ _ hv =>
    rw [State.startsTransfer_sync hv]
    exact ⟨.nothing hb hm, hover⟩
  | tickAsync _ _ _ _ _ _ hv hs =>
    rw [State.startsTransfer_async hv hb hm hs]
    exact ⟨.bits 7 rfl rfl rfl, hover⟩

/-- One step of a run as R184 has it: no transmit command and no `SER_SET_HANDLER`, and no tick while something is
owed. -/
theorem Owes.step {s t : State} {owed : Option Nat} {i : Instr} (ho : Owes s owed) (hover : s.fltMuxOvr = false)
    (h : exec i s = .next t) (hbw : ∀ b, i ≠ .serXmitBw b) (hirq : ∀ b, i ≠ .serXmitIrq b)
    (hset : ∀ k, i ≠ .serSetHandler k) (htick : i = .irqTick → owed = none) :
    Owes t (owedAfter owed s i) ∧ t.fltMuxOvr = false := by
  cases exec_effect h with
  | answered _ hi =>
    rw [owedAfter_command owed s hi]
    exact ⟨ho.congr rfl rfl rfl rfl, hover⟩
  | xmitBw b => exact absurd rfl (hbw b)
  | xmitIrq b => exact absurd rfl (hirq b)
  | setHandler k => exact absurd rfl (hset k)
  | tickOverrun | tickSkipped | tickSync | tickAsync =>
    obtain rfl := htick rfl
    exact ho.irqTick hover h
  | serStep => exact ⟨ho.serStep h, hover⟩
  | serIdle | serHost | serMux => exact ⟨ho.irqSer h, hover⟩
  | reset => exact ⟨.nothing rfl rfl, rfl⟩
  | _ => exact ⟨ho.congr rfl rfl rfl rfl, hover⟩

/-- `FLT_MUXOVR` stays 0 along a run that pays what it owes. -/
theorem fltMuxOvr_of_transfersFinish {is : List Instr} {s t : State} {owed : Option Nat} (ho : Owes s owed)
    (hover : s.fltMuxOvr = false) (hx : ∀ b, .serXmitBw b ∉ is ∧ .serXmitIrq b ∉ is)
    (hset : ∀ k, .serSetHandler k ∉ is) (hfinish : transfersFinish owed s is = true)
    (h : runAll is s = .next t) : t.fltMuxOvr = false := by
  induction is generalizing s owed with
  | nil => cases h; exact hover
  | cons i is ih =>
    obtain ⟨u, hu, hrest⟩ := runAll_cons_next h
    obtain ⟨hfinish, htick⟩ := transfersFinish_cons hu hfinish
    obtain ⟨ho, hover⟩ := ho.step hover hu (fun b hi => (hx b).1 (hi ▸ List.mem_cons_self))
      (fun b hi => (hx b).2 (hi ▸ List.mem_cons_self)) (fun k hi => hset k (hi ▸ List.mem_cons_self)) htick
    exact ih ho hover (fun b => ⟨fun hi => (hx b).1 (List.mem_cons_of_mem i hi),
      fun hi => (hx b).2 (List.mem_cons_of_mem i hi)⟩) (fun k hi => hset k (List.mem_cons_of_mem i hi)) hfinish hrest

/-- Settles O57: an idle unit with nothing pending owes nothing. -/
theorem finishedTransfersDoNotOverrun : Obligations.FinishedTransfersDoNotOverrun := by
  intro is s t _ hb hm hover hx hset hfinish h
  exact fltMuxOvr_of_transfersFinish (.nothing hb hm) hover hx hset hfinish h

/-! ### Ticks in a row (41_multiplexer.md R96) -/

/-- A model of the `SYNC` variant with free ticks in which the next tick will be shown. -/
structure SyncReady (s : State) : Prop where
  inv : Inv s
  sync : s.cfg.variant = .sync
  free : s.cfg.tickSource = .event
  tickEn : s.tickEn = true
  ie : s.ie = true
  notPending : s.tickf = false
  running : s.halt = false
  idle : s.busy = false

/-- A serviced tick of the `SYNC` variant, whether or not the slot is valid. -/
theorem exec_irqTick_sync_idle {s : State} (hv : s.cfg.variant = .sync) (hie : s.ie = true) (ht : s.tickf = true)
    (hh : s.halt = false) (hb : s.busy = false) : ∃ t, exec .irqTick s = .next t ∧
      t = { s with
        tickf := false, ie := true, sck := t.sck, sdo := t.sdo, srs := t.srs, latch := t.latch, seg := t.seg, en := t.en
        out := t.out, prev := some s.cur, cur := s.cur + 1 } := by
  obtain ⟨t, hstep⟩ : ∃ t, exec .irqTick s = .next t := ⟨_, exec_irqTick_taken hie ht hh⟩
  refine ⟨t, hstep, ?_⟩
  cases Effect.ofIrqTick hstep with
  | answered _ hi => cases hi
  | tickOverrun _ _ _ hflight =>
    rcases hflight with hbusy | ⟨hasync, -⟩
    · cases hb.symm.trans hbusy
    · cases hv.symm.trans hasync
  | tickSkipped | tickSync => rfl
  | tickAsync _ _ _ _ _ _ hasync => cases hv.symm.trans hasync

theorem exec_tmrTick_first {s : State} (hen : s.tickEn = true) (hsrc : s.cfg.tickSource = .event)
    (ht : s.tickf = false) : exec .tmrTick s = .next { s with tickf := true } := by
  rw [exec_tmrTick_enabled hen hsrc, State.timerFires_notPending ht]

/-- One tick, fired and serviced. -/
theorem SyncReady.tick {s : State} (h : SyncReady s) : ∃ t, runAll [.tmrTick, .irqTick] s = .next t ∧ SyncReady t ∧
    t.cur = s.cur + 1 ∧ t.prev = some s.cur ∧ t.mem = s.mem ∧ t.fltTickLost = s.fltTickLost := by
  have hfire := exec_tmrTick_first h.tickEn h.free h.notPending
  obtain ⟨t, hserve, hstate⟩ := exec_irqTick_sync_idle (s := { s with tickf := true }) h.sync h.ie rfl h.running h.idle
  have hinv : Inv t := exec_keeps_inv (exec_keeps_inv h.inv hfire) hserve
  refine ⟨t, by rw [runAll_cons hfire, runAll_cons hserve, runAll], ?_⟩
  rw [hstate] at hinv ⊢
  exact ⟨⟨hinv, h.sync, h.free, h.tickEn, rfl, rfl, h.running, h.idle⟩, rfl, rfl, rfl, rfl⟩

theorem SyncReady.ticks {s : State} (h : SyncReady s) (k : Nat) :
    ∃ t, runAll (List.flatten (List.replicate k [.tmrTick, .irqTick])) s = .next t ∧ SyncReady t ∧
      t.cur = s.cur + BitVec.ofNat 2 k ∧ (0 < k → t.prev = some (t.cur + 3)) ∧ t.mem = s.mem ∧
      t.fltTickLost = s.fltTickLost := by
  induction k with
  | zero => exact ⟨s, rfl, h, (BitVec.add_zero _).symm, nofun, rfl, rfl⟩
  | succ k ih =>
    obtain ⟨u, hu, hready, hcur, -, hmem, hlost⟩ := ih
    obtain ⟨t, ht, hready', hcur', hprev', hmem', hlost'⟩ := hready.tick
    refine ⟨t, ?_, hready', ?_, fun _ => ?_, hmem'.trans hmem, hlost'.trans hlost⟩
    · rw [List.replicate_succ', List.flatten_append, runAll_append _ _ _ _ hu]
      exact ht
    · rw [hcur', hcur]; bv_omega
    · rw [hprev', hcur']; congr 1; bv_omega

/-- Settles O53: by induction on the number of ticks. -/
theorem syncTicksGoRoundRobin : Obligations.SyncTicksGoRoundRobin := by
  intro s k hinv hv hsrc hen hie ht hh hb
  obtain ⟨t, hrun, hready, hcur, hprev, hmem, hlost⟩ := SyncReady.ticks ⟨hinv, hv, hsrc, hen, hie, ht, hh, hb⟩ k
  exact ⟨t, hrun, hcur, hprev, State.pat_of_mem hmem, hlost, hready.running⟩

/-! ### A display transfer (41_multiplexer.md R94, R95) -/

/-- The digit `CUR` shows what `SEG` holds when its line is high. -/
theorem State.shown_enMask {s : State} {i : Slot} (h : s.en = enMask i) : s.shown i = s.seg := by
  rw [State.shown, h, getLsbD_enMask, decide_eq_true rfl, if_pos rfl]

/-- `MuxDone` with the sent byte in the shift stage shows it on `CUR`'s digit alone. -/
theorem exec_irqSer_presents {s : State} {p : Byte} (hinv : Inv s) (hie : s.ie = true) (hserf : s.serf = true)
    (hh : s.halt = false) (hk : s.handler = .mux) (hm : s.muxpend = true) (hsrs : s.srs = latched s.cfg.dispOrder p) :
    ∃ t, exec .irqSer s = .next t ∧ t.seg = p ∧ t.en = enMask s.cur ∧ t.prev = some s.cur ∧ t.cur = s.cur + 1 ∧
      t.muxpend = false ∧ t.busy = s.busy ∧ t.halt = s.halt ∧ t.mem = s.mem := by
  refine ⟨_, (muxDoneFinishesTick s hie hserf hh hk hinv.latchLow).1 hm, ?seg,
    enWithout_present hinv.prevBehind hinv.oneDigit, rfl, rfl, rfl, rfl, rfl, rfl⟩
  case seg => rw [hsrs]; exact latched_latched _ p

/-- Settles O54: the tick starts the transfer, its bits put the byte in the shift stage, and the completion latches
it. -/
theorem asyncTickShowsDigit : Obligations.AsyncTickShowsDigit := by
  intro s p samples hinv hlen hv hie ht hh hb hm hs hp hc
  have htick := (asyncTickStartsTransfer s hv hie ht hh).2.2 p hb hm hp
  have hinv' := exec_keeps_inv hinv htick
  obtain ⟨sdo, draws, out, tx, rx, hbits⟩ := runAll_serSteps_display hlen rfl rfl hs hc (s := { s with
    tickf := false, handler := .mux, muxpend := true
    txsr := p, rxsr := 0x00, bitcnt := 0, busy := true, done := false, xmode := .irq })
  obtain ⟨t, hfinish, hseg, hen, hprev, hcur, hpend, hbusy, hhalt, hmem⟩ :=
    exec_irqSer_presents (p := p) (runAll_keeps_inv hinv' hbits) hie (Bool.or_true _) hh rfl rfl rfl
  have hrun := (runAll_cons htick).trans ((runAll_append _ [.irqSer] _ _ hbits).trans (runAll_cons hfinish))
  exact ⟨t, hrun, hseg, hen, (State.shown_enMask hen).trans hseg, hprev, hcur, hpend, hbusy, hhalt.trans hh,
    State.pat_of_mem hmem⟩

/-! ### An overwritten handler (70_reset_and_hazards.md R187) -/

/-- Settles O55, step by step. -/
theorem overwrittenHandlerLeadsToOverrun : Obligations.OverwrittenHandlerLeadsToOverrun := by
  intro s hv hsrc hfg hh hie hm hserf hen htick
  have hout : s.out ++ [.response 0x0000, .notifyHost] = s.out ++ [.response 0x0000] ++ [.notifyHost] :=
    (List.append_assoc s.out [.response 0x0000] [.notifyHost]).symm
  have hset := exec_serSetHandler_accepted (h := 2) (target := .host) rfl hfg hh
  have hdeliver : exec .irqSer { s with handler := .host, out := s.out ++ [.response 0x0000] } = .next { s with
      handler := .host, serf := false, out := s.out ++ [.response 0x0000] ++ [.notifyHost] } :=
    takeInterrupt_of_body hie hserf hh hie (State.dispatch_host rfl)
  have hfire := exec_tmrTick_first (s := { s with
    handler := .host, serf := false, out := s.out ++ [.response 0x0000] ++ [.notifyHost] }) hen hsrc htick
  have hover := (asyncTickStartsTransfer { s with
    handler := .host, serf := false, tickf := true
    out := s.out ++ [.response 0x0000] ++ [.notifyHost] } hv hie rfl hh).1 (.inr hm)
  rw [hout]
  exact (runAll_cons hset).trans ((runAll_cons hdeliver).trans ((runAll_cons hfire).trans (runAll_cons hover)))

/-! ### Fairness (42_serial.md R114, R117, 43_system.md R144) -/

/-- A busy-wait without a bound, over a configured controller. -/
structure Spinning (saved : Bool) (c : SerCfg) (s : State) : Prop where
  inv : Inv s
  spin : ∃ n, s.fg = .spin saved n
  noLimit : s.cfg.bwLimit = none
  configured : s.sercfg = some c

/-- A step of the busy-wait ends it, or it goes on; then a poll found `DONE = 0`, and while the unit stays busy its bits
are counted. -/
theorem Spinning.step {saved : Bool} {c : SerCfg} {s t : State} {i : Instr} (h : Spinning saved c s)
    (hstep : exec i s = .next t) (hi : i ≠ .reset) :
    (t.fg = .idle ∧ t.ie = saved) ∨
      (Spinning saved c t ∧ (i = .fgStep → s.done = false) ∧
        (t.busy = true → s.busy = true ∧ s.bitcnt.toNat ≤ t.bitcnt.toNat ∧
          ∀ sdi, i = .serStep sdi → s.bitcnt.toNat < t.bitcnt.toNat)) := by
  have hinv : Inv t := exec_keeps_inv h.inv hstep
  obtain ⟨n, hspin⟩ := h.spin
  have hie : s.ie = false := (h.inv.spinSection saved n hspin).1
  cases exec_effect hstep with
  | reset => exact absurd rfl hi
  | serStep _ sdi hb =>
    refine .inr ⟨⟨hinv, ⟨n, hspin⟩, h.noLimit, h.configured⟩, nofun, fun hbusy => ?_⟩
    have hlast : s.lastBit = false := by
      cases hl : s.lastBit with
      | false => rfl
      | true => simp [hl] at hbusy
    have hcount : s.bitcnt.toNat < (if s.lastBit then 0 else s.bitcnt + 1).toNat := by
      have hne : s.bitcnt ≠ 7 := ne_of_beq_false hlast
      rw [hlast]
      show s.bitcnt.toNat < (s.bitcnt + 1).toNat
      bv_omega
    exact ⟨hb, hcount.le, fun _ _ => hcount⟩
  | tmrTick | serGlitch | clkCounts | clkWraps | clkFires =>
    exact .inr ⟨⟨hinv, ⟨n, hspin⟩, h.noLimit, h.configured⟩, nofun, fun hbusy => ⟨hbusy, Nat.le_refl _, nofun⟩⟩
  | spinEnd saved' n' hfg =>
    cases hspin.symm.trans hfg
    exact .inl ⟨rfl, rfl⟩
  | spinPoll saved' n' hfg hd =>
    cases hspin.symm.trans hfg
    exact .inr ⟨⟨hinv, ⟨n + 1, rfl⟩, h.noLimit, h.configured⟩, fun _ => hd, fun hbusy => ⟨hbusy, Nat.le_refl _, nofun⟩⟩
  | spinTimeout saved' n' hfg hd hl =>
    rw [h.noLimit] at hl
    cases hl
  | tickOverrun htaken | tickSkipped htaken | tickSync _ htaken | tickAsync _ htaken | serIdle htaken
  | serHost htaken | serMux htaken => cases hie.symm.trans htaken
  | store _ _ _ _ _ _ hfg | lastStore _ _ _ hfg => cases hspin.symm.trans hfg
  | answered _ _ hfg | initSync hfg | initAsync hfg | patWrite _ _ hfg | dispValue _ _ _ hfg
  | configController _ _ _ hfg | configPeripheral _ _ _ hfg | xmitBw _ hfg | xmitIrq _ hfg | setHandler _ _ hfg
  | intEnable hfg | intDisable hfg => cases hspin.symm.trans hfg

theorem Spinning.shiftsByItself {saved : Bool} {c : SerCfg} {s : State} (h : Spinning saved c s)
    (hc : c.role = .controller) (hb : s.busy = true) : s.shiftsByItself = true := by
  simp only [State.shiftsByItself, hb, h.configured, hc]
  rfl

theorem Spinning.fg_ne_idle {saved : Bool} {c : SerCfg} {s : State} (h : Spinning saved c s) : s.fg ≠ .idle := by
  obtain ⟨n, hspin⟩ := h.spin
  rw [hspin]
  nofun

/-- An idle unit inside the busy-wait has its transfer done. -/
theorem Spinning.done_of_idle {saved : Bool} {c : SerCfg} {s : State} (h : Spinning saved c s)
    (hb : s.busy = false) : s.done = true := by
  obtain ⟨n, hspin⟩ := h.spin
  exact (h.inv.spinSection saved n hspin).2.2.resolve_left (Bool.eq_false_iff.1 hb)

section EndlessWait

variable {r : Nat → State} {i : Nat → Instr} {saved : Bool} {c : SerCfg} (hrun : IsRun r i)
  (hreset : ∀ m, i m ≠ .reset) (hnever : ∀ m, ¬ ((r m).fg = .idle ∧ (r m).ie = saved))
include hrun hreset hnever

theorem endlessWait_spinning (h0 : Spinning saved c (r 0)) (m : Nat) : Spinning saved c (r m) := by
  induction m with
  | zero => exact h0
  | succ m ih => exact ((ih.step (hrun m) (hreset m)).resolve_left (hnever (m + 1))).1

variable (hspin : ∀ m, Spinning saved c (r m))
include hspin

theorem endlessWait_poll_fails (m : Nat) (hpoll : i m = .fgStep) : (r m).done = false :=
  (((hspin m).step (hrun m) (hreset m)).resolve_left (hnever (m + 1))).2.1 hpoll

theorem endlessWait_busy_step (m : Nat) (hb : (r (m + 1)).busy = true) :
    (r m).busy = true ∧ (r m).bitcnt.toNat ≤ (r (m + 1)).bitcnt.toNat ∧
      ∀ sdi, i m = .serStep sdi → (r m).bitcnt.toNat < (r (m + 1)).bitcnt.toNat :=
  (((hspin m).step (hrun m) (hreset m)).resolve_left (hnever (m + 1))).2.2 hb

/-- A unit that always shifts again counts past every number of bits. -/
theorem endlessWait_bitcnt_unbounded (hbusy : ∀ m, (r m).busy = true)
    (hshift : ∀ n, ∃ m, n ≤ m ∧ ∃ sdi, i m = .serStep sdi) (k : Nat) : ∃ m, k ≤ (r m).bitcnt.toNat := by
  have hmono : Monotone fun m => (r m).bitcnt.toNat :=
    monotone_nat_of_le_succ fun m => (endlessWait_busy_step hrun hreset hnever hspin m (hbusy _)).2.1
  induction k with
  | zero => exact ⟨0, Nat.zero_le _⟩
  | succ k ih =>
    obtain ⟨n, hn⟩ := ih
    obtain ⟨m, hnm, sdi, hm⟩ := hshift n
    have hcount := (endlessWait_busy_step hrun hreset hnever hspin m (hbusy _)).2.2 sdi hm
    exact ⟨m + 1, Nat.lt_of_le_of_lt (hn.trans (hmono hnm)) hcount⟩

/-- So under the unit's fairness the transfer ends. -/
theorem endlessWait_exists_idle (hc : c.role = .controller) (hstall : (r 0).cfg.serMayStall = false)
    (hfair : SerialFair r i) : ∃ m, (r m).busy = false := by
  by_contra hnone
  have hbusy (m : Nat) : (r m).busy = true := by
    by_contra hb
    exact hnone ⟨m, Bool.eq_false_iff.2 hb⟩
  have hshift (n : Nat) := hfair hstall n fun m _ => (hspin m).shiftsByItself hc (hbusy m)
  obtain ⟨m, hm⟩ := endlessWait_bitcnt_unbounded hrun hreset hnever hspin hbusy hshift 8
  exact absurd (r m).bitcnt.isLt (Nat.not_lt.2 hm)

/-- No transfer starts inside the busy-wait. -/
theorem endlessWait_idle_persists {m n : Nat} (hmn : m ≤ n) (hm : (r m).busy = false) : (r n).busy = false := by
  induction n, hmn using Nat.le_induction with
  | base => exact hm
  | succ n _ ih =>
    refine Bool.eq_false_iff.2 fun hb => ?_
    exact absurd (endlessWait_busy_step hrun hreset hnever hspin n hb).1 (Bool.eq_false_iff.1 ih)

end EndlessWait

/-- Settles O58: if the busy-wait never ended, the fair unit would finish its transfer and the fair foreground would
poll after that, and find `DONE = 1`. -/
theorem busyWaitEndsUnderFairness : Obligations.BusyWaitEndsUnderFairness := by
  intro r i saved n hrun hinv hfg hlimit hstall hcfg hreset hserial hforeground
  obtain ⟨c, hsercfg, hc⟩ := hcfg
  by_contra hnone
  have hnever : ∀ m, ¬ ((r m).fg = .idle ∧ (r m).ie = saved) := not_exists.1 hnone
  have hspin := endlessWait_spinning hrun hreset hnever ⟨hinv, ⟨n, hfg⟩, hlimit, hsercfg⟩
  obtain ⟨m, hidle⟩ := endlessWait_exists_idle hrun hreset hnever hspin hc hstall hserial
  obtain ⟨p, hmp, hpoll⟩ := hforeground m fun k _ => (hspin k).fg_ne_idle
  have hdone : (r p).done = true :=
    (hspin p).done_of_idle (endlessWait_idle_persists hrun hreset hnever hspin hmp hidle)
  have hnotDone : (r p).done = false := endlessWait_poll_fails hrun hreset hnever hspin p hpoll
  cases hdone.symm.trans hnotDone

end Sys2Proof.Machine
